-- ==== Sys2Proof/Word.lean ====
section
/-! DEFINITION. The word types of the HHC codec block (00_scope.md R10, R13; 10_state.md R48). -/

namespace Sys2Proof

/-- A register, a command word or a host-port data word: DATA_W = 32 (R10). -/
abbrev Word := BitVec 32

/-- A host-port byte address: ADDR_W = 19 (R10, R64). -/
abbrev Addr := BitVec 19

/-- A symbol: SYMBOL_BITS = 8 (R10, R49). -/
abbrev Symbol := BitVec 8

/-- A Hamming codeword, layout position j of `[p0,p1,d0,p2,d1,d2,d3]` at bit j (R53). -/
abbrev Codeword := BitVec 7

/-- A data group, d_j at bit j (R95). -/
abbrev Nibble := BitVec 4

/-- A Bitstring: a finite list of bits, index 0 first (R14). -/
abbrev Bits := List Bool

end Sys2Proof
end

