-- ==== Sys2Proof/Config.lean ====
section
/-! DEFINITION. What an implementation of the block fixes (R10, R11), and the free values UNSPEC draws (R15). -/

namespace Sys2Proof

/-- The two capacity parameters an implementation chooses (R11). -/
structure Params where
  /-- TEXT_CAP, the number of symbols SYM_BUF holds. -/
  textCap : Nat
  /-- OUT_CAP, the number of symbols OUT_BUF holds. -/
  outCap : Nat
  deriving DecidableEq, Repr

namespace Params

/-- The defaults of R11. -/
def default : Params := ⟨4096, 4096⟩

/-- BIT_CAP = 8 × TEXT_CAP (R11). -/
def bitCap (p : Params) : Nat := 8 * p.textCap

/-- BLK_CAP = 2 × TEXT_CAP (R11). -/
def blkCap (p : Params) : Nat := 2 * p.textCap

end Params

/-- ALPHABET = 256 (R10). -/
def alphabet : Nat := 256

/-- MAX_CODE_LEN = 255 (R10). -/
def maxCodeLen : Nat := 255

/-- The identification value 0x4843_0100 (R4). -/
def idValue : Word := 0x48430100#32

/-- UNSPEC (R15; 93_implementation_defined.md, "any value"): the value of element `index` of the draw numbered
`draw`. It has no body: no proof can learn which value it is. DESIGN CHOICE, safe: log 2. -/
opaque Config.free {α : Type} [Inhabited α] (draw index : Nat) : α

end Sys2Proof
end

