-- ==== Sys2Proof/Syntax.lean ====
section
/-! DEFINITION. The commands of the block: one constructor for each row of spec/opcode_table.json (30_encoding.md R88).
No command has an operand field: every operand is a register or a buffer the command names (R91). -/

namespace Sys2Proof

/-- The commands (R88). -/
inductive Instr where
  /-- NOP (R106). -/
  | nop
  /-- BUILD_CODES (R119). -/
  | buildCodes
  /-- HUF_ENCODE (R120). -/
  | hufEncode
  /-- DECOMPRESS with SRC = 0, input HUF_BUF with HUF_LEN (R121, R92). -/
  | decompressSrc0
  /-- DECOMPRESS with SRC = 1, input DAT_BUF with DAT_LEN (R121, R92). -/
  | decompressSrc1
  /-- HAM_ENCODE (R135). -/
  | hamEncode
  /-- INJECT_NOISE (R136). -/
  | injectNoise
  /-- HAM_DECODE (R137). -/
  | hamDecode
  deriving DecidableEq, Repr

end Sys2Proof
end

