-- ==== Sys2Proof/Decode.lean ====
section
/-! DEFINITION. Decoding and encoding the command word (30_encoding.md R87 to R90, R92). -/

namespace Sys2Proof

/-- Why a word is no command. An accepted word that is rejected completes with BAD_COMMAND (R89, R149), whatever the
reason; the reasons only name the part of R89 that fails. -/
inductive DecodeError where
  /-- OP is 0x7 to 0xF (R90), whatever the other bits. -/
  | reservedOpcode
  /-- OP is defined and a bit of w[7:4] or w[31:9] is 1 (R87). -/
  | reservedBits
  /-- w[8] = 1 and OP is defined and not DECOMPRESS (R87). -/
  | srcNotAllowed
  deriving DecidableEq, Repr

/-- OP = w[3:0] (R87). -/
def opField (w : Word) : BitVec 4 := w.extractLsb' 0 4

/-- SRC = w[8] (R87). -/
def srcField (w : Word) : Bool := w.getLsbD 8

/-- w[7:4] and w[31:9] are 0 (R87). -/
def reservedFieldsZero (w : Word) : Bool := w.extractLsb' 4 4 == 0#4 && w.extractLsb' 9 23 == 0#23

/-- The command of an opcode and SRC (R88). -/
def decodeOp (op : Nat) (src : Bool) : Except DecodeError Instr :=
  match op, src with
  | 0, false => .ok .nop
  | 1, false => .ok .buildCodes
  | 2, false => .ok .hufEncode
  | 3, false => .ok .decompressSrc0
  | 3, true => .ok .decompressSrc1
  | 4, false => .ok .hamEncode
  | 5, false => .ok .injectNoise
  | 6, false => .ok .hamDecode
  | _, _ => .error .srcNotAllowed

/-- Reads a command word (R87 to R90): total on every word, each illegal word rejected by name. -/
def decode (w : Word) : Except DecodeError Instr :=
  if 7 ≤ (opField w).toNat then .error .reservedOpcode
  else if reservedFieldsZero w then decodeOp (opField w).toNat (srcField w)
  else .error .reservedBits

/-- The opcode of a command (R88). -/
def opcodeOf : Instr → BitVec 4
  | .nop => 0x0#4
  | .buildCodes => 0x1#4
  | .hufEncode => 0x2#4
  | .decompressSrc0 => 0x3#4
  | .decompressSrc1 => 0x3#4
  | .hamEncode => 0x4#4
  | .injectNoise => 0x5#4
  | .hamDecode => 0x6#4

/-- The SRC bit of a command (R88, R92). -/
def srcOf : Instr → BitVec 1
  | .decompressSrc1 => 1#1
  | .nop => 0#1
  | .buildCodes => 0#1
  | .hufEncode => 0#1
  | .decompressSrc0 => 0#1
  | .hamEncode => 0#1
  | .injectNoise => 0#1
  | .hamDecode => 0#1

/-- The command word of a command, field by field from bit 31 down (R87). -/
def encode (i : Instr) : Word := 0#23 ++ srcOf i ++ 0#4 ++ opcodeOf i

/-- The word that a row of the opcode table of `nbits` bits stands for: bit 0 is the word's bit 0, and every bit at
and above `nbits` is 0. -/
def tableWord (nbits w : Nat) : Word := BitVec.ofNat 32 (w % 2 ^ nbits)

/-- The command this decoder reads from an instruction whose bits are `w`. -/
def decodeTableWord (nbits w : Nat) : Option Instr := (decode (tableWord nbits w)).toOption

end Sys2Proof
end

