-- ==== Sys2Proof/Machine/State.lean ====
section
/-! DEFINITION. The architectural state of the block (10_state.md R19 to R63) as plain data, the reasons a step could
stop, and the state after reset (70_reset_and_hazards.md R162, R163). -/

namespace Sys2Proof.Machine

/-- One on-chip buffer (R48): the elements written since its last draw, as (index, element) pairs, indexes strictly
rising. An element not listed reads as element `index` of the draw numbered `draw`, an UNSPEC value that is stable
until the element is written (R58, R152). DESIGN CHOICE, safe: log 4. -/
structure Memory (α : Type) where
  draw : Nat
  cells : List (Nat × α)
  deriving DecidableEq, Repr

/-- The error codes of R143 but NONE; 7 to 15 are never produced. -/
inductive ErrorCode where
  /-- Code 1 (R144). -/
  | invalidInput
  /-- Code 2 (R145). -/
  | ambiguousCode
  /-- Code 3 (R146). -/
  | corruptStream
  /-- Code 4 (R147). -/
  | unknownSymbol
  /-- Code 5 (R148). -/
  | capacity
  /-- Code 6 (R149). -/
  | badCommand
  deriving DecidableEq, Repr

/-- The fields of STATUS (R27); its reserved bits hold nothing (R70). -/
structure Status where
  /-- R28. -/
  busy : Bool
  /-- R29. -/
  done : Bool
  /-- R30. -/
  err : Bool
  /-- R31. -/
  codesValid : Bool
  /-- R32; `none` is code 0, NONE. -/
  errCode : Option ErrorCode
  /-- R33. -/
  lastOp : BitVec 4
  deriving DecidableEq, Repr

/-- The length, count and parameter registers (R37 to R46). -/
structure Regs where
  /-- SYM_LEN (R37). -/
  symLen : Word
  /-- HUF_LEN (R38). -/
  hufLen : Word
  /-- CW_CNT (R39). -/
  cwCnt : Word
  /-- RX_CNT (R40). -/
  rxCnt : Word
  /-- DAT_LEN (R41). -/
  datLen : Word
  /-- OUT_LEN (R42). -/
  outLen : Word
  /-- ERR_COUNT (R43). -/
  errCount : Word
  /-- NOISE_CNT (R44). -/
  noiseCnt : Word
  /-- NOISE_SEED (R45). -/
  noiseSeed : Word
  /-- N_SYMBOLS (R46). -/
  nSymbols : Word
  deriving DecidableEq, Repr

/-- The on-chip buffers (R48). A CT entry s is LEN[s], element s of `ctLen`, and BITS[s], whose bits 32k to 32k+31 are
element 8s + k of `ctBits` (R51, R83). -/
structure Buffers where
  /-- FREQ_BUF (R50). -/
  freqBuf : Memory Word
  /-- CT, the LEN fields (R51). -/
  ctLen : Memory (BitVec 8)
  /-- CT, the BITS fields (R51). -/
  ctBits : Memory Word
  /-- SYM_BUF (R49). -/
  symBuf : Memory Symbol
  /-- OUT_BUF (R57). -/
  outBuf : Memory Symbol
  /-- HUF_BUF (R52). -/
  hufBuf : Memory Bool
  /-- DAT_BUF (R55). -/
  datBuf : Memory Bool
  /-- CW_BUF (R53). -/
  cwBuf : Memory Codeword
  /-- RX_BUF (R54). -/
  rxBuf : Memory Codeword
  /-- EFLAG_BUF (R56). -/
  eflagBuf : Memory Bool
  deriving DecidableEq, Repr

/-- A turn of one of the three agents of R19. -/
inductive Event where
  /-- The host reads `size` bytes at a byte address (R64). -/
  | memRead (addr : Addr) (size : Nat)
  /-- The host writes `size` bytes at a byte address (R64); a write with partial byte enables has a size below 4. -/
  | memWrite (addr : Addr) (size : Nat) (value : Word)
  /-- The engine's completion step (R102). -/
  | complete
  /-- The reset event (R162). -/
  | reset
  deriving DecidableEq, Repr

/-- The response of a host transaction (R64). -/
inductive Response where
  | okay
  | error
  deriving DecidableEq, Repr

/-- What the host port answered to one transaction (R64); `data` is none for a write. -/
structure Reply where
  response : Response
  data : Option Word
  deriving DecidableEq, Repr

/-- Why the machine could stop. The spec gives the block no way to stop: a command that fails ends in a next state that
reports the error (R143 to R155), and a refused host transaction only gets an ERROR response (R65, R66). So there is
no constructor, and that no step faults holds by this type. -/
inductive Fault where
  deriving DecidableEq, Repr

/-- Why an instruction could have no meaning. -/
inductive Refusal where
  /-- Raised by `exec` for an instruction whose meaning is not written yet; safe. No arm of `exec` raises it. -/
  | notModelled (mnemonic : String)
  deriving DecidableEq, Repr

/-- The state of the block. -/
structure State where
  /-- TEXT_CAP and OUT_CAP (R11), read back in CAP_TEXT, CAP_OUT, CAP_BITS and CAP_BLKS (R22 to R25). No step changes
  them. DESIGN CHOICE, safe: log 1. -/
  params : Params
  /-- CMD (R26). -/
  cmd : Word
  /-- STATUS (R27). -/
  status : Status
  /-- IRQ_ENABLE: DONE_IE, ERR_IE, DROP_IE at bits 0, 1, 2 (R34). -/
  irqEnable : BitVec 3
  /-- IRQ_STATUS: DONE_EV, ERR_EV, DROP_EV at bits 0, 1, 2 (R35). -/
  irqStatus : BitVec 3
  /-- R37 to R46. -/
  regs : Regs
  /-- R48. -/
  bufs : Buffers
  /-- The model's own: how many UNSPEC draws have been taken. DESIGN CHOICE, safe: log 2. -/
  draws : Nat
  /-- The model's own: the turns of the agents still to come, the next one first (R19, R74). DESIGN CHOICE, safe:
  log 5. -/
  agenda : List Event
  /-- The answer to the last host transaction since reset (R64). DESIGN CHOICE, safe: log 7. -/
  reply : Option Reply
  deriving DecidableEq, Repr

/-- STATUS after reset (R163). -/
def Status.reset : Status := ⟨false, false, false, false, none, 0#4⟩

/-- The registers of R37 to R46 after reset (R20, R162): NOISE_SEED is UNSPEC, element 0 of draw `d` (R45); log 3. -/
def Regs.reset (d : Nat) : Regs := ⟨0#32, 0#32, 0#32, 0#32, 0#32, 0#32, 0#32, 0#32, Config.free d 0, 0#32⟩

/-- The buffers after reset (R58, R162): nothing listed, so every element is UNSPEC, each buffer with a draw of its
own. -/
def Buffers.reset (d : Nat) : Buffers :=
  { freqBuf := ⟨d, []⟩, ctLen := ⟨d + 1, []⟩, ctBits := ⟨d + 2, []⟩, symBuf := ⟨d + 3, []⟩, outBuf := ⟨d + 4, []⟩
    hufBuf := ⟨d + 5, []⟩, datBuf := ⟨d + 6, []⟩, cwBuf := ⟨d + 7, []⟩, rxBuf := ⟨d + 8, []⟩, eflagBuf := ⟨d + 9, []⟩ }

/-- How many draws one reset takes: one for NOISE_SEED and one for each buffer. -/
def resetDraws : Nat := 11

/-- The state a reset leaves (R162, R163) when its draws are numbered from `d` on, with no turn listed. -/
def State.atReset (p : Params) (d : Nat) : State :=
  { params := p, cmd := 0#32, status := Status.reset, irqEnable := 0#3, irqStatus := 0#3
    regs := Regs.reset d, bufs := Buffers.reset (d + 1), draws := d + resetDraws, agenda := [], reply := none }

/-- The block right after reset, with the default capacities of R11. -/
def State.reset : State := State.atReset Params.default 0

end Sys2Proof.Machine
end

