-- ==== Sys2Proof/Machine/Ops.lean ====
section
/-! DEFINITION. The named operations over buffers and the command lifecycle: reading and writing elements, acceptance
(40_command.md R100), completion with and without an error (R102; 60_exceptions.md R151, R152), reset
(70_reset_and_hazards.md R162). -/

namespace Sys2Proof.Machine

/-! ### Buffers -/

/-- The element listed at an index. -/
def lookupCell {α : Type} : List (Nat × α) → Nat → Option α
  | [], _ => none
  | (j, v) :: rest, i => if i = j then some v else lookupCell rest i

/-- Lists an element at its index, in order. -/
def insertCell {α : Type} : List (Nat × α) → Nat → α → List (Nat × α)
  | [], i, v => [(i, v)]
  | (j, u) :: rest, i, v =>
    if i < j then (i, v) :: (j, u) :: rest
    else if i = j then (i, v) :: rest
    else (j, u) :: insertCell rest i v

/-- The canonical form of a buffer: listed indexes strictly rising. An unlisted element has no listed value, so no
entry can equal it. -/
abbrev Memory.wf {α : Type} (m : Memory α) : Prop := (m.cells.map Prod.fst).Pairwise (· < ·)

/-- Only elements below a capacity are listed (R48). -/
abbrev Memory.within {α : Type} (m : Memory α) (n : Nat) : Prop := ∀ i ∈ m.cells.map Prod.fst, i < n

/-- `BUF[i]` (R15): the element written last, or the buffer's UNSPEC draw (R58). -/
def Memory.get {α : Type} [Inhabited α] (m : Memory α) (i : Nat) : α :=
  match lookupCell m.cells i with
  | some v => v
  | none => Config.free m.draw i

/-- `BUF[i] <- v` (R15). -/
def Memory.set {α : Type} (m : Memory α) (i : Nat) (v : α) : Memory α := { m with cells := insertCell m.cells i v }

/-- The sequence `BUF[i .. i + n)` (R14). -/
def Memory.getSeq {α : Type} [Inhabited α] (m : Memory α) (i n : Nat) : List α :=
  (List.range n).map fun k => m.get (i + k)

/-- Writes a sequence to the elements from index `i` on. -/
def Memory.setSeq {α : Type} (m : Memory α) : Nat → List α → Memory α
  | _, [] => m
  | i, v :: vs => (m.set i v).setSeq (i + 1) vs

/-- Writes every element of a buffer of `n` elements. -/
def Memory.setAll {α : Type} (m : Memory α) (n : Nat) (f : Nat → α) : Memory α :=
  { m with cells := (List.range n).map fun i => (i, f i) }

/-- A buffer every element of which is the UNSPEC draw `d`. -/
def Memory.drawn {α : Type} (d : Nat) : Memory α := ⟨d, []⟩

/-! ### The command lifecycle -/

/-- DONE_EV, bit 0 of IRQ_STATUS (R35). -/
def doneEv : BitVec 3 := 1#3

/-- ERR_EV, bit 1 of IRQ_STATUS (R35). -/
def errEv : BitVec 3 := 2#3

/-- DROP_EV, bit 2 of IRQ_STATUS (R35). -/
def dropEv : BitVec 3 := 4#3

/-- Acceptance of the command word `w` (R100). -/
def State.accept (w : Word) (s : State) : State :=
  { s with
    cmd := w
    status := { s.status with busy := true, done := false, err := false, errCode := none, lastOp := opField w } }

/-- The completion step's effect on STATUS and IRQ_STATUS (R102), with the error raised, if any. This is the one
operation by which an error is taken (R102, R154, R155); what the error's phase does to the outputs stands in the
state it is applied to. -/
def State.complete (e : Option ErrorCode) (s : State) : State :=
  { s with
    status := { s.status with busy := false, done := true, err := e.isSome, errCode := e }
    irqStatus := s.irqStatus ||| doneEv ||| (if e.isSome then errEv else 0#3) }

/-- The outcome of a command (R101): success with the state after its writes, or an error with the state after the
effects of its phase, which for a check-phase error is the state unchanged (R151). -/
inductive CommandResult where
  | success (s : State)
  | error (e : ErrorCode) (s : State)
  deriving DecidableEq, Repr

/-- Completion with a command's outcome (R102). -/
def CommandResult.completed : CommandResult → State
  | .success s => s.complete none
  | .error e s => s.complete (some e)

/-- How every meaning ends: the completion step gives the next state. -/
def finish (r : CommandResult) : Host.Outcome State Fault Refusal := .next r.completed

/-- R152 for HUF_ENCODE: HUF_LEN is 0 and every element of HUF_BUF is a fresh UNSPEC draw. -/
def State.spoilHuf (s : State) : State :=
  { s with
    regs := { s.regs with hufLen := 0#32 }
    bufs := { s.bufs with hufBuf := Memory.drawn s.draws }
    draws := s.draws + 1 }

/-- R152 for DECOMPRESS: OUT_LEN is 0 and every element of OUT_BUF is a fresh UNSPEC draw. -/
def State.spoilOut (s : State) : State :=
  { s with
    regs := { s.regs with outLen := 0#32 }
    bufs := { s.bufs with outBuf := Memory.drawn s.draws }
    draws := s.draws + 1 }

/-- An accepted illegal word completes with BAD_COMMAND, a check-phase error (R149). -/
def badCommand (s : State) : Host.Outcome State Fault Refusal := finish (.error .badCommand s)

/-- The reset event (R162, R164): every register and buffer as reset leaves it, with new draws. The turns still to come
and the capacities stay. -/
def State.takeReset (s : State) : State := { State.atReset s.params s.draws with agenda := s.agenda }

end Sys2Proof.Machine
end

