-- ==== Sys2Proof/Machine/Flags.lean ====
section
/-! DEFINITION. The flags as the host reads them: the STATUS word (10_state.md R27), the error codes
(60_exceptions.md R143), IRQ_ENABLE and IRQ_STATUS (R34, R35) and the irq output (R36). -/

namespace Sys2Proof.Machine

/-- The number of an error code (R143). -/
def errorNumber : Option ErrorCode → BitVec 4
  | none => 0#4
  | some .invalidInput => 1#4
  | some .ambiguousCode => 2#4
  | some .corruptStream => 3#4
  | some .unknownSymbol => 4#4
  | some .capacity => 5#4
  | some .badCommand => 6#4

/-- STATUS as a word (R27), from bit 31 down; reserved bits read 0 (R70). -/
def Status.word (t : Status) : Word :=
  0#16 ++ t.lastOp ++ errorNumber t.errCode ++ 0#4 ++
    BitVec.ofBool t.codesValid ++ BitVec.ofBool t.err ++ BitVec.ofBool t.done ++ BitVec.ofBool t.busy

/-- The irq output (R36): a level, 1 exactly while an enabled event is pending. -/
def State.irq (s : State) : Bool := s.irqStatus &&& s.irqEnable != 0#3

/-- A host write of IRQ_ENABLE stores bits [2:0] (R34). -/
def State.writeIrqEnable (v : Word) (s : State) : State := { s with irqEnable := v.setWidth 3 }

/-- A host write of IRQ_STATUS clears each bit of [2:0] written as 1 (R35). -/
def State.writeIrqStatus (v : Word) (s : State) : State := { s with irqStatus := s.irqStatus &&& ~~~(v.setWidth 3) }

/-- A dropped host write sets DROP_EV (R71). -/
def State.noteDrop (s : State) : State := { s with irqStatus := s.irqStatus ||| dropEv }

/-- A host write to the CT window clears CODES_VALID (R31, R69). -/
def State.clearCodesValid (s : State) : State := { s with status := { s.status with codesValid := false } }

end Sys2Proof.Machine
end

