-- ==== Sys2Proof/Machine/Operands.lean ====
section
/-! DEFINITION. The operand forms: the sequences a command reads (30_encoding.md R91, R92), the code table as a command
sees it (10_state.md R51), the data groups (R95) and the packing of elements into host words (20_memory.md R77 to
R83). -/

namespace Sys2Proof.Machine

/-! ### The sequences commands read -/

/-- The input of BUILD_CODES and HUF_ENCODE: SYM_BUF[0 .. SYM_LEN−1] (R37, R49). -/
def State.text (s : State) : List Symbol := s.bufs.symBuf.getSeq 0 s.regs.symLen.toNat

/-- The Bitstring HUF_BUF[0 .. HUF_LEN−1] (R38, R52). -/
def State.hufBits (s : State) : Bits := s.bufs.hufBuf.getSeq 0 s.regs.hufLen.toNat

/-- The Bitstring DAT_BUF[0 .. DAT_LEN−1] (R41, R55). -/
def State.datBits (s : State) : Bits := s.bufs.datBuf.getSeq 0 s.regs.datLen.toNat

/-- The codewords CW_BUF[0 .. CW_CNT−1] (R39, R53). -/
def State.codewords (s : State) : List Codeword := s.bufs.cwBuf.getSeq 0 s.regs.cwCnt.toNat

/-- The received words RX_BUF[0 .. RX_CNT−1] (R40, R54). -/
def State.received (s : State) : List Codeword := s.bufs.rxBuf.getSeq 0 s.regs.rxCnt.toNat

/-! ### The code table -/

/-- The codes a table holds: each symbol that has one, with its code. -/
abbrev CodeTable := List (Symbol × Bits)

/-- Bit j of BITS[x] (R51, R83). -/
def Buffers.codeBit (b : Buffers) (x : Symbol) (j : Nat) : Bool :=
  (b.ctBits.get (8 * x.toNat + j / 32)).getLsbD (j % 32)

/-- code(x), the first LEN[x] bits of BITS[x] (R51). -/
def Buffers.code (b : Buffers) (x : Symbol) : Bits :=
  (List.range (b.ctLen.get x.toNat).toNat).map fun j => b.codeBit x j

/-- CT as a command reads it: the entries with LEN ≥ 1, in ascending symbol value (R51). -/
def Buffers.codeTable (b : Buffers) : CodeTable :=
  (List.range alphabet).filterMap fun k =>
    if b.ctLen.get k = 0#8 then none else some (BitVec.ofNat 8 k, b.code (BitVec.ofNat 8 k))

/-- The code of a symbol in a table, if it has one. -/
def codeOf (t : CodeTable) (x : Symbol) : Option Bits := t.lookup x

/-! ### Packing -/

/-- Byte k of a word, bits [8k+7 : 8k] (R77). -/
def byteOf (w : Word) (k : Nat) : BitVec 8 := w.extractLsb' (8 * k) 8

/-- The word whose byte k is the k-th argument (R77). -/
def packBytes (b0 b1 b2 b3 : BitVec 8) : Word := b3 ++ b2 ++ b1 ++ b0

/-- The word whose bit j is element j of a list of at most 32 bits, and 0 past its end (R79, R81). -/
def packBits (bs : Bits) : Word := (BitVec.ofBoolListLE bs).setWidth 32

/-- The bits of a word, bit 0 first (R79). -/
def unpackBits (w : Word) : Bits := (List.range 32).map fun j => w.getLsbD j

/-- Word k of a buffer of symbols (R78). -/
def symbolWord (m : Memory Symbol) (k : Nat) : Word :=
  packBytes (m.get (4 * k)) (m.get (4 * k + 1)) (m.get (4 * k + 2)) (m.get (4 * k + 3))

/-- Stores word k of a buffer of symbols: all four elements it covers (R78). -/
def setSymbolWord (m : Memory Symbol) (k : Nat) (w : Word) : Memory Symbol :=
  m.setSeq (4 * k) [byteOf w 0, byteOf w 1, byteOf w 2, byteOf w 3]

/-- Word k of a buffer of bits or flags (R79, R81). -/
def bitWord (m : Memory Bool) (k : Nat) : Word := packBits (m.getSeq (32 * k) 32)

/-- Stores word k of a buffer of bits: all 32 elements it covers (R79). -/
def setBitWord (m : Memory Bool) (k : Nat) (w : Word) : Memory Bool := m.setSeq (32 * k) (unpackBits w)

/-- A codeword as a byte; bit 7 is reserved and reads 0 (R70, R80). -/
def codewordByte (c : Codeword) : BitVec 8 := 0#1 ++ c

/-- Word k of a buffer of codewords (R80). -/
def codewordWord (m : Memory Codeword) (k : Nat) : Word :=
  packBytes (codewordByte (m.get (4 * k))) (codewordByte (m.get (4 * k + 1)))
    (codewordByte (m.get (4 * k + 2))) (codewordByte (m.get (4 * k + 3)))

/-- Stores word k of a buffer of codewords; bit 7 of each byte stores nothing (R70, R80). -/
def setCodewordWord (m : Memory Codeword) (k : Nat) (w : Word) : Memory Codeword :=
  m.setSeq (4 * k)
    [(byteOf w 0).setWidth 7, (byteOf w 1).setWidth 7, (byteOf w 2).setWidth 7, (byteOf w 3).setWidth 7]

/-! ### Groups of four bits -/

/-- Group g of a Bitstring, zero-padded past its end (R95, R135). -/
def groupOf (bs : Bits) (g : Nat) : Nibble :=
  BitVec.ofBool (bs.getD (4 * g + 3) false) ++ BitVec.ofBool (bs.getD (4 * g + 2) false) ++
    BitVec.ofBool (bs.getD (4 * g + 1) false) ++ BitVec.ofBool (bs.getD (4 * g) false)

/-- The four bits of a group, d0 first (R95). -/
def nibbleBits (d : Nibble) : Bits := [d.getLsbD 0, d.getLsbD 1, d.getLsbD 2, d.getLsbD 3]

end Sys2Proof.Machine
end

