-- ==== Sys2Proof/Machine/Hamming.lean ====
section
/-! DEFINITION. The Hamming(7,4) family (42_hamming.md): HAM_ENCODE, INJECT_NOISE, HAM_DECODE. -/

namespace Sys2Proof.Machine

/-! ### Functions -/

/-- HENC4 (R127): the codeword [p0, p1, d0, p2, d1, d2, d3] of a group. -/
def henc4 (d : Nibble) : Codeword :=
  let d0 := d.getLsbD 0
  let d1 := d.getLsbD 1
  let d2 := d.getLsbD 2
  let d3 := d.getLsbD 3
  let p0 := d0 ^^ d1 ^^ d3
  let p1 := d0 ^^ d2 ^^ d3
  let p2 := d1 ^^ d2 ^^ d3
  BitVec.ofBoolListLE [p0, p1, d0, p2, d1, d2, d3]

/-- SYND (R128): the syndrome S = s0 + 2·s1 + 4·s2. -/
def synd (r : Codeword) : Nat :=
  let s0 := r.getLsbD 0 ^^ r.getLsbD 2 ^^ r.getLsbD 4 ^^ r.getLsbD 6
  let s1 := r.getLsbD 1 ^^ r.getLsbD 2 ^^ r.getLsbD 5 ^^ r.getLsbD 6
  let s2 := r.getLsbD 3 ^^ r.getLsbD 4 ^^ r.getLsbD 5 ^^ r.getLsbD 6
  s0.toNat + 2 * s1.toNat + 4 * s2.toNat

/-- A word with its bit j (0-based) flipped. -/
def flipBit (c : Codeword) (j : Nat) : Codeword := c ^^^ (1#7 <<< j)

/-- HDEC7 (R130): the data bits after flipping the position the syndrome names, and the block's flag. -/
def hdec7 (r : Codeword) : Nibble × Bool :=
  let x := synd r
  let r' := if x ≠ 0 then flipBit r (x - 1) else r
  (BitVec.ofBoolListLE [r'.getLsbD 2, r'.getLsbD 4, r'.getLsbD 5, r'.getLsbD 6], decide (x ≠ 0))

/-- XORSHIFT32 (R131). -/
def xorshift32 (x : Word) : Word :=
  let x := x ^^^ (x <<< 13)
  let x := x ^^^ (x >>> 17)
  x ^^^ (x <<< 5)

/-- The loop of NOISE_SELECT (R132) from position p on, `left` = T − p positions before the end. -/
def noiseFrom : (left p : Nat) → (x : Word) → (need : Nat) → List Nat
  | 0, _, _, _ => []
  | left + 1, p, x, need =>
    let x := xorshift32 x
    let u := (x.toNat * (left + 1)) >>> 32
    if u < need then p :: noiseFrom left (p + 1) x (need - 1)
    else noiseFrom left (p + 1) x need

/-- NOISE_SELECT (R132): the positions to flip, in ascending order. -/
def noiseSelect (seed : Word) (total count : Nat) : List Nat := noiseFrom total 0 seed count

/-- Flips position p of the flat bit space: bit p mod 7 of codeword ⌊p/7⌋ (R134). -/
def flipFlat (cs : List Codeword) (p : Nat) : List Codeword := cs.modify (p / 7) fun c => flipBit c (p % 7)

/-! ### Commands -/

/-- HAM_ENCODE's outcome (R135). -/
def hamEncode (s : State) : CommandResult :=
  let len := s.regs.hufLen.toNat
  if s.params.bitCap < len then .error .capacity s
  else
    let m := (len + 3) / 4
    let bits := s.hufBits
    .success { s with
      regs := { s.regs with cwCnt := BitVec.ofNat 32 m }
      bufs := { s.bufs with cwBuf := s.bufs.cwBuf.setSeq 0 ((List.range m).map fun g => henc4 (groupOf bits g)) } }

/-- HAM_ENCODE (R135). -/
def execHamEncode (s : State) : Host.Outcome State Fault Refusal := finish (hamEncode s)

/-- INJECT_NOISE's outcome (R136). -/
def injectNoise (s : State) : CommandResult :=
  let m := s.regs.cwCnt.toNat
  let total := 7 * m
  let count := s.regs.noiseCnt.toNat
  if s.params.blkCap < m then .error .capacity s
  else if total < count then .error .invalidInput s
  else
    let noisy := (noiseSelect s.regs.noiseSeed total count).foldl flipFlat s.codewords
    .success { s with
      regs := { s.regs with rxCnt := s.regs.cwCnt }
      bufs := { s.bufs with rxBuf := s.bufs.rxBuf.setSeq 0 noisy } }

/-- INJECT_NOISE (R136). -/
def execInjectNoise (s : State) : Host.Outcome State Fault Refusal := finish (injectNoise s)

/-- HAM_DECODE's outcome (R137). -/
def hamDecode (s : State) : CommandResult :=
  let m := s.regs.rxCnt.toNat
  if s.params.blkCap < m then .error .capacity s
  else
    let blocks := s.received.map hdec7
    .success { s with
      regs := { s.regs with
        datLen := BitVec.ofNat 32 (4 * m)
        errCount := BitVec.ofNat 32 (blocks.countP Prod.snd) }
      bufs := { s.bufs with
        datBuf := s.bufs.datBuf.setSeq 0 (blocks.flatMap fun b => nibbleBits b.1)
        eflagBuf := s.bufs.eflagBuf.setSeq 0 (blocks.map Prod.snd) } }

/-- HAM_DECODE (R137). -/
def execHamDecode (s : State) : Host.Outcome State Fault Refusal := finish (hamDecode s)

end Sys2Proof.Machine
end

