-- ==== Sys2Proof/Machine/Huffman.lean ====
section
/-! DEFINITION. The Huffman family (41_huffman.md): BUILD_CODES, HUF_ENCODE, DECOMPRESS. -/

namespace Sys2Proof.Machine

/-! ### Frequencies and the tree -/

/-- FREQ (R110): how often symbol value s occurs in a text. -/
def freq (text : List Symbol) (s : Nat) : Nat := text.count (BitVec.ofNat 8 s)

/-- A node of the encoding tree (R17, R111): its weight, its sequence number, and its symbol or its children. -/
inductive HuffTree where
  | leaf (weight seq : Nat) (symbol : Symbol)
  | node (weight seq : Nat) (left right : HuffTree)
  deriving DecidableEq, Repr

/-- The weight of a node. -/
def HuffTree.weight : HuffTree → Nat
  | .leaf w _ _ => w
  | .node w _ _ _ => w

/-- The sequence number of a node. -/
def HuffTree.seq : HuffTree → Nat
  | .leaf _ n _ => n
  | .node _ n _ _ => n

/-- Node x precedes node y: (weight, seq) lexicographically (R112). -/
def HuffTree.precedes (x y : HuffTree) : Bool :=
  decide (x.weight < y.weight) || (x.weight == y.weight && decide (x.seq < y.seq))

/-- The leaves for the symbol values listed, sequence numbers from n on (R111). -/
def leavesFrom (f : Nat → Nat) : List Nat → Nat → List HuffTree
  | [], _ => []
  | s :: rest, n =>
    if 0 < f s then .leaf (f s) n (BitVec.ofNat 8 s) :: leavesFrom f rest (n + 1) else leavesFrom f rest n

/-- The leaves of R111: one for each symbol that occurs, in ascending symbol value. -/
def leaves (f : Nat → Nat) : List HuffTree := leavesFrom f (List.range alphabet) 0

/-- Adds a node to a pool kept in the order of R112. DEDUCED, unsafe: log 10. -/
def insertNode (c : HuffTree) : List HuffTree → List HuffTree
  | [] => [c]
  | x :: xs => if c.precedes x then c :: x :: xs else x :: insertNode c xs

/-- The loop of R112, run `steps` times: the first two nodes of the pool become the left and the right child of a new
node. -/
def mergePool : (steps next : Nat) → List HuffTree → List HuffTree
  | steps + 1, next, a :: b :: rest =>
    mergePool steps (next + 1) (insertNode (.node (a.weight + b.weight) next a b) rest)
  | _, _, pool => pool

/-- BUILD_TREE (R112): none when no symbol occurs. -/
def buildTree (f : Nat → Nat) : Option HuffTree :=
  let ls := leaves f
  (mergePool (ls.length - 1) ls.length (ls.foldr insertNode [])).head?

/-- Every leaf's symbol with the path to it, appended to p: 0 for left, 1 for right (R113). -/
def HuffTree.paths : HuffTree → Bits → CodeTable
  | .leaf _ _ x, p => [(x, p)]
  | .node _ _ l r, p => l.paths (p ++ [false]) ++ r.paths (p ++ [true])

/-- DERIVE_CODES (R113): the code of each symbol of the tree; "0" for a tree of one leaf (R114). -/
def deriveCodes : HuffTree → CodeTable
  | .leaf _ _ x => [(x, [false])]
  | .node w n l r => (HuffTree.node w n l r).paths []

/-- The codes of a text: R110 to R114 in turn. -/
def codesOfText (text : List Symbol) : CodeTable :=
  match buildTree (freq text) with
  | some t => deriveCodes t
  | none => []

/-! ### Writing a table to CT -/

/-- LEN of symbol value k (R113). -/
def lenField (t : CodeTable) (k : Nat) : BitVec 8 := BitVec.ofNat 8 ((codeOf t (BitVec.ofNat 8 k)).getD []).length

/-- Word i of the BITS fields: bits 32·(i mod 8) on of the code of symbol value ⌊i/8⌋, 0 past its end (R83, R113). -/
def bitsField (t : CodeTable) (i : Nat) : Word :=
  packBits ((((codeOf t (BitVec.ofNat 8 (i / 8))).getD []).drop (32 * (i % 8))).take 32)

/-- Writes all 256 entries of CT (R113). -/
def writeTable (t : CodeTable) (b : Buffers) : Buffers :=
  { b with ctLen := b.ctLen.setAll 256 (lenField t), ctBits := b.ctBits.setAll 2048 (bitsField t) }

/-! ### Streams -/

/-- The codes of a text's symbols, concatenated in order. -/
def concatCodes (t : CodeTable) (text : List Symbol) : Bits := text.flatMap fun x => (codeOf t x).getD []

/-- ENCODE_STREAM (R115) from a partial output on. -/
def encodeFrom (bitCap : Nat) (t : CodeTable) : List Symbol → Bits → Except ErrorCode Bits
  | [], out => .ok out
  | x :: rest, out =>
    match codeOf t x with
    | none => .error .unknownSymbol
    | some c => if bitCap < out.length + c.length then .error .capacity else encodeFrom bitCap t rest (out ++ c)

/-- ENCODE_STREAM (R115). -/
def encodeStream (bitCap : Nat) (t : CodeTable) (text : List Symbol) : Except ErrorCode Bits :=
  encodeFrom bitCap t text []

/-- PREFIX_FREE (R116): no code is a prefix of the code of another symbol. -/
def prefixFree (t : CodeTable) : Bool := t.all fun a => t.all fun b => a.1 == b.1 || !(a.2.isPrefixOf b.2)

/-- The symbol whose code is exactly buf, if there is one (R117). -/
def matchCode (t : CodeTable) (buf : Bits) : Option Symbol := (t.find? fun a => a.2 == buf).map Prod.fst

/-- DECODE_STREAM (R117) from a partial buffer and output on. -/
def decodeFrom (outCap : Nat) (t : CodeTable) : Bits → Bits → List Symbol → Except ErrorCode (List Symbol)
  | [], buf, out => if buf = [] then .ok out else .error .corruptStream
  | b :: rest, buf, out =>
    match matchCode t (buf ++ [b]) with
    | none => decodeFrom outCap t rest (buf ++ [b]) out
    | some x => if out.length = outCap then .error .capacity else decodeFrom outCap t rest [] (out ++ [x])

/-- DECODE_STREAM (R117). -/
def decodeStream (outCap : Nat) (t : CodeTable) (bits : Bits) : Except ErrorCode (List Symbol) :=
  decodeFrom outCap t bits [] []

/-! ### Commands -/

/-- BUILD_CODES's outcome (R119). ENCODE_STREAM cannot fail here (R124), so its stream is the concatenation of the
codes. DEDUCED, unsafe: log 9. -/
def buildCodes (s : State) : CommandResult :=
  let n := s.regs.symLen.toNat
  if s.params.textCap < n then .error .capacity s
  else if n = 0 then .error .invalidInput s
  else
    let t := codesOfText s.text
    let bits := concatCodes t s.text
    let bufs := writeTable t s.bufs
    .success { s with
      regs := { s.regs with
        hufLen := BitVec.ofNat 32 bits.length
        nSymbols := BitVec.ofNat 32 (leaves (freq s.text)).length }
      bufs := { bufs with
        freqBuf := s.bufs.freqBuf.setAll 256 fun k => BitVec.ofNat 32 (freq s.text k)
        hufBuf := s.bufs.hufBuf.setSeq 0 bits }
      status := { s.status with codesValid := true } }

/-- BUILD_CODES (R119). -/
def execBuildCodes (s : State) : Host.Outcome State Fault Refusal := finish (buildCodes s)

/-- HUF_ENCODE's outcome (R120). -/
def hufEncode (s : State) : CommandResult :=
  if s.params.textCap < s.regs.symLen.toNat then .error .capacity s
  else
    match encodeStream s.params.bitCap s.bufs.codeTable s.text with
    | .error e => .error e s.spoilHuf
    | .ok bits =>
      .success { s with
        regs := { s.regs with hufLen := BitVec.ofNat 32 bits.length }
        bufs := { s.bufs with hufBuf := s.bufs.hufBuf.setSeq 0 bits } }

/-- HUF_ENCODE (R120). -/
def execHufEncode (s : State) : Host.Outcome State Fault Refusal := finish (hufEncode s)

/-- DECOMPRESS's outcome on an input Bitstring and the length register it stands in (R121). -/
def decompress (len : Word) (bits : Bits) (s : State) : CommandResult :=
  if s.params.bitCap < len.toNat then .error .capacity s
  else if prefixFree s.bufs.codeTable then
    match decodeStream s.params.outCap s.bufs.codeTable bits with
    | .error e => .error e s.spoilOut
    | .ok text =>
      .success { s with
        regs := { s.regs with outLen := BitVec.ofNat 32 text.length }
        bufs := { s.bufs with outBuf := s.bufs.outBuf.setSeq 0 text } }
  else .error .ambiguousCode s

/-- DECOMPRESS with SRC = 0 (R92, R121): the input is HUF_BUF[0 .. HUF_LEN−1]. -/
def execDecompressSrc0 (s : State) : Host.Outcome State Fault Refusal := finish (decompress s.regs.hufLen s.hufBits s)

/-- DECOMPRESS with SRC = 1 (R92, R121): the input is DAT_BUF[0 .. DAT_LEN−1]. -/
def execDecompressSrc1 (s : State) : Host.Outcome State Fault Refusal := finish (decompress s.regs.datLen s.datBits s)

end Sys2Proof.Machine
end

