-- ==== Sys2Proof/Machine/Lifecycle.lean ====
section
/-! DEFINITION. NOP (40_command.md R106). -/

namespace Sys2Proof.Machine

/-- NOP (R106): success with no writes. -/
def execNop (s : State) : Host.Outcome State Fault Refusal := finish (.success s)

end Sys2Proof.Machine
end

