-- ==== Sys2Proof/Machine/Dispatch.lean ====
section
/-! DEFINITION. The meaning of each command: the completion step of the command, from the state at which it is taken
(40_command.md R101, R102). One arm for each constructor of `Instr`. -/

namespace Sys2Proof.Machine

def exec (i : Instr) (s : State) : Host.Outcome State Fault Refusal :=
  match i with
  | .nop => Sys2Proof.Machine.execNop s
  | .buildCodes => Sys2Proof.Machine.execBuildCodes s
  | .hufEncode => Sys2Proof.Machine.execHufEncode s
  | .decompressSrc0 => Sys2Proof.Machine.execDecompressSrc0 s
  | .decompressSrc1 => Sys2Proof.Machine.execDecompressSrc1 s
  | .hamEncode => Sys2Proof.Machine.execHamEncode s
  | .injectNoise => Sys2Proof.Machine.execInjectNoise s
  | .hamDecode => Sys2Proof.Machine.execHamDecode s

end Sys2Proof.Machine
end

