-- ==== Sys2Proof/Machine/HostPort.lean ====
section
/-! DEFINITION. The host port (20_memory.md): the register and address maps, MemRead and MemWrite, idle and while a
command runs. -/

namespace Sys2Proof.Machine

/-- The registers the host reaches (R20). -/
inductive Reg where
  | id | capText | capOut | capBits | capBlks
  | cmd | status | irqEnable | irqStatus
  | symLen | hufLen | cwCnt | rxCnt | datLen | outLen | errCount | noiseCnt | noiseSeed | nSymbols
  deriving DecidableEq, Repr

/-- What a mapped word is (R76): a register, or a word of a buffer's window. -/
inductive Location where
  | reg (r : Reg)
  /-- FREQ_BUF[s]. -/
  | freq (s : Nat)
  /-- The LEN word of CT entry s. -/
  | ctLen (s : Nat)
  /-- Bits 32k to 32k+31 of BITS[s]. -/
  | ctBits (s k : Nat)
  /-- Word k of a window, counted from the window's base. -/
  | sym (k : Nat)
  | out (k : Nat)
  | huf (k : Nat)
  | dat (k : Nat)
  | cw (k : Nat)
  | rx (k : Nat)
  | eflag (k : Nat)
  deriving DecidableEq, Repr

/-- The register at a byte offset (R20); every other offset below 0x1000 is reserved (R47). -/
def regAt : Nat → Option Reg
  | 0x000 => some .id
  | 0x004 => some .capText
  | 0x008 => some .capOut
  | 0x00C => some .capBits
  | 0x010 => some .capBlks
  | 0x020 => some .cmd
  | 0x024 => some .status
  | 0x028 => some .irqEnable
  | 0x02C => some .irqStatus
  | 0x040 => some .symLen
  | 0x044 => some .hufLen
  | 0x048 => some .cwCnt
  | 0x04C => some .rxCnt
  | 0x050 => some .datLen
  | 0x054 => some .outLen
  | 0x058 => some .errCount
  | 0x05C => some .noiseCnt
  | 0x060 => some .noiseSeed
  | 0x064 => some .nSymbols
  | _ => none

/-- The word at an offset of the CT window: 64 bytes an entry, LEN at 0, BITS at 4 to 0x20, the rest unmapped (R83). -/
def ctAt (offset : Nat) : Option Location :=
  let s := offset / 64
  let o := offset % 64
  if o = 0 then some (.ctLen s)
  else if o ≤ 0x20 then some (.ctBits s (o / 4 - 1))
  else none

/-- The word at an address of the first 64 KiB: registers, FREQ_BUF and CT (R76). -/
def lowAt (a : Nat) : Option Location :=
  if a < 0x1000 then (regAt a).map .reg
  else if a < 0x1400 then some (.freq ((a - 0x1000) / 4))
  else if a < 0x4000 then none
  else if a < 0x8000 then ctAt (a - 0x4000)
  else none

/-- Word `offset / 4` of a window, when the offset is inside the size used (R76). -/
def windowAt (used offset : Nat) (loc : Nat → Location) : Option Location :=
  if offset < used then some (loc (offset / 4)) else none

/-- The address map (R76): what an aligned byte address names, none where it is unmapped. -/
def locate (p : Params) (a : Nat) : Option Location :=
  let offset := a % 0x10000
  match a / 0x10000 with
  | 0 => lowAt a
  | 1 => windowAt p.textCap offset .sym
  | 2 => windowAt p.outCap offset .out
  | 3 => windowAt (p.bitCap / 8) offset .huf
  | 4 => windowAt (p.bitCap / 8) offset .dat
  | 5 => windowAt p.blkCap offset .cw
  | 6 => windowAt p.blkCap offset .rx
  | 7 => windowAt (p.blkCap / 8) offset .eflag
  | _ => none

/-- The value of a register (R21 to R46). -/
def readReg (r : Reg) (s : State) : Word :=
  match r with
  | .id => idValue
  | .capText => BitVec.ofNat 32 s.params.textCap
  | .capOut => BitVec.ofNat 32 s.params.outCap
  | .capBits => BitVec.ofNat 32 s.params.bitCap
  | .capBlks => BitVec.ofNat 32 s.params.blkCap
  | .cmd => s.cmd
  | .status => s.status.word
  | .irqEnable => s.irqEnable.setWidth 32
  | .irqStatus => s.irqStatus.setWidth 32
  | .symLen => s.regs.symLen
  | .hufLen => s.regs.hufLen
  | .cwCnt => s.regs.cwCnt
  | .rxCnt => s.regs.rxCnt
  | .datLen => s.regs.datLen
  | .outLen => s.regs.outLen
  | .errCount => s.regs.errCount
  | .noiseCnt => s.regs.noiseCnt
  | .noiseSeed => s.regs.noiseSeed
  | .nSymbols => s.regs.nSymbols

/-- The word at a mapped location while no command runs (R20, R78 to R83). -/
def readLocation (l : Location) (s : State) : Word :=
  match l with
  | .reg r => readReg r s
  | .freq k => s.bufs.freqBuf.get k
  | .ctLen k => (s.bufs.ctLen.get k).setWidth 32
  | .ctBits k j => s.bufs.ctBits.get (8 * k + j)
  | .sym k => symbolWord s.bufs.symBuf k
  | .out k => symbolWord s.bufs.outBuf k
  | .huf k => bitWord s.bufs.hufBuf k
  | .dat k => bitWord s.bufs.datBuf k
  | .cw k => codewordWord s.bufs.cwBuf k
  | .rx k => codewordWord s.bufs.rxBuf k
  | .eflag k => bitWord s.bufs.eflagBuf k

/-- A host write of a register while no command runs (R26, R34 to R46, R67). -/
def writeReg (r : Reg) (v : Word) (s : State) : State :=
  match r with
  | .id => s
  | .capText => s
  | .capOut => s
  | .capBits => s
  | .capBlks => s
  | .cmd => s.accept v
  | .status => s
  | .irqEnable => s.writeIrqEnable v
  | .irqStatus => s.writeIrqStatus v
  | .symLen => { s with regs := { s.regs with symLen := v } }
  | .hufLen => { s with regs := { s.regs with hufLen := v } }
  | .cwCnt => { s with regs := { s.regs with cwCnt := v } }
  | .rxCnt => { s with regs := { s.regs with rxCnt := v } }
  | .datLen => { s with regs := { s.regs with datLen := v } }
  | .outLen => s
  | .errCount => s
  | .noiseCnt => { s with regs := { s.regs with noiseCnt := v } }
  | .noiseSeed => { s with regs := { s.regs with noiseSeed := v } }
  | .nSymbols => s

/-- A host write of a mapped location while no command runs (R67, R69, R70). -/
def writeLocation (l : Location) (v : Word) (s : State) : State :=
  match l with
  | .reg r => writeReg r v s
  | .freq _ => s
  | .ctLen k => { s with bufs := { s.bufs with ctLen := s.bufs.ctLen.set k (v.setWidth 8) } }.clearCodesValid
  | .ctBits k j => { s with bufs := { s.bufs with ctBits := s.bufs.ctBits.set (8 * k + j) v } }.clearCodesValid
  | .sym k => { s with bufs := { s.bufs with symBuf := setSymbolWord s.bufs.symBuf k v } }
  | .out _ => s
  | .huf k => { s with bufs := { s.bufs with hufBuf := setBitWord s.bufs.hufBuf k v } }
  | .dat k => { s with bufs := { s.bufs with datBuf := setBitWord s.bufs.datBuf k v } }
  | .cw k => { s with bufs := { s.bufs with cwBuf := setCodewordWord s.bufs.cwBuf k v } }
  | .rx k => { s with bufs := { s.bufs with rxBuf := setCodewordWord s.bufs.rxBuf k v } }
  | .eflag _ => s

/-- The registers that read their true value while a command runs (R72). -/
def readableWhileBusy : Location → Bool
  | .reg .id | .reg .capText | .reg .capOut | .reg .capBits | .reg .capBlks => true
  | .reg .cmd | .reg .status | .reg .irqEnable | .reg .irqStatus => true
  | _ => false

/-- The registers a host write reaches while a command runs (R71). -/
def writableWhileBusy : Location → Bool
  | .reg .irqEnable | .reg .irqStatus => true
  | _ => false

/-- Only aligned accesses of 4 bytes exist (R65). -/
def accessAllowed (a : Addr) (size : Nat) : Bool := size == 4 && a.toNat % 4 == 0

/-- The state with the answer of a transaction at the port. -/
def State.answer (r : Response) (data : Option Word) (s : State) : State := { s with reply := some ⟨r, data⟩ }

/-- The word a host access reaches: none where the port refuses it (R65, R66). -/
def reaches (a : Addr) (size : Nat) (s : State) : Option Location :=
  if accessAllowed a size then locate s.params a.toNat else none

/-- `MemRead(a, size)` (R65, R66, R68, R72). A read of data while a command runs takes a fresh UNSPEC draw, all 32 bits
of it: R70 has the reserved bits of a CT LEN, CW_BUF or RX_BUF word read 0, and R72 has the word UNSPEC. DESIGN CHOICE,
safe: log 16. -/
def hostRead (a : Addr) (size : Nat) (s : State) : State :=
  match reaches a size s with
  | none => s.answer .error (some 0#32)
  | some l =>
    if s.status.busy && !readableWhileBusy l then
      { s with draws := s.draws + 1 }.answer .okay (some (Config.free s.draws 0))
    else s.answer .okay (some (readLocation l s))

/-- `MemWrite(a, size, v)` (R65 to R67, R69, R71). -/
def hostWrite (a : Addr) (size : Nat) (v : Word) (s : State) : State :=
  match reaches a size s with
  | none => s.answer .error none
  | some l =>
    if s.status.busy && !writableWhileBusy l then s.noteDrop.answer .okay none
    else (writeLocation l v s).answer .okay none

end Sys2Proof.Machine
end

