-- ==== Sys2Proof/Machine/Engine.lean ====
section
/-! DEFINITION. The turns of the three agents (10_state.md R19): which command the engine runs (R59, R62), and what each
turn does. -/

namespace Sys2Proof.Machine

/-- The engine's step, taken while a command runs (R101, R102): the word in CMD decides the command; an illegal word
completes with BAD_COMMAND (R89, R149). -/
def runCommand (s : State) : Host.Outcome State Fault Refusal :=
  match decode s.cmd with
  | .ok i => exec i s
  | .error _ => badCommand s

/-- The engine's turn: its step is enabled only while STATUS.BUSY = 1 (R19, R102). -/
def engineTurn (s : State) : Host.Outcome State Fault Refusal :=
  if s.status.busy then runCommand s else .next s

/-- What one turn does (R19, R74). -/
def takeTurn (e : Event) (s : State) : Host.Outcome State Fault Refusal :=
  match e with
  | .memRead a size => .next (hostRead a size s)
  | .memWrite a size v => .next (hostWrite a size v s)
  | .complete => engineTurn s
  | .reset => .next s.takeReset

/-- The next turn: the first one listed, or, when none is, the engine's (R172); an idle block with nothing listed stays
as it is (R163). -/
def nextTurn (s : State) : Host.Outcome State Fault Refusal :=
  match s.agenda with
  | [] => engineTurn s
  | e :: rest => takeTurn e { s with agenda := rest }

/-- The state in which a command word has been accepted (R100) and the engine's turn is next. -/
def State.launch (w : Word) (s : State) : State :=
  { s.accept w with agenda := .complete :: s.agenda }

end Sys2Proof.Machine
end

