-- ==== Sys2Proof/Machine/Step.lean ====
section
/-! DEFINITION. One step of the block: the next turn (10_state.md R19; 20_memory.md R74). -/

namespace Sys2Proof.Machine

/-- One step. -/
def step (s : State) : Host.Outcome State Fault Refusal := Sys2Proof.Machine.nextTurn s

/-- The state whose next step runs the instruction with the bits `w`: the word is accepted as a host write to CMD
accepts it (R100) and the engine's turn is next. DESIGN CHOICE, safe: log 8. -/
def State.withFetchWord (s : State) (nbits w : Nat) : State := s.launch (tableWord nbits w)

end Sys2Proof.Machine
end

