-- ==== Sys2Proof/Machine/HostProgram.lean ====
section
/-! DEFINITION. The host-program notation (30_encoding.md R96 to R99) as lists of turns. -/

namespace Sys2Proof.Machine

/-- The host-port address of a register (R20). -/
def regAddr : Reg → Addr
  | .id => 0x000#19
  | .capText => 0x004#19
  | .capOut => 0x008#19
  | .capBits => 0x00C#19
  | .capBlks => 0x010#19
  | .cmd => 0x020#19
  | .status => 0x024#19
  | .irqEnable => 0x028#19
  | .irqStatus => 0x02C#19
  | .symLen => 0x040#19
  | .hufLen => 0x044#19
  | .cwCnt => 0x048#19
  | .rxCnt => 0x04C#19
  | .datLen => 0x050#19
  | .outLen => 0x054#19
  | .errCount => 0x058#19
  | .noiseCnt => 0x05C#19
  | .noiseSeed => 0x060#19
  | .nSymbols => 0x064#19

/-- `WR a, v` (R96). -/
def progWr (a : Addr) (v : Word) : List Event := [.memWrite a 4 v]

/-- `RD a -> v` (R96): the read; the expected result is a check, not an effect. -/
def progRd (a : Addr) : List Event := [.memRead a 4]

/-- `CMD m` (R96). -/
def progCmd (i : Instr) : List Event := progWr (regAddr .cmd) (encode i)

/-- `POLL` (R97), as the turns it takes when the engine completes after `n` reads of STATUS: the last read sees
BUSY = 0. The engine's turn changes nothing when no command runs. -/
def progPoll (n : Nat) : List Event :=
  List.replicate n (.memRead (regAddr .status) 4) ++ [.complete, .memRead (regAddr .status) 4]

/-- `RUN m` (R98), with `n` and `k` reads before the two completions. -/
def progRun (n k : Nat) (i : Instr) : List Event := progPoll n ++ progCmd i ++ progPoll k

/-- Element k of a text as a byte, 0 past its end (R99). -/
def textByte (text : List Symbol) (k : Nat) : BitVec 8 := text.getD k 0#8

/-- `TEXT "s"` (R99). -/
def progText (text : List Symbol) : List Event :=
  ((List.range ((text.length + 3) / 4)).flatMap fun k =>
      progWr (BitVec.ofNat 19 (0x10000 + 4 * k))
        (packBytes (textByte text (4 * k)) (textByte text (4 * k + 1)) (textByte text (4 * k + 2))
          (textByte text (4 * k + 3)))) ++
    progWr (regAddr .symLen) (BitVec.ofNat 32 text.length)

/-- The word writes of `BITS B, "b0b1…"` at a window's base (R99); bits past the string are 0. -/
def progBitWords (base : Nat) (bits : Bits) : List Event :=
  (List.range ((bits.length + 31) / 32)).flatMap fun k =>
    progWr (BitVec.ofNat 19 (base + 4 * k)) (packBits ((bits.drop (32 * k)).take 32))

/-- `BITS HUF, "b0b1…"` (R99). -/
def progBitsHuf (bits : Bits) : List Event :=
  progBitWords 0x30000 bits ++ progWr (regAddr .hufLen) (BitVec.ofNat 32 bits.length)

/-- `BITS DAT, "b0b1…"` (R99). -/
def progBitsDat (bits : Bits) : List Event :=
  progBitWords 0x40000 bits ++ progWr (regAddr .datLen) (BitVec.ofNat 32 bits.length)

end Sys2Proof.Machine
end

