-- ==== Sys2Proof/WellFormed.lean ====
section
/-! DEFINITION. What is well formed: the capacity parameters (00_scope.md R11) and the command words (30_encoding.md R89).
A term of `Instr` has no field, so every one of them is well formed; what can be ill formed is the word. -/

namespace Sys2Proof

/-- The legal values of R11: TEXT_CAP a multiple of 16 from 16 to 32768, OUT_CAP a multiple of 4 from 4 to 65536. -/
def Params.legal (p : Params) : Bool :=
  p.textCap % 16 == 0 && decide (16 ≤ p.textCap) && decide (p.textCap ≤ 32768) &&
  p.outCap % 4 == 0 && decide (4 ≤ p.outCap) && decide (p.outCap ≤ 65536)

/-- R89: OP = w[3:0] is in 0x0..0x6, w[7:4] = 0, w[31:9] = 0, and w[8] = 0 unless OP = 0x3. -/
def legalWord (w : Word) : Bool :=
  decide ((w.extractLsb' 0 4).toNat ≤ 6) &&
  w.extractLsb' 4 4 == 0#4 &&
  w.extractLsb' 9 23 == 0#23 &&
  (w.getLsbD 8 == false || w.extractLsb' 0 4 == 3#4)

end Sys2Proof
end

