-- ==== Sys2Proof/Safety.lean ====
section
/-! DEFINITION. What a safe state and a safe run are, in the terms the statements use: the invariants of the state, and
what a completion leaves. -/

namespace Sys2Proof.Machine

/-! ### Invariants -/

/-- Every buffer is in canonical form. -/
structure Buffers.Canonical (b : Buffers) : Prop where
  freqBuf : b.freqBuf.wf
  ctLen : b.ctLen.wf
  ctBits : b.ctBits.wf
  symBuf : b.symBuf.wf
  outBuf : b.outBuf.wf
  hufBuf : b.hufBuf.wf
  datBuf : b.datBuf.wf
  cwBuf : b.cwBuf.wf
  rxBuf : b.rxBuf.wf
  eflagBuf : b.eflagBuf.wf

/-- Every buffer holds only the elements its capacity gives it (R11, R48). -/
structure Buffers.InBounds (p : Params) (b : Buffers) : Prop where
  freqBuf : b.freqBuf.within 256
  ctLen : b.ctLen.within 256
  ctBits : b.ctBits.within 2048
  symBuf : b.symBuf.within p.textCap
  outBuf : b.outBuf.within p.outCap
  hufBuf : b.hufBuf.within p.bitCap
  datBuf : b.datBuf.within p.bitCap
  cwBuf : b.cwBuf.within p.blkCap
  rxBuf : b.rxBuf.within p.blkCap
  eflagBuf : b.eflagBuf.within p.blkCap

/-- The draws the buffers refer to. -/
def Buffers.drawList (b : Buffers) : List Nat :=
  [b.freqBuf.draw, b.ctLen.draw, b.ctBits.draw, b.symBuf.draw, b.outBuf.draw, b.hufBuf.draw, b.datBuf.draw,
    b.cwBuf.draw, b.rxBuf.draw, b.eflagBuf.draw]

/-- No two buffers share a draw, and every later draw is a new one (R58, R152: each element is a draw of its own). -/
def State.DrawsFresh (s : State) : Prop := s.bufs.drawList.Nodup ∧ ∀ d ∈ s.bufs.drawList, d < s.draws

/-- How the fields of STATUS and CMD hang together (R28 to R33): LAST_OP is CMD[3:0], ERR tells whether ERRCODE is not
NONE, and while a command runs neither DONE nor ERR is set. -/
structure State.StatusCoherent (s : State) : Prop where
  lastOp : s.status.lastOp = opField s.cmd
  err : s.status.err = s.status.errCode.isSome
  busy : s.status.busy = true → s.status.done = false ∧ s.status.err = false

/-- While CODES_VALID = 1 the table in CT is prefix-free (R31, R122). -/
def State.CodesSound (s : State) : Prop := s.status.codesValid = true → prefixFree s.bufs.codeTable = true

/-- The state of a sound block: legal capacities, buffers in canonical form and inside their capacities, draws of their
own, coherent STATUS, and a sound code table. -/
structure State.Sound (s : State) : Prop where
  params : s.params.legal = true
  canonical : s.bufs.Canonical
  inBounds : s.bufs.InBounds s.params
  draws : s.DrawsFresh
  status : s.StatusCoherent
  codes : s.CodesSound

/-! ### What a completion leaves -/

/-- `t` is `s` after a completion step with outcome `e`, as far as STATUS but CODES_VALID, IRQ_STATUS and the state no
command touches go (R102, R105). -/
structure Completed (s t : State) (e : Option ErrorCode) : Prop where
  busy : t.status.busy = false
  done : t.status.done = true
  err : t.status.err = e.isSome
  errCode : t.status.errCode = e
  lastOp : t.status.lastOp = s.status.lastOp
  doneEv : t.irqStatus.getLsbD 0 = true
  errEv : t.irqStatus.getLsbD 1 = (s.irqStatus.getLsbD 1 || e.isSome)
  dropEv : t.irqStatus.getLsbD 2 = s.irqStatus.getLsbD 2
  cmd : t.cmd = s.cmd
  irqEnable : t.irqEnable = s.irqEnable
  params : t.params = s.params
  agenda : t.agenda = s.agenda
  reply : t.reply = s.reply

/-- `t` is `s` after a command that changed no register, no buffer element and no CODES_VALID: NOP, or a check-phase
error (R106, R151). -/
structure CompletedUnchanged (s t : State) (e : Option ErrorCode) : Prop where
  completed : Completed s t e
  codesValid : t.status.codesValid = s.status.codesValid
  regs : t.regs = s.regs
  bufs : t.bufs = s.bufs
  draws : t.draws = s.draws

/-! ### Safe runs -/

/-- A run is safe while every state is sound: no rule stops the block, so nothing else can go wrong. -/
def SafeRun (k : Nat) (s : State) : Prop := ∀ n ≤ k, ∀ t, Sys2Proof.core.run n s = .next t → State.Sound t

end Sys2Proof.Machine
end

