-- ==== Sys2Proof/Certificates/Slice0/Obligations.lean ====
section
/-! DEFINITION. The statements for the provers, from the numbered rules of the spec. No statement rests on what value a
free value (`Config.free`) has. -/

open Sys2Proof Sys2Proof.Machine

namespace Sys2Proof.Machine

/-! ### Terms the statements use -/

/-- The engine takes the next turn and `rest` is what is listed after it: its completion is listed first, or nothing is
listed (R19, R172; log 5). -/
def EngineNext (s : State) (rest : List Event) : Prop :=
  s.agenda = .complete :: rest ∨ (s.agenda = [] ∧ rest = [])

/-- LEN[x] as a number (R51). -/
def codeLen (b : Buffers) (x : Symbol) : Nat := (b.ctLen.get x.toNat).toNat

/-- The prefix-free property of R116 on CT, over all ordered pairs of symbols. -/
def CtPrefixFree (b : Buffers) : Prop :=
  ∀ x y : Symbol, x ≠ y → 1 ≤ codeLen b x → 1 ≤ codeLen b y → ¬ b.code x <+: b.code y

/-- The registers a host may write and read back (R20: RW). -/
def readWriteRegs : List Reg := [.symLen, .hufLen, .cwCnt, .rxCnt, .datLen, .noiseCnt, .noiseSeed]

/-- The read-only registers (R67). -/
def readOnlyRegs : List Reg :=
  [.id, .capText, .capOut, .capBits, .capBlks, .status, .outLen, .errCount, .nSymbols]

/-- R20's registers below 0x040, each address with the word it reads: the constants (R21 to R25), CMD, STATUS, and
IRQ_ENABLE and IRQ_STATUS in bits [2:0]. -/
def controlTable (s : State) : List (Addr × Word) :=
  [(0x000#19, 0x48430100#32), (0x004#19, BitVec.ofNat 32 s.params.textCap), (0x008#19, BitVec.ofNat 32 s.params.outCap),
    (0x00C#19, BitVec.ofNat 32 (8 * s.params.textCap)), (0x010#19, BitVec.ofNat 32 (2 * s.params.textCap)),
    (0x020#19, s.cmd), (0x024#19, s.status.word), (0x028#19, s.irqEnable.setWidth 32),
    (0x02C#19, s.irqStatus.setWidth 32)]

/-- R20's registers from 0x040 to 0x064, each address with the word it reads. -/
def dataTable (s : State) : List (Addr × Word) :=
  [(0x040#19, s.regs.symLen), (0x044#19, s.regs.hufLen), (0x048#19, s.regs.cwCnt), (0x04C#19, s.regs.rxCnt),
    (0x050#19, s.regs.datLen), (0x054#19, s.regs.outLen), (0x058#19, s.regs.errCount), (0x05C#19, s.regs.noiseCnt),
    (0x060#19, s.regs.noiseSeed), (0x064#19, s.regs.nSymbols)]

/-- The registers that read their value while a command runs (R72). -/
def controlRegs : List Reg := [.id, .capText, .capOut, .capBits, .capBlks, .cmd, .status, .irqEnable, .irqStatus]

/-- The node of a pool that comes first in the order of R112. -/
def firstNode : List HuffTree → Option HuffTree
  | [] => none
  | x :: xs =>
    match firstNode xs with
    | none => some x
    | some y => if x.precedes y then some x else some y

/-- The loop of R112 over a pool in any order, as its pseudocode has it, run `steps` times. -/
def mergeAsWritten : (steps next : Nat) → List HuffTree → List HuffTree
  | 0, _, pool => pool
  | steps + 1, next, pool =>
    match firstNode pool with
    | none => pool
    | some a =>
      match firstNode (pool.erase a) with
      | none => pool
      | some b =>
        mergeAsWritten steps (next + 1)
          (((pool.erase a).erase b) ++ [.node (a.weight + b.weight) next a b])

/-- FREQ as its pseudocode has it (R110). -/
def freqAsWritten (text : List Symbol) : Nat → Nat :=
  text.foldl (fun f x => Function.update f x.toNat (f x.toNat + 1)) fun _ => 0

/-- XORSHIFT32 as its pseudocode has it, on natural numbers below 2^32 (R131). -/
def xorshiftAsWritten (x0 : Nat) : Nat :=
  let x1 := x0 ^^^ ((x0 <<< 13) % 2 ^ 32)
  let x2 := x1 ^^^ (x1 >>> 17)
  x2 ^^^ ((x2 <<< 5) % 2 ^ 32)

/-- The body of NOISE_SELECT's loop at position p, on x, need and P (R132). -/
def noiseBody (total : Nat) (v : Nat × Nat × Finset Nat) (p : Nat) : Nat × Nat × Finset Nat :=
  let x := xorshiftAsWritten v.1
  let u := (x * (total - p)) >>> 32
  if u < v.2.1 then (x, v.2.1 - 1, v.2.2 ∪ {p}) else (x, v.2.1, v.2.2)

/-- NOISE_SELECT as its pseudocode has it (R132): the loop runs over p = 0 .. T − 1, and the result is P. -/
def noiseAsWritten (seed total count : Nat) : Finset Nat :=
  ((List.range total).foldl (noiseBody total) (seed, count, ∅)).2.2

/-- Two states give a command the same operands (R91), with the same capacities. -/
def SameOperands (i : Instr) (s s' : State) : Prop :=
  s.params = s'.params ∧
  match i with
  | .nop => True
  | .buildCodes => s.regs.symLen = s'.regs.symLen ∧ s.text = s'.text
  | .hufEncode => s.regs.symLen = s'.regs.symLen ∧ s.text = s'.text ∧
      (∀ x, codeLen s.bufs x = codeLen s'.bufs x) ∧ ∀ x, s.bufs.code x = s'.bufs.code x
  | .decompressSrc0 => s.regs.hufLen = s'.regs.hufLen ∧ s.hufBits = s'.hufBits ∧
      (∀ x, codeLen s.bufs x = codeLen s'.bufs x) ∧ ∀ x, s.bufs.code x = s'.bufs.code x
  | .decompressSrc1 => s.regs.datLen = s'.regs.datLen ∧ s.datBits = s'.datBits ∧
      (∀ x, codeLen s.bufs x = codeLen s'.bufs x) ∧ ∀ x, s.bufs.code x = s'.bufs.code x
  | .hamEncode => s.regs.hufLen = s'.regs.hufLen ∧ s.hufBits = s'.hufBits
  | .injectNoise => s.regs.cwCnt = s'.regs.cwCnt ∧ s.codewords = s'.codewords ∧
      s.regs.noiseCnt = s'.regs.noiseCnt ∧ s.regs.noiseSeed = s'.regs.noiseSeed
  | .hamDecode => s.regs.rxCnt = s'.regs.rxCnt ∧ s.received = s'.received

/-- Two states hold the same results of a command that succeeded (R91). -/
def SameResults (i : Instr) (t t' : State) : Prop :=
  match i with
  | .nop => True
  | .buildCodes => t.regs.hufLen = t'.regs.hufLen ∧ t.hufBits = t'.hufBits ∧ t.regs.nSymbols = t'.regs.nSymbols ∧
      (∀ k < 256, t.bufs.freqBuf.get k = t'.bufs.freqBuf.get k) ∧
      (∀ x, codeLen t.bufs x = codeLen t'.bufs x) ∧ ∀ x, t.bufs.code x = t'.bufs.code x
  | .hufEncode => t.regs.hufLen = t'.regs.hufLen ∧ t.hufBits = t'.hufBits
  | .decompressSrc0 => t.regs.outLen = t'.regs.outLen ∧
      ∀ k < t.regs.outLen.toNat, t.bufs.outBuf.get k = t'.bufs.outBuf.get k
  | .decompressSrc1 => t.regs.outLen = t'.regs.outLen ∧
      ∀ k < t.regs.outLen.toNat, t.bufs.outBuf.get k = t'.bufs.outBuf.get k
  | .hamEncode => t.regs.cwCnt = t'.regs.cwCnt ∧ t.codewords = t'.codewords
  | .injectNoise => t.regs.rxCnt = t'.regs.rxCnt ∧ t.received = t'.received
  | .hamDecode => t.regs.datLen = t'.regs.datLen ∧ t.datBits = t'.datBits ∧ t.regs.errCount = t'.regs.errCount ∧
      ∀ k < t.regs.rxCnt.toNat, t.bufs.eflagBuf.get k = t'.bufs.eflagBuf.get k

end Sys2Proof.Machine

/-! ### The command word -/

/-- The eight words of R88, and a word of each kind of illegal one (R87, R90). -/
def Obligations.TableWordsDecode : Prop :=
  decode 0x00000000#32 = .ok .nop ∧ decode 0x00000001#32 = .ok .buildCodes ∧ decode 0x00000002#32 = .ok .hufEncode ∧
  decode 0x00000003#32 = .ok .decompressSrc0 ∧ decode 0x00000103#32 = .ok .decompressSrc1 ∧
  decode 0x00000004#32 = .ok .hamEncode ∧ decode 0x00000005#32 = .ok .injectNoise ∧
  decode 0x00000006#32 = .ok .hamDecode ∧ decode 0x00000007#32 = .error .reservedOpcode ∧
  decode 0x00000010#32 = .error .reservedBits ∧ decode 0x80000003#32 = .error .reservedBits ∧
  decode 0x00000104#32 = .error .srcNotAllowed

/-- Decoding an encoded command gives it back. -/
def Obligations.DecodeOfEncode : Prop := ∀ i : Instr, decode (encode i) = .ok i

/-- R89, R90: a word is legal exactly when its fields are as the rule says, which are exactly the eight words of R88; an
accepted illegal word completes with BAD_COMMAND and no other effect. -/
def Obligations.LegalWordsAreTheEightWords : Prop :=
  (∀ w : Word, legalWord w = true ↔
    (w.toNat % 16 ≤ 6 ∧ w.toNat / 16 % 16 = 0 ∧ w.toNat / 512 = 0 ∧ (w.toNat / 256 % 2 = 0 ∨ w.toNat % 16 = 3))) ∧
  (∀ w : Word, legalWord w = true ↔ ∃ i, w = encode i) ∧
  (∀ (w : Word) (i : Instr), decode w = .ok i ↔ w = encode i) ∧
  (∀ (w : Word) (s : State), legalWord w = false →
    ∃ t, step (s.launch w) = .next t ∧ CompletedUnchanged (s.accept w) t (some .badCommand))

/-! ### The command lifecycle -/

/-- R100: a command write while idle is accepted; while a command runs it is dropped. -/
def Obligations.CommandWriteIsAcceptedOrDropped : Prop :=
  ∀ (s : State) (w : Word) (rest : List Event), s.agenda = .memWrite 0x020#19 4 w :: rest →
    (s.status.busy = false →
      step s = .next { s with
        cmd := w
        status := { busy := true, done := false, err := false, codesValid := s.status.codesValid, errCode := none,
                    lastOp := w.extractLsb' 0 4 }
        agenda := rest
        reply := some ⟨.okay, none⟩ }) ∧
    (s.status.busy = true →
      step s = .next { s with irqStatus := s.irqStatus ||| 4#3, agenda := rest, reply := some ⟨.okay, none⟩ })

/-- The step runs the command whose word stands in CMD while BUSY = 1 (R59, R62, R101). -/
def Obligations.StepRunsTheDecodedCommand : Prop :=
  (∀ (s : State) (i : Instr) (rest : List Event), EngineNext s rest → s.status.busy = true → decode s.cmd = .ok i →
    step s = exec i { s with agenda := rest }) ∧
  (∀ (s : State) (i : Instr), step (s.withFetchWord 32 (encode i).toNat) = exec i (s.accept (encode i)))

/-- R106: the word 0 is NOP, any other word with OP = 0 is illegal, and NOP only completes. -/
def Obligations.NopOnlyCompletes : Prop :=
  decode 0x00000000#32 = .ok .nop ∧ (∀ w : Word, w.toNat % 16 = 0 → w ≠ 0#32 → legalWord w = false) ∧
  ∀ s : State, ∃ t, exec .nop s = .next t ∧ CompletedUnchanged s t none ∧
    (s.status.lastOp = 0#4 → t.status.word = if s.status.codesValid then 0x0000000A#32 else 0x00000002#32)

/-- R149: an illegal word completes with BAD_COMMAND, LAST_OP is its low four bits, and nothing else changes. -/
def Obligations.IllegalWordCompletesWithBadCommand : Prop :=
  ∀ (s : State) (w : Word) (rest : List Event), EngineNext s rest → s.status.busy = true → s.cmd = w →
    legalWord w = false → s.StatusCoherent →
    ∃ t, step s = .next t ∧ CompletedUnchanged { s with agenda := rest } t (some .badCommand) ∧
      errorNumber t.status.errCode = 6#4 ∧ t.status.lastOp = w.extractLsb' 0 4

/-- R151: the check-phase errors of every command change no register and no buffer element. -/
def Obligations.CheckPhaseErrorsChangeNothing : Prop :=
  ∀ s : State,
    (s.params.textCap < s.regs.symLen.toNat → ∀ i ∈ [Instr.buildCodes, Instr.hufEncode],
      ∃ t, exec i s = .next t ∧ CompletedUnchanged s t (some .capacity)) ∧
    (s.regs.symLen = 0#32 → ∃ t, exec .buildCodes s = .next t ∧ CompletedUnchanged s t (some .invalidInput)) ∧
    (s.params.bitCap < s.regs.hufLen.toNat → ∀ i ∈ [Instr.decompressSrc0, Instr.hamEncode],
      ∃ t, exec i s = .next t ∧ CompletedUnchanged s t (some .capacity)) ∧
    (s.params.bitCap < s.regs.datLen.toNat →
      ∃ t, exec .decompressSrc1 s = .next t ∧ CompletedUnchanged s t (some .capacity)) ∧
    (s.regs.hufLen.toNat ≤ s.params.bitCap → ¬ CtPrefixFree s.bufs →
      ∃ t, exec .decompressSrc0 s = .next t ∧ CompletedUnchanged s t (some .ambiguousCode)) ∧
    (s.regs.datLen.toNat ≤ s.params.bitCap → ¬ CtPrefixFree s.bufs →
      ∃ t, exec .decompressSrc1 s = .next t ∧ CompletedUnchanged s t (some .ambiguousCode)) ∧
    (s.params.blkCap < s.regs.cwCnt.toNat →
      ∃ t, exec .injectNoise s = .next t ∧ CompletedUnchanged s t (some .capacity)) ∧
    (s.regs.cwCnt.toNat ≤ s.params.blkCap → 7 * s.regs.cwCnt.toNat < s.regs.noiseCnt.toNat →
      ∃ t, exec .injectNoise s = .next t ∧ CompletedUnchanged s t (some .invalidInput)) ∧
    (s.params.blkCap < s.regs.rxCnt.toNat →
      ∃ t, exec .hamDecode s = .next t ∧ CompletedUnchanged s t (some .capacity))

/-- R105: no command changes a register or buffer outside the "writes" column of R91, STATUS and IRQ_STATUS; which
commands write each output is listed clause by clause. -/
def Obligations.CommandsWriteOnlyTheirOutputs : Prop :=
  ∀ (i : Instr) (s t : State), exec i s = .next t →
    (∃ e, Completed s t e) ∧
    t.regs.symLen = s.regs.symLen ∧ t.regs.noiseCnt = s.regs.noiseCnt ∧ t.regs.noiseSeed = s.regs.noiseSeed ∧
    t.bufs.symBuf = s.bufs.symBuf ∧
    (i ≠ .buildCodes → t.bufs.freqBuf = s.bufs.freqBuf ∧ t.bufs.ctLen = s.bufs.ctLen ∧ t.bufs.ctBits = s.bufs.ctBits ∧
      t.regs.nSymbols = s.regs.nSymbols ∧ t.status.codesValid = s.status.codesValid) ∧
    (i ≠ .buildCodes → i ≠ .hufEncode → t.bufs.hufBuf = s.bufs.hufBuf ∧ t.regs.hufLen = s.regs.hufLen) ∧
    (i ≠ .decompressSrc0 → i ≠ .decompressSrc1 → t.bufs.outBuf = s.bufs.outBuf ∧ t.regs.outLen = s.regs.outLen) ∧
    (i ≠ .hamEncode → t.bufs.cwBuf = s.bufs.cwBuf ∧ t.regs.cwCnt = s.regs.cwCnt) ∧
    (i ≠ .injectNoise → t.bufs.rxBuf = s.bufs.rxBuf ∧ t.regs.rxCnt = s.regs.rxCnt) ∧
    (i ≠ .hamDecode → t.bufs.datBuf = s.bufs.datBuf ∧ t.regs.datLen = s.regs.datLen ∧
      t.bufs.eflagBuf = s.bufs.eflagBuf ∧ t.regs.errCount = s.regs.errCount)

/-- R101: two states that give a command the same operands give it the same outcome and, when it succeeds, the same
results. -/
def Obligations.OutcomeDependsOnlyOnOperands : Prop :=
  ∀ (i : Instr) (s s' t t' : State), s.params.legal = true → SameOperands i s s' →
    exec i s = .next t → exec i s' = .next t' →
    t.status.errCode = t'.status.errCode ∧ (t.status.errCode = none → SameResults i t t')

/-- While a command runs, a host transaction changes none of STATUS, CMD, the registers and the buffers (R59, R71, R85,
R103, R104). -/
def Obligations.HostCannotTouchARunningCommand : Prop :=
  ∀ (s t : State) (e : Event) (rest : List Event), s.status.busy = true → s.agenda = e :: rest →
    (∀ a n, e = .memRead a n → step s = .next t →
      t = { s with agenda := rest, reply := t.reply, draws := t.draws }) ∧
    (∀ a n v, e = .memWrite a n v → step s = .next t →
      t = { s with agenda := rest, reply := t.reply, irqEnable := t.irqEnable, irqStatus := t.irqStatus })

/-- No step stops the block: every step of every state answers a next state (R143, R150, R155). -/
def Obligations.EveryStepGoesOn : Prop := ∀ s : State, ∃ t, step s = .next t

/-- R104, R172: within as many steps as there are turns listed, and one more, BUSY falls; when no reset is listed, because
the command completes. That the engine completes when no turn is listed is the model's form, log 5. -/
def Obligations.EveryCommandCompletes : Prop :=
  ∀ s : State, s.status.busy = true →
    ∃ k ≤ s.agenda.length + 1, ∃ t : State, Sys2Proof.core.run k s = .next t ∧ t.status.busy = false ∧
      (Event.reset ∉ s.agenda → t.status.done = true)

/-- R163: an idle block with nothing listed does nothing. -/
def Obligations.IdleBlockStays : Prop :=
  ∀ s : State, s.status.busy = false → s.agenda = [] → step s = .next s

/-- R156: an event bit stays 1 until the host writes 1 to it or reset; DROP_EV becomes 1 only at a host write while a
command runs, DONE_EV and ERR_EV only at a completion, and ERR_EV only at one with an error. -/
def Obligations.EventsChangeOnlyAsListed : Prop :=
  ∀ (s t : State) (k : Nat), k < 3 → step s = .next t →
    (s.irqStatus.getLsbD k = true → t.irqStatus.getLsbD k = false →
      (∃ rest, s.agenda = .reset :: rest) ∨
      (∃ v rest, s.agenda = .memWrite 0x02C#19 4 v :: rest ∧ v.getLsbD k = true)) ∧
    (s.irqStatus.getLsbD k = false → t.irqStatus.getLsbD k = true →
      s.status.busy = true ∧
      (k = 2 ∧ (∃ a v rest, s.agenda = .memWrite a 4 v :: rest) ∨
        k ≠ 2 ∧ t.status.busy = false ∧ t.status.done = true ∧ (k = 1 → t.status.err = true)))

/-- R162, R164: the reset event, from any state, idle or not. -/
def Obligations.ResetEventRestoresEverything : Prop :=
  ∀ (s : State) (rest : List Event), s.agenda = .reset :: rest →
    ∃ t, step s = .next t ∧ t.params = s.params ∧ t.agenda = rest ∧ t.cmd = 0#32 ∧ t.status.word = 0#32 ∧
      t.irqEnable = 0#3 ∧ t.irqStatus = 0#3 ∧ t.irq = false ∧
      t.regs.symLen = 0#32 ∧ t.regs.hufLen = 0#32 ∧ t.regs.cwCnt = 0#32 ∧ t.regs.rxCnt = 0#32 ∧
      t.regs.datLen = 0#32 ∧ t.regs.outLen = 0#32 ∧ t.regs.errCount = 0#32 ∧ t.regs.noiseCnt = 0#32 ∧
      t.regs.nSymbols = 0#32 ∧ t.regs.noiseSeed = Config.free s.draws 0 ∧
      (∃ d, s.draws < d ∧ ∀ k, t.bufs.freqBuf.get k = Config.free d k) ∧
      (∃ d, s.draws < d ∧ ∀ k, t.bufs.ctLen.get k = Config.free d k) ∧
      (∃ d, s.draws < d ∧ ∀ k, t.bufs.ctBits.get k = Config.free d k) ∧
      (∃ d, s.draws < d ∧ ∀ k, t.bufs.symBuf.get k = Config.free d k) ∧
      (∃ d, s.draws < d ∧ ∀ k, t.bufs.outBuf.get k = Config.free d k) ∧
      (∃ d, s.draws < d ∧ ∀ k, t.bufs.hufBuf.get k = Config.free d k) ∧
      (∃ d, s.draws < d ∧ ∀ k, t.bufs.datBuf.get k = Config.free d k) ∧
      (∃ d, s.draws < d ∧ ∀ k, t.bufs.cwBuf.get k = Config.free d k) ∧
      (∃ d, s.draws < d ∧ ∀ k, t.bufs.rxBuf.get k = Config.free d k) ∧
      (∃ d, s.draws < d ∧ ∀ k, t.bufs.eflagBuf.get k = Config.free d k) ∧
      t.DrawsFresh ∧ s.draws < t.draws

/-- R163 at the reset state, and that the reset state is sound. -/
def Obligations.ResetStateIsSound : Prop :=
  State.reset.status.word = 0#32 ∧ State.reset.irqEnable = 0#3 ∧ State.reset.irqStatus = 0#3 ∧
  State.reset.irq = false ∧ State.reset.cmd = 0#32 ∧ State.reset.regs.symLen = 0#32 ∧
  State.reset.regs.hufLen = 0#32 ∧ State.reset.regs.cwCnt = 0#32 ∧ State.reset.regs.rxCnt = 0#32 ∧
  State.reset.regs.datLen = 0#32 ∧ State.reset.regs.outLen = 0#32 ∧ State.reset.Sound

/-! ### NOP aside, the results of the commands -/

/-- R119: BUILD_CODES on a text of 1 to TEXT_CAP symbols. -/
def Obligations.BuildCodesResult : Prop :=
  ∀ s : State, s.params.legal = true → 1 ≤ s.regs.symLen.toNat → s.regs.symLen.toNat ≤ s.params.textCap →
    ∃ t tree, exec .buildCodes s = .next t ∧ Completed s t none ∧ t.status.codesValid = true ∧
      (∀ x : Symbol, (t.bufs.freqBuf.get x.toNat).toNat = s.text.count x) ∧
      buildTree (fun k => s.text.count (BitVec.ofNat 8 k)) = some tree ∧
      (∀ x : Symbol, t.bufs.code x = ((deriveCodes tree).lookup x).getD []) ∧
      (∀ (x : Symbol) (j : Nat), codeLen t.bufs x ≤ j → j < 256 → t.bufs.codeBit x j = false) ∧
      t.regs.nSymbols.toNat = s.text.dedup.length ∧
      t.hufBits = s.text.flatMap t.bufs.code ∧
      t.regs.hufLen.toNat = (s.text.map (codeLen t.bufs)).sum ∧
      (∀ k, t.regs.hufLen.toNat ≤ k → t.bufs.hufBuf.get k = s.bufs.hufBuf.get k) ∧
      t.regs = { s.regs with hufLen := t.regs.hufLen, nSymbols := t.regs.nSymbols } ∧
      t.bufs = { s.bufs with
        freqBuf := t.bufs.freqBuf, ctLen := t.bufs.ctLen, ctBits := t.bufs.ctBits, hufBuf := t.bufs.hufBuf } ∧
      t.draws = s.draws

/-- R114: a text of one distinct symbol: its tree is one leaf, its code is "0", no other symbol has one, and HUF_LEN = SYM_LEN. -/
def Obligations.SingleSymbolCodeIsZero : Prop :=
  ∀ (s t : State) (x : Symbol), s.params.legal = true → 1 ≤ s.regs.symLen.toNat →
    s.regs.symLen.toNat ≤ s.params.textCap → (∀ y ∈ s.text, y = x) → exec .buildCodes s = .next t →
    (∃ w n, buildTree (fun k => s.text.count (BitVec.ofNat 8 k)) = some (.leaf w n x)) ∧
    t.bufs.code x = [false] ∧ (∀ y, y ≠ x → codeLen t.bufs y = 0) ∧ t.regs.hufLen = s.regs.symLen

/-- R120: HUF_ENCODE when every symbol of the text has a code and the stream fits. -/
def Obligations.HufEncodeResult : Prop :=
  ∀ s : State, s.params.legal = true → s.regs.symLen.toNat ≤ s.params.textCap →
    (∀ x ∈ s.text, 1 ≤ codeLen s.bufs x) → (s.text.map (codeLen s.bufs)).sum ≤ s.params.bitCap →
    ∃ t, exec .hufEncode s = .next t ∧ Completed s t none ∧ t.status.codesValid = s.status.codesValid ∧
      t.regs.hufLen.toNat = (s.text.map (codeLen s.bufs)).sum ∧
      t.hufBits = s.text.flatMap s.bufs.code ∧
      (∀ k, t.regs.hufLen.toNat ≤ k → t.bufs.hufBuf.get k = s.bufs.hufBuf.get k) ∧
      t.regs = { s.regs with hufLen := t.regs.hufLen } ∧
      t.bufs = { s.bufs with hufBuf := t.bufs.hufBuf } ∧ t.draws = s.draws

/-- R115, R152, R153: HUF_ENCODE's processing-phase errors. The symbols of `done` have codes whose stream fits; the next
symbol x has no code, or its code does not fit. -/
def Obligations.HufEncodeErrors : Prop :=
  ∀ (s : State) (done : List Symbol) (x : Symbol) (later : List Symbol), s.params.legal = true →
    s.regs.symLen.toNat ≤ s.params.textCap → s.text = done ++ x :: later →
    (∀ y ∈ done, 1 ≤ codeLen s.bufs y) → (done.map (codeLen s.bufs)).sum ≤ s.params.bitCap →
    (codeLen s.bufs x = 0 ∨ s.params.bitCap < (done.map (codeLen s.bufs)).sum + codeLen s.bufs x) →
    ∃ t, exec .hufEncode s = .next t ∧
      Completed s t (some (if codeLen s.bufs x = 0 then .unknownSymbol else .capacity)) ∧
      t.status.codesValid = s.status.codesValid ∧
      (∀ k, t.bufs.hufBuf.get k = Config.free s.draws k) ∧
      t.regs = { s.regs with hufLen := 0#32 } ∧
      t.bufs = { s.bufs with hufBuf := t.bufs.hufBuf } ∧ t.draws = s.draws + 1

/-- R121: DECOMPRESS, of either source, on a stream of codes of a prefix-free table. -/
def Obligations.DecompressResult : Prop :=
  ∀ (s : State) (text : List Symbol) (i : Instr) (len : Word) (bits : Bits), s.params.legal = true →
    (i = .decompressSrc0 ∧ len = s.regs.hufLen ∧ bits = s.hufBits ∨
      i = .decompressSrc1 ∧ len = s.regs.datLen ∧ bits = s.datBits) →
    len.toNat ≤ s.params.bitCap → CtPrefixFree s.bufs →
    (∀ x ∈ text, 1 ≤ codeLen s.bufs x) → bits = text.flatMap s.bufs.code → text.length ≤ s.params.outCap →
    ∃ t, exec i s = .next t ∧ Completed s t none ∧ t.status.codesValid = s.status.codesValid ∧
      t.regs.outLen.toNat = text.length ∧ t.bufs.outBuf.getSeq 0 text.length = text ∧
      (∀ k, text.length ≤ k → t.bufs.outBuf.get k = s.bufs.outBuf.get k) ∧
      t.regs = { s.regs with outLen := t.regs.outLen } ∧
      t.bufs = { s.bufs with outBuf := t.bufs.outBuf } ∧ t.draws = s.draws

/-- R117, R118, R152, R153: DECOMPRESS's processing-phase errors, of either source. After the codes of `text`, either a
code is complete and OUT_BUF is full, or bits are left of which no code is a prefix. -/
def Obligations.DecompressErrors : Prop :=
  ∀ (s : State) (text : List Symbol) (left : Bits) (i : Instr) (len : Word) (bits : Bits) (e : ErrorCode),
    s.params.legal = true →
    (i = .decompressSrc0 ∧ len = s.regs.hufLen ∧ bits = s.hufBits ∨
      i = .decompressSrc1 ∧ len = s.regs.datLen ∧ bits = s.datBits) →
    len.toNat ≤ s.params.bitCap → CtPrefixFree s.bufs →
    (∀ x ∈ text, 1 ≤ codeLen s.bufs x) → bits = text.flatMap s.bufs.code ++ left → text.length ≤ s.params.outCap →
    (e = .capacity ∧ text.length = s.params.outCap ∧ (∃ x, 1 ≤ codeLen s.bufs x ∧ s.bufs.code x <+: left) ∨
      e = .corruptStream ∧ left ≠ [] ∧ ∀ x, 1 ≤ codeLen s.bufs x → ¬ s.bufs.code x <+: left) →
    ∃ t, exec i s = .next t ∧ Completed s t (some e) ∧ t.status.codesValid = s.status.codesValid ∧
      (∀ k, t.bufs.outBuf.get k = Config.free s.draws k) ∧
      t.regs = { s.regs with outLen := 0#32 } ∧
      t.bufs = { s.bufs with outBuf := t.bufs.outBuf } ∧ t.draws = s.draws + 1

/-- R135: HAM_ENCODE. Group g's bit j is HUF_BUF[4g + j] below HUF_LEN and 0 from there on. -/
def Obligations.HamEncodeResult : Prop :=
  ∀ s : State, s.params.legal = true → s.regs.hufLen.toNat ≤ s.params.bitCap →
    ∃ t, exec .hamEncode s = .next t ∧ Completed s t none ∧ t.status.codesValid = s.status.codesValid ∧
      t.regs.cwCnt.toNat = (s.regs.hufLen.toNat + 3) / 4 ∧
      (∀ g < t.regs.cwCnt.toNat, ∃ d : Nibble, t.bufs.cwBuf.get g = henc4 d ∧
        ∀ j < 4, d.getLsbD j = (decide (4 * g + j < s.regs.hufLen.toNat) && s.bufs.hufBuf.get (4 * g + j))) ∧
      (∀ g, t.regs.cwCnt.toNat ≤ g → t.bufs.cwBuf.get g = s.bufs.cwBuf.get g) ∧
      t.regs = { s.regs with cwCnt := t.regs.cwCnt } ∧
      t.bufs = { s.bufs with cwBuf := t.bufs.cwBuf } ∧ t.draws = s.draws

/-- R134, R136: INJECT_NOISE flips the bits NOISE_SELECT names, in the flat order of R134, in a copy of the codewords. -/
def Obligations.InjectNoiseResult : Prop :=
  ∀ s : State, s.regs.cwCnt.toNat ≤ s.params.blkCap → s.regs.noiseCnt.toNat ≤ 7 * s.regs.cwCnt.toNat →
    ∃ t, exec .injectNoise s = .next t ∧ Completed s t none ∧ t.status.codesValid = s.status.codesValid ∧
      t.regs.rxCnt = s.regs.cwCnt ∧
      (∀ b < s.regs.cwCnt.toNat, ∀ j < 7, (t.bufs.rxBuf.get b).getLsbD j =
        ((s.bufs.cwBuf.get b).getLsbD j ^^
          decide (7 * b + j ∈ noiseSelect s.regs.noiseSeed (7 * s.regs.cwCnt.toNat) s.regs.noiseCnt.toNat))) ∧
      (∀ b, s.regs.cwCnt.toNat ≤ b → t.bufs.rxBuf.get b = s.bufs.rxBuf.get b) ∧
      t.regs = { s.regs with rxCnt := t.regs.rxCnt } ∧
      t.bufs = { s.bufs with rxBuf := t.bufs.rxBuf } ∧ t.draws = s.draws

/-- R137: HAM_DECODE. -/
def Obligations.HamDecodeResult : Prop :=
  ∀ s : State, s.params.legal = true → s.regs.rxCnt.toNat ≤ s.params.blkCap →
    ∃ t, exec .hamDecode s = .next t ∧ Completed s t none ∧ t.status.codesValid = s.status.codesValid ∧
      t.regs.datLen.toNat = 4 * s.regs.rxCnt.toNat ∧
      (∀ b < s.regs.rxCnt.toNat, ∀ j < 4,
        t.bufs.datBuf.get (4 * b + j) = (hdec7 (s.bufs.rxBuf.get b)).1.getLsbD j) ∧
      (∀ b < s.regs.rxCnt.toNat, t.bufs.eflagBuf.get b = decide (synd (s.bufs.rxBuf.get b) ≠ 0)) ∧
      t.regs.errCount.toNat = ((List.range s.regs.rxCnt.toNat).filter fun b => synd (s.bufs.rxBuf.get b) ≠ 0).length ∧
      (∀ k, 4 * s.regs.rxCnt.toNat ≤ k → t.bufs.datBuf.get k = s.bufs.datBuf.get k) ∧
      (∀ b, s.regs.rxCnt.toNat ≤ b → t.bufs.eflagBuf.get b = s.bufs.eflagBuf.get b) ∧
      t.regs = { s.regs with datLen := t.regs.datLen, errCount := t.regs.errCount } ∧
      t.bufs = { s.bufs with datBuf := t.bufs.datBuf, eflagBuf := t.bufs.eflagBuf } ∧ t.draws = s.draws

/-! ### Properties of the Huffman family -/

/-- R110: what the pseudocode's loop computes is the number of occurrences, at most the length of the text. -/
def Obligations.FreqIsTheLoopAsWritten : Prop :=
  ∀ (text : List Symbol) (k : Nat), k < 256 →
    freq text k = freqAsWritten text k ∧ freqAsWritten text k = text.count (BitVec.ofNat 8 k) ∧
    freqAsWritten text k ≤ text.length

/-- R112: the tree the model builds from a pool kept in order is the one the pseudocode's loop builds from a pool in any
order, taking its first node twice in each of its n − 1 rounds; one node is left. -/
def Obligations.TreeIsTheLoopAsWritten : Prop :=
  ∀ f : Nat → Nat, leaves f ≠ [] →
    ∃ tree, mergeAsWritten ((leaves f).length - 1) (leaves f).length (leaves f) = [tree] ∧ buildTree f = some tree

/-- R116: the table check is the prefix-free property over all ordered pairs. -/
def Obligations.TableCheckIsPrefixFree : Prop :=
  ∀ b : Buffers, prefixFree b.codeTable = true ↔ CtPrefixFree b

/-- R118: once the buffer is longer than every code, the outcome is CORRUPT_STREAM, whatever bits follow. -/
def Obligations.LongBufferIsCorrupt : Prop :=
  ∀ (cap : Nat) (t : CodeTable) (buf rest : Bits) (out : List Symbol), (∀ a ∈ t, a.2.length < buf.length) →
    buf ≠ [] → decodeFrom cap t rest buf out = .error .corruptStream

/-- R122: the table BUILD_CODES writes is prefix-free, and with a sound table marked valid DECOMPRESS never reports
AMBIGUOUS_CODE. -/
def Obligations.BuiltTableIsPrefixFree : Prop :=
  (∀ s t : State, 1 ≤ s.regs.symLen.toNat → s.regs.symLen.toNat ≤ s.params.textCap → exec .buildCodes s = .next t →
    CtPrefixFree t.bufs) ∧
  (∀ s t : State, s.CodesSound → s.status.codesValid = true → ∀ i ∈ [Instr.decompressSrc0, Instr.decompressSrc1],
    exec i s = .next t → t.status.errCode ≠ some .ambiguousCode)

/-- R124: BUILD_CODES cannot overflow: every code has at most 255 bits and, with two symbols or more, fewer bits than
there are symbols; the stream fits HUF_BUF; and ENCODE_STREAM raises neither error on it. -/
def Obligations.BuildCodesCannotOverflow : Prop :=
  ∀ s t : State, s.params.legal = true → 1 ≤ s.regs.symLen.toNat → s.regs.symLen.toNat ≤ s.params.textCap →
    exec .buildCodes s = .next t →
    (∀ x ∈ s.text, 1 ≤ codeLen t.bufs x ∧ codeLen t.bufs x ≤ 255) ∧
    (2 ≤ t.regs.nSymbols.toNat → ∀ x, codeLen t.bufs x + 1 ≤ t.regs.nSymbols.toNat) ∧
    (t.regs.nSymbols.toNat = 1 → ∀ x, codeLen t.bufs x ≤ 1) ∧
    t.regs.hufLen.toNat ≤ 8 * s.regs.symLen.toNat ∧ t.regs.hufLen.toNat ≤ s.params.bitCap ∧
    encodeStream s.params.bitCap t.bufs.codeTable s.text = .ok t.hufBits

/-- R123: no prefix-free code for the symbols of the text, of non-empty codes, has a smaller total length; and a symbol that
occurs more often has a code no longer than one that occurs less often. -/
def Obligations.BuiltCodeIsOptimal : Prop :=
  ∀ s t : State, s.params.legal = true → 1 ≤ s.regs.symLen.toNat → s.regs.symLen.toNat ≤ s.params.textCap →
    exec .buildCodes s = .next t →
    (∀ c : Symbol → Bits, (∀ x ∈ s.text, c x ≠ []) →
      (∀ x ∈ s.text, ∀ y ∈ s.text, x ≠ y → ¬ c x <+: c y) →
      (s.text.map (codeLen t.bufs)).sum ≤ (s.text.map fun x => (c x).length).sum) ∧
    (∀ x ∈ s.text, ∀ y ∈ s.text, s.text.count y < s.text.count x → codeLen t.bufs x ≤ codeLen t.bufs y)

/-- R125: BUILD_CODES and then DECOMPRESS with SRC = 0, with the registers, buffers and capacities BUILD_CODES left,
gives the text back; a text longer than OUT_CAP gives CAPACITY. -/
def Obligations.HuffmanRoundTrip : Prop :=
  ∀ s t t' : State, s.params.legal = true → 1 ≤ s.regs.symLen.toNat → s.regs.symLen.toNat ≤ s.params.textCap →
    exec .buildCodes s = .next t → t'.regs = t.regs → t'.bufs = t.bufs → t'.params = t.params →
    ∃ u, exec .decompressSrc0 t' = .next u ∧
      (s.regs.symLen.toNat ≤ s.params.outCap → Completed t' u none ∧ u.regs.outLen = s.regs.symLen ∧
        ∀ k < s.regs.symLen.toNat, u.bufs.outBuf.get k = s.bufs.symBuf.get k) ∧
      (s.params.outCap < s.regs.symLen.toNat → Completed t' u (some .capacity))

/-- R120: HUF_ENCODE after BUILD_CODES on the same text gives the same stream and length. -/
def Obligations.HufEncodeRepeatsBuildCodes : Prop :=
  ∀ s t t' : State, s.params.legal = true → 1 ≤ s.regs.symLen.toNat → s.regs.symLen.toNat ≤ s.params.textCap →
    exec .buildCodes s = .next t → t'.regs = t.regs → t'.bufs = t.bufs → t'.params = t.params →
    ∃ u, exec .hufEncode t' = .next u ∧ Completed t' u none ∧ u.regs.hufLen = t.regs.hufLen ∧ u.hufBits = t.hufBits

/-! ### Properties of the Hamming family -/

/-- R127, R128, R130, R139: the seven bits of a codeword, the syndrome's equations, what a flip changes, and the four
data bits and the flag of the block decoder; so the syndrome of a codeword with no bit or one bit flipped names the bit,
and the data come back. -/
def Obligations.SyndromeNamesTheFlippedBit : Prop :=
  (∀ d : Nibble,
    let d0 := d.getLsbD 0; let d1 := d.getLsbD 1; let d2 := d.getLsbD 2; let d3 := d.getLsbD 3
    (henc4 d).getLsbD 0 = (d0 ^^ d1 ^^ d3) ∧ (henc4 d).getLsbD 1 = (d0 ^^ d2 ^^ d3) ∧ (henc4 d).getLsbD 2 = d0 ∧
    (henc4 d).getLsbD 3 = (d1 ^^ d2 ^^ d3) ∧ (henc4 d).getLsbD 4 = d1 ∧ (henc4 d).getLsbD 5 = d2 ∧
    (henc4 d).getLsbD 6 = d3) ∧
  (∀ r : Codeword, synd r =
    (r.getLsbD 0 ^^ r.getLsbD 2 ^^ r.getLsbD 4 ^^ r.getLsbD 6).toNat +
    2 * (r.getLsbD 1 ^^ r.getLsbD 2 ^^ r.getLsbD 5 ^^ r.getLsbD 6).toNat +
    4 * (r.getLsbD 3 ^^ r.getLsbD 4 ^^ r.getLsbD 5 ^^ r.getLsbD 6).toNat) ∧
  (∀ (r : Codeword) (i j : Fin 7), (flipBit r j).getLsbD i = (r.getLsbD i ^^ decide (i = j))) ∧
  (∀ r : Codeword,
    (hdec7 r).1.getLsbD 0 = (r.getLsbD 2 ^^ decide (synd r = 3)) ∧
    (hdec7 r).1.getLsbD 1 = (r.getLsbD 4 ^^ decide (synd r = 5)) ∧
    (hdec7 r).1.getLsbD 2 = (r.getLsbD 5 ^^ decide (synd r = 6)) ∧
    (hdec7 r).1.getLsbD 3 = (r.getLsbD 6 ^^ decide (synd r = 7)) ∧ (hdec7 r).2 = decide (synd r ≠ 0)) ∧
  (∀ d : Nibble, synd (henc4 d) = 0 ∧ hdec7 (henc4 d) = (d, false) ∧
    ∀ j : Fin 7, synd (flipBit (henc4 d) j) = j.val + 1 ∧ hdec7 (flipBit (henc4 d) j) = (d, true))

/-- R140: with two bits flipped the syndrome is the exclusive-or of their positions, it is not 0, the flag is set and
the data are wrong. -/
def Obligations.DoubleErrorsAreMiscorrected : Prop :=
  ∀ (d : Nibble) (i j : Fin 7), i ≠ j →
    synd (flipBit (flipBit (henc4 d) i) j) = (i.val + 1) ^^^ (j.val + 1) ∧
    synd (flipBit (flipBit (henc4 d) i) j) ≠ 0 ∧
    (hdec7 (flipBit (flipBit (henc4 d) i) j)).2 = true ∧ (hdec7 (flipBit (flipBit (henc4 d) i) j)).1 ≠ d

/-- R131 to R133: XORSHIFT32 is the three steps as written, and stays at 0; a draw is below the positions left;
NOISE_SELECT is the loop as written, and returns exactly k distinct positions below T; k = T gives all of them, k = 0
none, and seed 0 the first k. -/
def Obligations.NoiseSelectTakesExactlyCount : Prop :=
  (∀ x : Word, (xorshift32 x).toNat = xorshiftAsWritten x.toNat) ∧ xorshift32 0#32 = 0#32 ∧
  (∀ (x : Word) (n : Nat), 0 < n → (x.toNat * n) >>> 32 ≤ n - 1) ∧
  (∀ (seed : Word) (total count : Nat),
    (noiseSelect seed total count).toFinset = noiseAsWritten seed.toNat total count) ∧
  (∀ (seed : Word) (total count : Nat), count ≤ total →
    (noiseSelect seed total count).Pairwise (· < ·) ∧ (noiseSelect seed total count).length = count ∧
    ∀ p ∈ noiseSelect seed total count, p < total) ∧
  (∀ (seed : Word) (total : Nat), noiseSelect seed total total = List.range total) ∧
  (∀ (seed : Word) (total : Nat), noiseSelect seed total 0 = []) ∧
  (∀ total count : Nat, count ≤ total → noiseSelect 0#32 total count = List.range count)

/-- R138, R139: HAM_ENCODE and then HAM_DECODE of words that differ from the codewords in at most one bit a block give
back the groups, zero-padded, flag exactly the blocks with a flipped bit, whose syndrome names it, and count them.
`err b` is the bit flipped in block b, if one is. -/
def Obligations.HammingCorrectsOneErrorPerBlock : Prop :=
  ∀ (s t t' : State) (err : Nat → Option (Fin 7)), s.params.legal = true → s.regs.hufLen.toNat ≤ s.params.bitCap →
    exec .hamEncode s = .next t → t'.params = t.params → t'.regs.rxCnt = t.regs.cwCnt →
    (∀ b < t.regs.cwCnt.toNat, t'.bufs.rxBuf.get b =
      match err b with
      | none => t.bufs.cwBuf.get b
      | some j => flipBit (t.bufs.cwBuf.get b) j) →
    (∀ b < t.regs.cwCnt.toNat, synd (t'.bufs.rxBuf.get b) =
      match err b with
      | none => 0
      | some j => j.val + 1) ∧
    ∃ u, exec .hamDecode t' = .next u ∧ Completed t' u none ∧
      u.regs.datLen.toNat = 4 * t.regs.cwCnt.toNat ∧
      (∀ k < u.regs.datLen.toNat, u.bufs.datBuf.get k =
        (decide (k < s.regs.hufLen.toNat) && s.bufs.hufBuf.get k)) ∧
      (∀ b < t.regs.cwCnt.toNat, u.bufs.eflagBuf.get b = (err b).isSome) ∧
      u.regs.errCount.toNat = ((List.range t.regs.cwCnt.toNat).filter fun b => (err b).isSome).length

/-! ### The host port -/

/-- R76, R83: the address map. -/
def Obligations.AddressMap : Prop :=
  ∀ p : Params, p.legal = true →
    (∀ r, locate p (regAddr r).toNat = some (.reg r)) ∧
    (∀ a < 0x1000, (∀ r, a ≠ (regAddr r).toNat) → locate p a = none) ∧
    (∀ k < 256, locate p (0x1000 + 4 * k) = some (.freq k)) ∧
    (∀ a, 0x1400 ≤ a → a < 0x4000 → locate p a = none) ∧
    (∀ k < 256, locate p (0x4000 + 64 * k) = some (.ctLen k)) ∧
    (∀ k < 256, ∀ j < 8, locate p (0x4000 + 64 * k + 4 + 4 * j) = some (.ctBits k j)) ∧
    (∀ k < 256, ∀ o, 0x24 ≤ o → o < 0x40 → locate p (0x4000 + 64 * k + o) = none) ∧
    (∀ a, 0x8000 ≤ a → a < 0x10000 → locate p a = none) ∧
    (∀ o < 0x10000, o % 4 = 0 →
      locate p (0x10000 + o) = (if o < p.textCap then some (.sym (o / 4)) else none) ∧
      locate p (0x20000 + o) = (if o < p.outCap then some (.out (o / 4)) else none) ∧
      locate p (0x30000 + o) = (if o < p.textCap then some (.huf (o / 4)) else none) ∧
      locate p (0x40000 + o) = (if o < p.textCap then some (.dat (o / 4)) else none) ∧
      locate p (0x50000 + o) = (if o < 2 * p.textCap then some (.cw (o / 4)) else none) ∧
      locate p (0x60000 + o) = (if o < 2 * p.textCap then some (.rx (o / 4)) else none) ∧
      locate p (0x70000 + o) = (if o < p.textCap / 4 then some (.eflag (o / 4)) else none))

/-- R65, R66: a misaligned access, one of another size, or one to an unmapped address gets an ERROR response, a read the
word 0, and changes nothing. -/
def Obligations.RefusedAccessChangesNothing : Prop :=
  ∀ (s : State) (a : Addr) (n : Nat) (rest : List Event),
    (n ≠ 4 ∨ a.toNat % 4 ≠ 0 ∨ locate s.params a.toNat = none) →
    (s.agenda = .memRead a n :: rest →
      step s = .next { s with agenda := rest, reply := some ⟨.error, some 0#32⟩ }) ∧
    (∀ v, s.agenda = .memWrite a n v :: rest →
      step s = .next { s with agenda := rest, reply := some ⟨.error, none⟩ })

/-- R71: a write while a command runs is dropped, unless it is to IRQ_ENABLE or IRQ_STATUS, which take effect. -/
def Obligations.WritesWhileBusyAreDropped : Prop :=
  ∀ (s : State) (a : Addr) (v : Word) (rest : List Event), s.status.busy = true →
    s.agenda = .memWrite a 4 v :: rest → a.toNat % 4 = 0 → locate s.params a.toNat ≠ none →
    (a ≠ 0x028#19 → a ≠ 0x02C#19 →
      step s = .next { s with irqStatus := s.irqStatus ||| 4#3, agenda := rest, reply := some ⟨.okay, none⟩ }) ∧
    (a = 0x028#19 →
      step s = .next { s with irqEnable := v.setWidth 3, agenda := rest, reply := some ⟨.okay, none⟩ }) ∧
    (a = 0x02C#19 →
      step s = .next { s with irqStatus := s.irqStatus &&& ~~~(v.setWidth 3), agenda := rest,
                              reply := some ⟨.okay, none⟩ })

/-- R72: while a command runs, each control register reads its own word, and every other mapped word reads a fresh free
value (log 2), all 32 bits of it, reserved ones too (log 16); nothing else changes. -/
def Obligations.ReadsWhileBusy : Prop :=
  ∀ (s : State) (rest : List Event), s.status.busy = true →
    (∀ q ∈ controlTable s, s.agenda = .memRead q.1 4 :: rest →
      step s = .next { s with agenda := rest, reply := some ⟨.okay, some q.2⟩ }) ∧
    ∀ (a : Addr) (l : Location), s.agenda = .memRead a 4 :: rest → a.toNat % 4 = 0 →
      locate s.params a.toNat = some l →
      (∀ r ∈ controlRegs, l = .reg r →
        step s = .next { s with agenda := rest, reply := some ⟨.okay, some (readReg r s)⟩ }) ∧
      ((∀ r ∈ controlRegs, l ≠ .reg r) →
        step s = .next { s with agenda := rest, reply := some ⟨.okay, some (Config.free s.draws 0)⟩,
                                draws := s.draws + 1 })

/-- R68: a read changes no register, no buffer element and no IRQ_STATUS bit, and while no command runs two reads of an
address in a row answer the same. -/
def Obligations.ReadsHaveNoSideEffect : Prop :=
  ∀ (s t : State) (a : Addr) (n : Nat) (rest : List Event), s.agenda = .memRead a n :: rest → step s = .next t →
    t = { s with agenda := rest, reply := t.reply, draws := t.draws } ∧
    (s.status.busy = false → ∀ rest' u, rest = .memRead a n :: rest' → step t = .next u → u.reply = t.reply)

/-- R67: a write to a read-only location gets OKAY and changes nothing; while a command runs it is dropped. -/
def Obligations.ReadOnlyWritesAreIgnored : Prop :=
  ∀ (s : State) (a : Addr) (v : Word) (l : Location) (rest : List Event),
    s.agenda = .memWrite a 4 v :: rest → a.toNat % 4 = 0 → locate s.params a.toNat = some l →
    ((∃ r ∈ readOnlyRegs, l = .reg r) ∨ (∃ k, l = .freq k) ∨ (∃ k, l = .out k) ∨ (∃ k, l = .eflag k)) →
    (s.status.busy = false → step s = .next { s with agenda := rest, reply := some ⟨.okay, none⟩ }) ∧
    (s.status.busy = true →
      step s = .next { s with irqStatus := s.irqStatus ||| 4#3, agenda := rest, reply := some ⟨.okay, none⟩ })

/-- R20, R34, R35: while no command runs, each register reads its own word at its address, and `regAddr` and `readReg`
are that table; a write to an RW register is read back and
changes nothing else; IRQ_ENABLE stores bits [2:0], and IRQ_STATUS clears the bits written as 1. -/
def Obligations.RegistersReadAndWrite : Prop :=
  ∀ (s : State) (r : Reg) (v : Word) (rest : List Event), s.status.busy = false →
    (regAddr r, readReg r s) ∈ controlTable s ++ dataTable s ∧
    (∀ q ∈ controlTable s ++ dataTable s, s.agenda = .memRead q.1 4 :: rest →
      step s = .next { s with agenda := rest, reply := some ⟨.okay, some q.2⟩ }) ∧
    (s.agenda = .memWrite (regAddr r) 4 v :: rest → r ∈ readWriteRegs →
      ∃ t, step s = .next t ∧ readReg r t = v ∧ (∀ q, q ≠ r → readReg q t = readReg q s) ∧
        t = { s with regs := t.regs, agenda := rest, reply := some ⟨.okay, none⟩ }) ∧
    (s.agenda = .memWrite (regAddr .irqEnable) 4 v :: rest →
      step s = .next { s with irqEnable := v.setWidth 3, agenda := rest, reply := some ⟨.okay, none⟩ }) ∧
    (s.agenda = .memWrite (regAddr .irqStatus) 4 v :: rest →
      ∃ t, step s = .next t ∧ (∀ k < 3, t.irqStatus.getLsbD k = (s.irqStatus.getLsbD k && !v.getLsbD k)) ∧
        t = { s with irqStatus := t.irqStatus, agenda := rest, reply := some ⟨.okay, none⟩ })

/-- R21 to R27, R36, R70: the constant registers, the fields of STATUS with its reserved bits 0, and the irq output. -/
def Obligations.StatusFieldsAndIrq : Prop :=
  ∀ s : State, s.params.legal = true →
    readReg .id s = 0x48430100#32 ∧
    (readReg .capText s).toNat = s.params.textCap ∧ (readReg .capOut s).toNat = s.params.outCap ∧
    (readReg .capBits s).toNat = 8 * s.params.textCap ∧ (readReg .capBlks s).toNat = 2 * s.params.textCap ∧
    (readReg .status s).getLsbD 0 = s.status.busy ∧ (readReg .status s).getLsbD 1 = s.status.done ∧
    (readReg .status s).getLsbD 2 = s.status.err ∧ (readReg .status s).getLsbD 3 = s.status.codesValid ∧
    (readReg .status s).extractLsb' 4 4 = 0#4 ∧
    (readReg .status s).extractLsb' 8 4 = errorNumber s.status.errCode ∧
    (readReg .status s).extractLsb' 12 4 = s.status.lastOp ∧ (readReg .status s).extractLsb' 16 16 = 0#16 ∧
    (readReg .irqEnable s).extractLsb' 3 29 = 0#29 ∧ (readReg .irqStatus s).extractLsb' 3 29 = 0#29 ∧
    (s.irq = true ↔ ∃ k < 3, s.irqStatus.getLsbD k = true ∧ s.irqEnable.getLsbD k = true)

/-- R69, R83: a host write to a CT word while no command runs stores it and clears CODES_VALID; the LEN word keeps its
reserved bits 0, and an entry's words from 0x24 on are unmapped. -/
def Obligations.CodeTableWindow : Prop :=
  ∀ (s : State) (x : Symbol) (rest : List Event), s.status.busy = false → s.params.legal = true →
    (∀ o, 0x24 ≤ o → o < 0x40 → locate s.params (0x4000 + 64 * x.toNat + o) = none) ∧
    (s.agenda = .memRead (BitVec.ofNat 19 (0x4000 + 64 * x.toNat)) 4 :: rest →
      step s = .next { s with agenda := rest,
                              reply := some ⟨.okay, some (BitVec.ofNat 32 (codeLen s.bufs x))⟩ }) ∧
    (∀ k < 8, s.agenda = .memRead (BitVec.ofNat 19 (0x4000 + 64 * x.toNat + 4 + 4 * k)) 4 :: rest →
      ∃ w : Word, step s = .next { s with agenda := rest, reply := some ⟨.okay, some w⟩ } ∧
        ∀ j < 32, w.getLsbD j = s.bufs.codeBit x (32 * k + j)) ∧
    (∀ v : Word, s.agenda = .memWrite (BitVec.ofNat 19 (0x4000 + 64 * x.toNat)) 4 v :: rest →
      ∃ t, step s = .next t ∧ codeLen t.bufs x = v.toNat % 256 ∧ (∀ y, y ≠ x → codeLen t.bufs y = codeLen s.bufs y) ∧
        t = { s with status := { s.status with codesValid := false }, bufs := { s.bufs with ctLen := t.bufs.ctLen },
                     agenda := rest, reply := some ⟨.okay, none⟩ }) ∧
    (∀ k < 8, ∀ v : Word, s.agenda = .memWrite (BitVec.ofNat 19 (0x4000 + 64 * x.toNat + 4 + 4 * k)) 4 v :: rest →
      ∃ t, step s = .next t ∧ (∀ j < 32, t.bufs.codeBit x (32 * k + j) = v.getLsbD j) ∧
        (∀ y j, j < 256 → (y ≠ x ∨ j / 32 ≠ k) → t.bufs.codeBit y j = s.bufs.codeBit y j) ∧
        t = { s with status := { s.status with codesValid := false }, bufs := { s.bufs with ctBits := t.bufs.ctBits },
                     agenda := rest, reply := some ⟨.okay, none⟩ })

/-- R78: the windows of SYM_BUF and OUT_BUF, four symbols a word. -/
def Obligations.SymbolWindows : Prop :=
  ∀ (s : State) (i : Nat) (rest : List Event), s.status.busy = false → s.params.legal = true →
    (i < s.params.textCap → s.agenda = .memRead (BitVec.ofNat 19 (0x10000 + 4 * (i / 4))) 4 :: rest →
      ∃ w : Word, step s = .next { s with agenda := rest, reply := some ⟨.okay, some w⟩ } ∧
        w.extractLsb' (8 * (i % 4)) 8 = s.bufs.symBuf.get i) ∧
    (i < s.params.outCap → s.agenda = .memRead (BitVec.ofNat 19 (0x20000 + 4 * (i / 4))) 4 :: rest →
      ∃ w : Word, step s = .next { s with agenda := rest, reply := some ⟨.okay, some w⟩ } ∧
        w.extractLsb' (8 * (i % 4)) 8 = s.bufs.outBuf.get i) ∧
    (∀ v : Word, i < s.params.textCap → s.agenda = .memWrite (BitVec.ofNat 19 (0x10000 + 4 * (i / 4))) 4 v :: rest →
      ∃ t, step s = .next t ∧
        (∀ j, t.bufs.symBuf.get j = if j / 4 = i / 4 then v.extractLsb' (8 * (j % 4)) 8 else s.bufs.symBuf.get j) ∧
        t = { s with bufs := { s.bufs with symBuf := t.bufs.symBuf }, agenda := rest, reply := some ⟨.okay, none⟩ })

/-- R79, R81: the windows of HUF_BUF, DAT_BUF and EFLAG_BUF, 32 bits a word. -/
def Obligations.BitWindows : Prop :=
  ∀ (s : State) (i : Nat) (rest : List Event), s.status.busy = false → s.params.legal = true →
    (i < s.params.bitCap → s.agenda = .memRead (BitVec.ofNat 19 (0x30000 + 4 * (i / 32))) 4 :: rest →
      ∃ w : Word, step s = .next { s with agenda := rest, reply := some ⟨.okay, some w⟩ } ∧
        w.getLsbD (i % 32) = s.bufs.hufBuf.get i) ∧
    (i < s.params.bitCap → s.agenda = .memRead (BitVec.ofNat 19 (0x40000 + 4 * (i / 32))) 4 :: rest →
      ∃ w : Word, step s = .next { s with agenda := rest, reply := some ⟨.okay, some w⟩ } ∧
        w.getLsbD (i % 32) = s.bufs.datBuf.get i) ∧
    (i < s.params.blkCap → s.agenda = .memRead (BitVec.ofNat 19 (0x70000 + 4 * (i / 32))) 4 :: rest →
      ∃ w : Word, step s = .next { s with agenda := rest, reply := some ⟨.okay, some w⟩ } ∧
        w.getLsbD (i % 32) = s.bufs.eflagBuf.get i) ∧
    (∀ v : Word, i < s.params.bitCap → s.agenda = .memWrite (BitVec.ofNat 19 (0x30000 + 4 * (i / 32))) 4 v :: rest →
      ∃ t, step s = .next t ∧
        (∀ j, t.bufs.hufBuf.get j = if j / 32 = i / 32 then v.getLsbD (j % 32) else s.bufs.hufBuf.get j) ∧
        t = { s with bufs := { s.bufs with hufBuf := t.bufs.hufBuf }, agenda := rest, reply := some ⟨.okay, none⟩ }) ∧
    (∀ v : Word, i < s.params.bitCap → s.agenda = .memWrite (BitVec.ofNat 19 (0x40000 + 4 * (i / 32))) 4 v :: rest →
      ∃ t, step s = .next t ∧
        (∀ j, t.bufs.datBuf.get j = if j / 32 = i / 32 then v.getLsbD (j % 32) else s.bufs.datBuf.get j) ∧
        t = { s with bufs := { s.bufs with datBuf := t.bufs.datBuf }, agenda := rest, reply := some ⟨.okay, none⟩ })

/-- R70, R80: the windows of CW_BUF and RX_BUF, one codeword a byte, bit 7 of each byte reserved. -/
def Obligations.CodewordWindows : Prop :=
  ∀ (s : State) (i : Nat) (rest : List Event), s.status.busy = false → s.params.legal = true → i < s.params.blkCap →
    (s.agenda = .memRead (BitVec.ofNat 19 (0x50000 + 4 * (i / 4))) 4 :: rest →
      ∃ w : Word, step s = .next { s with agenda := rest, reply := some ⟨.okay, some w⟩ } ∧
        w.extractLsb' (8 * (i % 4)) 7 = s.bufs.cwBuf.get i ∧ w.getLsbD (8 * (i % 4) + 7) = false) ∧
    (s.agenda = .memRead (BitVec.ofNat 19 (0x60000 + 4 * (i / 4))) 4 :: rest →
      ∃ w : Word, step s = .next { s with agenda := rest, reply := some ⟨.okay, some w⟩ } ∧
        w.extractLsb' (8 * (i % 4)) 7 = s.bufs.rxBuf.get i ∧ w.getLsbD (8 * (i % 4) + 7) = false) ∧
    (∀ v : Word, s.agenda = .memWrite (BitVec.ofNat 19 (0x50000 + 4 * (i / 4))) 4 v :: rest →
      ∃ t, step s = .next t ∧
        (∀ j, t.bufs.cwBuf.get j = if j / 4 = i / 4 then v.extractLsb' (8 * (j % 4)) 7 else s.bufs.cwBuf.get j) ∧
        t = { s with bufs := { s.bufs with cwBuf := t.bufs.cwBuf }, agenda := rest, reply := some ⟨.okay, none⟩ }) ∧
    (∀ v : Word, s.agenda = .memWrite (BitVec.ofNat 19 (0x60000 + 4 * (i / 4))) 4 v :: rest →
      ∃ t, step s = .next t ∧
        (∀ j, t.bufs.rxBuf.get j = if j / 4 = i / 4 then v.extractLsb' (8 * (j % 4)) 7 else s.bufs.rxBuf.get j) ∧
        t = { s with bufs := { s.bufs with rxBuf := t.bufs.rxBuf }, agenda := rest, reply := some ⟨.okay, none⟩ })

/-- R82: FREQ_BUF element s is the whole word at 0x01000 + 4·s. -/
def Obligations.FrequencyWindow : Prop :=
  ∀ (s : State) (k : Nat) (rest : List Event), s.status.busy = false → k < 256 →
    s.agenda = .memRead (BitVec.ofNat 19 (0x1000 + 4 * k)) 4 :: rest →
    step s = .next { s with agenda := rest, reply := some ⟨.okay, some (s.bufs.freqBuf.get k)⟩ }

/-- R98: RUN m from an idle block ends with m's outcome: the state its completion leaves, and STATUS read back. -/
def Obligations.RunEndsWithTheOutcome : Prop :=
  ∀ (s : State) (i : Instr) (n k : Nat) (rest : List Event), s.status.busy = false →
    s.agenda = progRun n k i ++ rest →
    ∃ u, exec i { s.accept (encode i) with agenda := rest } = .next u ∧ u.status.busy = false ∧
      Sys2Proof.core.run (progRun n k i).length s = .next { u with reply := some ⟨.okay, some u.status.word⟩ }

/-- R99: TEXT from an idle block stores the text, and 0 in the rest of its last word, and sets SYM_LEN; nothing else
changes but the turn taken and the answer (log 5, log 7). -/
def Obligations.TextFillsSymBuf : Prop :=
  ∀ (s : State) (text : List Symbol) (rest : List Event), s.status.busy = false → s.params.legal = true →
    text.length ≤ s.params.textCap → s.agenda = progText text ++ rest →
    ∃ t : State, Sys2Proof.core.run (progText text).length s = .next t ∧ t.text = text ∧
      t.regs.symLen.toNat = text.length ∧
      (∀ k < 4 * ((text.length + 3) / 4), t.bufs.symBuf.get k = text.getD k 0#8) ∧
      (∀ k, 4 * ((text.length + 3) / 4) ≤ k → t.bufs.symBuf.get k = s.bufs.symBuf.get k) ∧
      t = { s with regs := { s.regs with symLen := t.regs.symLen }, bufs := { s.bufs with symBuf := t.bufs.symBuf },
                   agenda := rest, reply := some ⟨.okay, none⟩ }

/-- R99: BITS HUF and BITS DAT from an idle block store the bits, and 0 in the rest of the last word, and set HUF_LEN or
DAT_LEN; nothing else changes but the turn taken and the answer (log 5, log 7). -/
def Obligations.BitsFillHufAndDat : Prop :=
  ∀ (s : State) (bits : Bits) (rest : List Event), s.status.busy = false → s.params.legal = true →
    bits.length ≤ s.params.bitCap →
    (s.agenda = progBitsHuf bits ++ rest →
      ∃ t : State, Sys2Proof.core.run (progBitsHuf bits).length s = .next t ∧ t.hufBits = bits ∧
        t.regs.hufLen.toNat = bits.length ∧
        (∀ k < 32 * ((bits.length + 31) / 32), t.bufs.hufBuf.get k = bits.getD k false) ∧
        (∀ k, 32 * ((bits.length + 31) / 32) ≤ k → t.bufs.hufBuf.get k = s.bufs.hufBuf.get k) ∧
        t = { s with regs := { s.regs with hufLen := t.regs.hufLen }, bufs := { s.bufs with hufBuf := t.bufs.hufBuf },
                     agenda := rest, reply := some ⟨.okay, none⟩ }) ∧
    (s.agenda = progBitsDat bits ++ rest →
      ∃ t : State, Sys2Proof.core.run (progBitsDat bits).length s = .next t ∧ t.datBits = bits ∧
        t.regs.datLen.toNat = bits.length ∧
        (∀ k < 32 * ((bits.length + 31) / 32), t.bufs.datBuf.get k = bits.getD k false) ∧
        (∀ k, 32 * ((bits.length + 31) / 32) ≤ k → t.bufs.datBuf.get k = s.bufs.datBuf.get k) ∧
        t = { s with regs := { s.regs with datLen := t.regs.datLen }, bufs := { s.bufs with datBuf := t.bufs.datBuf },
                     agenda := rest, reply := some ⟨.okay, none⟩ })

/-! ### Invariants -/

/-- Every step keeps every buffer in canonical form. -/
def Obligations.StepKeepsBuffersCanonical : Prop :=
  ∀ s t : State, s.bufs.Canonical → step s = .next t → t.bufs.Canonical

/-- Every step keeps every buffer inside its capacity, and the capacities (R11, R48). -/
def Obligations.StepKeepsBuffersInBounds : Prop :=
  ∀ s t : State, s.params.legal = true → s.bufs.InBounds s.params → step s = .next t →
    t.params = s.params ∧ t.bufs.InBounds t.params

/-- Every step keeps the draws apart, and never takes a draw again (R58, R152). The draws are the model's own, log 2. -/
def Obligations.StepKeepsDrawsFresh : Prop :=
  ∀ s t : State, s.DrawsFresh → step s = .next t → t.DrawsFresh ∧ s.draws ≤ t.draws

/-- Every step keeps STATUS and CMD coherent (R28 to R33, R100, R102). -/
def Obligations.StepKeepsStatusCoherent : Prop :=
  ∀ s t : State, s.StatusCoherent → step s = .next t → t.StatusCoherent

/-- Every step keeps a valid table prefix-free (R31, R122), from every state, and CODES_VALID becomes 1 only by a
successful BUILD_CODES. -/
def Obligations.StepKeepsCodesSound : Prop :=
  (∀ s t : State, s.CodesSound → step s = .next t → t.CodesSound) ∧
  (∀ s t : State, s.status.codesValid = false → step s = .next t → t.status.codesValid = true →
    s.status.busy = true ∧ s.cmd = encode .buildCodes ∧ t.status.errCode = none)
end

