-- ==== Sys2Proof/Laws/HuffmanCost.lean ====
section
/-! SUPPORT. Optimality of repeatedly merging the two lightest weights (41_huffman.md R112, R123): no assignment of code
lengths that satisfies Kraft's inequality is cheaper. -/

namespace Sys2Proof.Machine

/-! ### Merging weights -/

/-- Inserts a weight into an ascending list. -/
def insertWeight (c : Nat) : List Nat → List Nat
  | [] => [c]
  | x :: xs => if c ≤ x then c :: x :: xs else x :: insertWeight c xs

theorem insertWeight_perm (c : Nat) (l : List Nat) : (insertWeight c l).Perm (c :: l) := by
  induction l with
  | nil => exact List.Perm.refl _
  | cons x xs ih =>
    simp only [insertWeight]
    split
    · exact List.Perm.refl _
    · exact ((List.Perm.cons x ih).trans (List.Perm.swap c x xs))

theorem insertWeight_sorted (c : Nat) {l : List Nat} (h : l.Pairwise (· ≤ ·)) :
    (insertWeight c l).Pairwise (· ≤ ·) := by
  induction l with
  | nil => simp [insertWeight]
  | cons x xs ih =>
    have h' := h
    rw [List.pairwise_cons] at h
    simp only [insertWeight]
    split
    · rename_i hcx
      rw [List.pairwise_cons]
      refine ⟨?_, h'⟩
      intro y hy
      rcases List.mem_cons.1 hy with rfl | hy
      · exact hcx
      · exact hcx.trans (h.1 y hy)
    · rename_i hcx
      rw [List.pairwise_cons]
      refine ⟨?_, ih h.2⟩
      intro y hy
      rcases List.mem_cons.1 ((insertWeight_perm c xs).mem_iff.1 hy) with rfl | hy
      · omega
      · exact h.1 y hy

/-- The cost of merging the two lightest weights again and again: the sum of the weights made. -/
def mergeCost : (steps : Nat) → List Nat → Nat
  | steps + 1, a :: b :: rest => (a + b) + mergeCost steps (insertWeight (a + b) rest)
  | _, _ => 0

/-! ### Assignments of lengths -/

/-- The cost of an assignment, a list of (weight, length) pairs. -/
def costOf (l : List (Nat × Nat)) : Nat := (l.map fun p => p.1 * p.2).sum

/-- Kraft's inequality for the lengths of an assignment, scaled by 2^n. -/
def Kraft (n : Nat) (l : List (Nat × Nat)) : Prop :=
  (∀ p ∈ l, p.2 ≤ n) ∧ (l.map fun p => 2 ^ (n - p.2)).sum ≤ 2 ^ n

theorem costOf_perm {l l' : List (Nat × Nat)} (h : l.Perm l') : costOf l = costOf l' := (h.map _).sum_eq

theorem Kraft.perm {n : Nat} {l l' : List (Nat × Nat)} (h : Kraft n l) (hp : l.Perm l') : Kraft n l' :=
  ⟨fun p hp' => h.1 p (hp.mem_iff.2 hp'), by rw [← (hp.map _).sum_eq]; exact h.2⟩

/-- Kraft's inequality does not depend on the scale. -/
theorem Kraft.scale {n m : Nat} {l : List (Nat × Nat)} (h : Kraft n l) (hm : ∀ p ∈ l, p.2 ≤ m) : Kraft m l := by
  refine ⟨hm, ?_⟩
  obtain ⟨h1, h2⟩ := h
  have key : 2 ^ m * (l.map fun p => 2 ^ (n - p.2)).sum = 2 ^ n * (l.map fun p => 2 ^ (m - p.2)).sum := by
    rw [← List.sum_map_mul_left, ← List.sum_map_mul_left]
    congr 1
    apply List.map_congr_left
    intro p hp
    have a := h1 p hp
    have b := hm p hp
    rw [← pow_add, ← pow_add]
    congr 1; omega
  have hpos : 0 < 2 ^ n := by positivity
  have : 2 ^ n * (l.map fun p => 2 ^ (m - p.2)).sum ≤ 2 ^ n * 2 ^ m := by
    rw [← key, Nat.mul_comm (2 ^ n)]
    exact Nat.mul_le_mul_left _ h2
  exact Nat.le_of_mul_le_mul_left this hpos

/-- An element of largest length. -/
theorem exists_longest (l : List (Nat × Nat)) (h : l ≠ []) : ∃ q ∈ l, ∀ p ∈ l, p.2 ≤ q.2 := by
  induction l with
  | nil => exact absurd rfl h
  | cons a l ih =>
    by_cases hl : l = []
    · subst hl; exact ⟨a, by simp, by simp⟩
    · obtain ⟨q, hq, hmax⟩ := ih hl
      by_cases hc : a.2 ≤ q.2
      · refine ⟨q, List.mem_cons_of_mem _ hq, ?_⟩
        intro p hp
        rcases List.mem_cons.1 hp with rfl | hp
        · exact hc
        · exact hmax p hp
      · refine ⟨a, List.mem_cons_self, ?_⟩
        intro p hp
        rcases List.mem_cons.1 hp with rfl | hp
        · exact le_refl _
        · exact (hmax p hp).trans (by omega)

/-- Giving the largest length to the smallest weight costs no more and keeps the weights and the lengths. -/
theorem exchange_longest {a : Nat} {w : List Nat} {l : List (Nat × Nat)} (hw : (l.map Prod.fst).Perm (a :: w))
    (hmin : ∀ x ∈ w, a ≤ x) :
    ∃ d r, (r.map Prod.fst).Perm w ∧ (d :: r.map Prod.snd).Perm (l.map Prod.snd) ∧ (∀ p ∈ r, p.2 ≤ d) ∧
      costOf ((a, d) :: r) ≤ costOf l := by
  have hne : l ≠ [] := by rintro rfl; simpa using hw.length_eq
  have ha : a ∈ l.map Prod.fst := hw.mem_iff.2 List.mem_cons_self
  obtain ⟨⟨a', da⟩, hma, rfl⟩ := List.mem_map.1 ha
  obtain ⟨l1, hl1⟩ : ∃ l1, l.Perm ((a', da) :: l1) := ⟨_, List.perm_cons_erase hma⟩
  have hw1 : (l1.map Prod.fst).Perm w := by
    have := (hl1.map Prod.fst).symm.trans hw
    simpa using this
  obtain ⟨⟨c, d⟩, hcd, hmax⟩ := exists_longest l hne
  rcases List.mem_cons.1 (hl1.mem_iff.1 hcd) with heq | hin
  · -- the smallest weight has the largest length already
    cases heq
    refine ⟨da, l1, hw1, ?_, ?_, ?_⟩
    · simpa using (hl1.map Prod.snd).symm
    · intro p hp; exact hmax p (hl1.mem_iff.2 (List.mem_cons_of_mem _ hp))
    · rw [costOf_perm hl1]
  · obtain ⟨l2, hl2⟩ : ∃ l2, l1.Perm ((c, d) :: l2) := ⟨_, List.perm_cons_erase hin⟩
    have hac : a' ≤ c := hmin c (hw1.mem_iff.1 (List.mem_map.2 ⟨(c, d), hin, rfl⟩))
    have hdd : da ≤ d := hmax (a', da) hma
    refine ⟨d, (c, da) :: l2, ?_, ?_, ?_, ?_⟩
    · have h2 : (((c, da) :: l2).map Prod.fst).Perm (l1.map Prod.fst) := (hl2.map Prod.fst).symm
      exact h2.trans hw1
    · have h1 : (l.map Prod.snd).Perm (da :: d :: l2.map Prod.snd) := by
        have := (hl1.trans (List.Perm.cons _ hl2)).map Prod.snd
        simpa using this
      exact (List.Perm.swap da d (l2.map Prod.snd)).trans h1.symm
    · intro p hp
      rcases List.mem_cons.1 hp with rfl | hp
      · exact hdd
      · exact hmax p (hl1.mem_iff.2 (List.mem_cons_of_mem _ (hl2.mem_iff.2 (List.mem_cons_of_mem _ hp))))
    · rw [costOf_perm (hl1.trans (List.Perm.cons _ hl2))]
      simp only [costOf, List.map_cons, List.sum_cons]
      obtain ⟨x, rfl⟩ := Nat.exists_eq_add_of_le hac
      obtain ⟨y, rfl⟩ := Nat.exists_eq_add_of_le hdd
      nlinarith [Nat.zero_le (x * y)]

theorem kraft_of_snd_perm {n : Nat} {l l' : List (Nat × Nat)} (h : Kraft n l)
    (hp : (l'.map Prod.snd).Perm (l.map Prod.snd)) : Kraft n l' := by
  obtain ⟨h1, h2⟩ := h
  constructor
  · intro p hp'
    have : p.2 ∈ l.map Prod.snd := hp.mem_iff.1 (List.mem_map.2 ⟨p, hp', rfl⟩)
    obtain ⟨q, hq, hqp⟩ := List.mem_map.1 this
    rw [← hqp]; exact h1 q hq
  · have := ((hp.map fun d => 2 ^ (n - d)).sum_eq)
    simp only [List.map_map, Function.comp_def] at this
    rw [this]; exact h2

/-- Every term below the largest length is even on the scale of that length. -/
theorem two_dvd_sum {d : Nat} {r : List (Nat × Nat)} (h : ∀ p ∈ r, p.2 < d) : 2 ∣ (r.map fun p => 2 ^ (d - p.2)).sum := by
  apply List.dvd_sum
  intro x hx
  obtain ⟨p, hp, rfl⟩ := List.mem_map.1 hx
  exact dvd_pow_self 2 (by have := h p hp; omega)

/-- Merging the two lightest weights is optimal: no assignment that satisfies Kraft's inequality costs less. -/
theorem mergeCost_le {k n : Nat} {ws : List Nat} {l : List (Nat × Nat)} (hlen : ws.length = k + 1)
    (hs : ws.Pairwise (· ≤ ·)) (hw : (l.map Prod.fst).Perm ws) (hk : Kraft n l) : mergeCost k ws ≤ costOf l := by
  induction k generalizing n ws l with
  | zero => simp [mergeCost]
  | succ k ih =>
    match ws, hlen with
    | a :: b :: rest, hlen =>
      rw [List.pairwise_cons, List.pairwise_cons] at hs
      obtain ⟨hsa, hsb, hsr⟩ := hs
      -- the lightest weight takes the largest length
      obtain ⟨da, r, hr, hsnd, hmax, hc1⟩ := exchange_longest hw hsa
      have hk1 : Kraft n ((a, da) :: r) := kraft_of_snd_perm hk (by simpa using hsnd)
      -- the next one takes the largest of the rest
      obtain ⟨db, q, hq, hsnd2, hmax2, hc2⟩ := exchange_longest hr hsb
      have hba : db ≤ da := by
        have : db ∈ r.map Prod.snd := hsnd2.mem_iff.1 List.mem_cons_self
        obtain ⟨p, hp, rfl⟩ := List.mem_map.1 this
        exact hmax p hp
      have hk2 : Kraft n ((a, da) :: (b, db) :: q) :=
        kraft_of_snd_perm hk1 (by simpa using List.Perm.cons da hsnd2)
      have hk3 : Kraft da ((a, da) :: (b, db) :: q) := hk2.scale (by
        intro p hp
        rcases List.mem_cons.1 hp with rfl | hp
        · exact le_refl _
        · rcases List.mem_cons.1 hp with rfl | hp
          · exact hba
          · exact (hmax2 p hp).trans hba)
      have hc3 : costOf ((a, db) :: (b, db) :: q) ≤ costOf l := by
        have e1 : costOf ((b, db) :: q) ≤ costOf r := hc2
        have e2 : a * db ≤ a * da := Nat.mul_le_mul_left _ hba
        simp only [costOf, List.map_cons, List.sum_cons] at hc1 e1 ⊢
        omega
      -- so both may have the same largest length
      have hk4 : Kraft db ((a, db) :: (b, db) :: q) := by
        refine ⟨?_, ?_⟩
        · intro p hp
          rcases List.mem_cons.1 hp with rfl | hp
          · exact le_refl _
          · rcases List.mem_cons.1 hp with rfl | hp
            · exact le_refl _
            · exact hmax2 p hp
        · rcases Nat.lt_or_eq_of_le hba with hlt | heq
          · have hscaled : (((b, db) :: q).map fun p => 2 ^ (da - p.2)).sum =
                2 ^ (da - db) * (((b, db) :: q).map fun p => 2 ^ (db - p.2)).sum := by
              rw [← List.sum_map_mul_left]
              congr 1
              apply List.map_congr_left
              intro p hp
              have hp2 : p.2 ≤ db := by
                rcases List.mem_cons.1 hp with rfl | hp
                · exact le_refl _
                · exact hmax2 p hp
              rw [← pow_add]; congr 1; omega
            have hsum := hk3.2
            rw [List.map_cons, List.sum_cons, hscaled] at hsum
            have hone : 2 ^ (da - da) = 1 := by simp
            simp only [hone] at hsum
            have hsplit : 2 ^ da = 2 ^ (da - db) * 2 ^ db := by rw [← pow_add]; congr 1; omega
            rw [hsplit] at hsum
            have hlt2 : (((b, db) :: q).map fun p => 2 ^ (db - p.2)).sum < 2 ^ db :=
              Nat.lt_of_mul_lt_mul_left (a := 2 ^ (da - db)) (by omega)
            simp only [List.map_cons, List.sum_cons, Nat.sub_self, pow_zero] at hlt2 ⊢
            omega
          · subst heq
            exact hk3.2
      -- and may be merged into one of length one less
      have hpos : 1 ≤ db := by
        rcases Nat.eq_zero_or_pos db with h0 | h0
        · have := hk4.2
          rw [h0] at this
          simp at this
        · exact h0
      have hk5 : Kraft db ((a + b, db - 1) :: q) := by
        refine ⟨?_, ?_⟩
        · intro p hp
          rcases List.mem_cons.1 hp with rfl | hp
          · simp
          · exact hmax2 p hp
        · have h2 := hk4.2
          simp only [List.map_cons, List.sum_cons, Nat.sub_self, pow_zero] at h2 ⊢
          have : db - (db - 1) = 1 := by omega
          rw [this]; omega
      have hperm : (((a + b, db - 1) :: q).map Prod.fst).Perm (insertWeight (a + b) rest) := by
        rw [List.map_cons]
        exact (List.Perm.cons _ hq).trans (insertWeight_perm _ _).symm
      have hl' : (insertWeight (a + b) rest).length = k + 1 := by
        rw [(insertWeight_perm _ _).length_eq]; simp only [List.length_cons] at hlen ⊢; omega
      have := ih hl' (insertWeight_sorted _ hsr) hperm hk5
      refine le_trans ?_ hc3
      simp only [mergeCost]
      simp only [costOf, List.map_cons, List.sum_cons] at this ⊢
      obtain ⟨e, rfl⟩ : ∃ e, db = e + 1 := ⟨db - 1, by omega⟩
      simp only [Nat.add_sub_cancel] at this
      nlinarith

end Sys2Proof.Machine
end

