-- ==== Sys2Proof/Laws/Huffman.lean ====
section
/-! SUPPORT. The Huffman tree builder and its code tables (41_huffman.md R110 to R114, R122, R124): what the pool, the
tree and the table are. -/

namespace Sys2Proof.Machine

/-! ### Trees -/

/-- The leaves of a tree, as (symbol, weight) pairs from left to right. -/
def HuffTree.leafList : HuffTree → List (Symbol × Nat)
  | .leaf w _ x => [(x, w)]
  | .node _ _ l r => l.leafList ++ r.leafList

/-- Every internal node weighs what its children weigh together (R17). -/
def HuffTree.Weighed : HuffTree → Prop
  | .leaf _ _ _ => True
  | .node w _ l r => w = l.weight + r.weight ∧ l.Weighed ∧ r.Weighed

/-- The sum of the weights of the internal nodes. -/
def HuffTree.innerWeight : HuffTree → Nat
  | .leaf _ _ _ => 0
  | .node w _ l r => w + (l.innerWeight + r.innerWeight)

@[simp] theorem HuffTree.weight_leaf (w n : Nat) (x : Symbol) : (HuffTree.leaf w n x).weight = w := rfl

@[simp] theorem HuffTree.weight_node (w n : Nat) (l r : HuffTree) : (HuffTree.node w n l r).weight = w := rfl

theorem HuffTree.leafList_ne_nil (t : HuffTree) : t.leafList ≠ [] := by
  induction t with
  | leaf => simp [HuffTree.leafList]
  | node _ _ l r ihl _ => simp [HuffTree.leafList, ihl]

theorem HuffTree.paths_keys (t : HuffTree) (p : Bits) : (t.paths p).map Prod.fst = t.leafList.map Prod.fst := by
  induction t generalizing p with
  | leaf => simp [HuffTree.paths, HuffTree.leafList]
  | node _ _ l r ihl ihr => simp [HuffTree.paths, HuffTree.leafList, ihl, ihr]

theorem HuffTree.paths_length (t : HuffTree) (p : Bits) : (t.paths p).length = t.leafList.length := by
  have := congrArg List.length (t.paths_keys p)
  simpa using this

/-- Every path of a subtree begins with the path to it. -/
theorem HuffTree.prefix_of_mem_paths {t : HuffTree} {p : Bits} {e : Symbol × Bits} (h : e ∈ t.paths p) :
    p <+: e.2 := by
  induction t generalizing p with
  | leaf => simp [HuffTree.paths] at h; subst h; exact List.prefix_refl _
  | node _ _ l r ihl ihr =>
    simp only [HuffTree.paths, List.mem_append] at h
    rcases h with h | h
    · exact (List.prefix_append p [false]).trans (ihl h)
    · exact (List.prefix_append p [true]).trans (ihr h)

/-- A leaf is at most as deep as there are other leaves (R124). -/
theorem HuffTree.length_of_mem_paths {t : HuffTree} {p : Bits} {e : Symbol × Bits} (h : e ∈ t.paths p) :
    e.2.length + 1 ≤ p.length + t.leafList.length := by
  induction t generalizing p with
  | leaf => simp [HuffTree.paths] at h; subst h; simp [HuffTree.leafList]
  | node _ _ l r ihl ihr =>
    simp only [HuffTree.paths, List.mem_append] at h
    have hl := List.length_pos_iff.2 l.leafList_ne_nil
    have hr := List.length_pos_iff.2 r.leafList_ne_nil
    rcases h with h | h
    · have := ihl h
      simp only [List.length_append, List.length_cons, List.length_nil, HuffTree.leafList] at this ⊢
      omega
    · have := ihr h
      simp only [List.length_append, List.length_cons, List.length_nil, HuffTree.leafList] at this ⊢
      omega

/-- Two bit strings that part at the same place are no prefixes of each other. -/
theorem not_prefix_of_part {p q r : Bits} {b : Bool} (hq : p ++ [b] <+: q) (hr : p ++ [!b] <+: r) : ¬ q <+: r := by
  rintro ⟨s, rfl⟩
  obtain ⟨q', rfl⟩ := hq
  obtain ⟨r', hr'⟩ := hr
  simp only [List.append_assoc, List.append_cancel_left_eq, List.cons_append, List.nil_append, List.cons.injEq] at hr'
  exact absurd hr'.1 (by simp)

/-- Paths to different leaves are no prefixes of each other (R122). -/
theorem HuffTree.paths_prefixFree (t : HuffTree) (p : Bits) :
    (t.paths p).Pairwise fun a b => ¬ a.2 <+: b.2 ∧ ¬ b.2 <+: a.2 := by
  induction t generalizing p with
  | leaf => simp [HuffTree.paths]
  | node _ _ l r ihl ihr =>
    simp only [HuffTree.paths, List.pairwise_append]
    refine ⟨ihl _, ihr _, ?_⟩
    intro a ha b hb
    have h1 := HuffTree.prefix_of_mem_paths ha
    have h2 := HuffTree.prefix_of_mem_paths hb
    exact ⟨not_prefix_of_part (b := false) h1 h2, not_prefix_of_part (b := true) h2 h1⟩

/-- The weighted path length of a tree is the weight of its internal nodes. -/
theorem HuffTree.sum_paths {t : HuffTree} (f : Symbol → Nat) (hw : t.Weighed) (hf : ∀ e ∈ t.leafList, e.2 = f e.1)
    (p : Bits) :
    ((t.paths p).map fun e => f e.1 * e.2.length).sum = t.innerWeight + t.weight * p.length := by
  induction t generalizing p with
  | leaf w n x =>
    have := hf (x, w) (by simp [HuffTree.leafList])
    simp only at this
    simp [HuffTree.paths, HuffTree.innerWeight, HuffTree.weight, this]
  | node w n l r ihl ihr =>
    obtain ⟨hw1, hwl, hwr⟩ := hw
    have hl := ihl hwl (fun e he => hf e (by simp [HuffTree.leafList, he])) (p ++ [false])
    have hr := ihr hwr (fun e he => hf e (by simp [HuffTree.leafList, he])) (p ++ [true])
    simp only [HuffTree.paths, List.map_append, List.sum_append, hl, hr, HuffTree.innerWeight, HuffTree.weight_node,
      List.length_append, List.length_cons, List.length_nil]
    rw [hw1]
    ring

/-! ### The pool -/

theorem insertNode_perm (c : HuffTree) (pool : List HuffTree) : (insertNode c pool).Perm (c :: pool) := by
  induction pool with
  | nil => exact List.Perm.refl _
  | cons x xs ih =>
    simp only [insertNode]
    split
    · exact List.Perm.refl _
    · exact (List.Perm.cons x ih).trans (List.Perm.swap c x xs)

@[simp] theorem insertNode_length (c : HuffTree) (pool : List HuffTree) :
    (insertNode c pool).length = pool.length + 1 := by
  simpa using (insertNode_perm c pool).length_eq

theorem insertNode_sorted (c : HuffTree) {pool : List HuffTree}
    (h : (pool.map HuffTree.weight).Pairwise (· ≤ ·)) :
    ((insertNode c pool).map HuffTree.weight).Pairwise (· ≤ ·) := by
  induction pool with
  | nil => simp [insertNode]
  | cons x xs ih =>
    have h' := h
    rw [List.map_cons, List.pairwise_cons] at h
    simp only [insertNode]
    split
    · rename_i hp
      have hcx : c.weight ≤ x.weight := by
        simp only [HuffTree.precedes, Bool.or_eq_true, decide_eq_true_eq, Bool.and_eq_true, beq_iff_eq] at hp
        omega
      rw [List.map_cons, List.pairwise_cons]
      refine ⟨?_, h'⟩
      intro y hy
      rw [List.map_cons] at hy
      rcases List.mem_cons.1 hy with rfl | hy
      · exact hcx
      · exact hcx.trans (h.1 y hy)
    · rename_i hp
      have hxc : x.weight ≤ c.weight := by
        simp only [HuffTree.precedes, Bool.or_eq_true, decide_eq_true_eq, Bool.and_eq_true, beq_iff_eq] at hp
        omega
      rw [List.map_cons, List.pairwise_cons]
      refine ⟨?_, ih h.2⟩
      intro y hy
      rcases List.mem_cons.1 (((insertNode_perm c xs).map HuffTree.weight).mem_iff.1 hy) with rfl | hy
      · exact hxc
      · exact h.1 y hy

theorem insertNode_weights (c : HuffTree) {pool : List HuffTree}
    (h : (pool.map HuffTree.weight).Pairwise (· ≤ ·)) :
    (insertNode c pool).map HuffTree.weight = insertWeight c.weight (pool.map HuffTree.weight) := by
  refine List.Perm.eq_of_pairwise (le := (· ≤ ·)) (fun a b _ _ hab hba => le_antisymm hab hba)
    (insertNode_sorted c h) (insertWeight_sorted _ h) ?_
  exact ((insertNode_perm c pool).map _).trans (by simpa using (insertWeight_perm c.weight _).symm)

/-- What merging does to a pool of weighed trees in ascending weight: one tree is left, with the leaves of all of them,
and the weights it adds are the merge cost. -/
theorem mergePool_spec (steps next : Nat) (pool : List HuffTree) (hlen : pool.length = steps + 1)
    (hs : (pool.map HuffTree.weight).Pairwise (· ≤ ·)) (hw : ∀ t ∈ pool, t.Weighed) :
    ∃ t, mergePool steps next pool = [t] ∧ t.Weighed ∧
      t.leafList.Perm (pool.flatMap HuffTree.leafList) ∧
      t.innerWeight = (pool.map HuffTree.innerWeight).sum + mergeCost steps (pool.map HuffTree.weight) ∧
      t.weight = (pool.map HuffTree.weight).sum := by
  induction steps generalizing next pool with
  | zero =>
    match pool, hlen with
    | [t], _ => exact ⟨t, by simp [mergePool], hw t (by simp), by simp, by simp [mergeCost], by simp⟩
  | succ steps ih =>
    match pool, hlen with
    | a :: b :: rest, hlen =>
      have hs' : (rest.map HuffTree.weight).Pairwise (· ≤ ·) := by
        simp only [List.map_cons, List.pairwise_cons] at hs
        exact hs.2.2
      let c : HuffTree := .node (a.weight + b.weight) next a b
      have hcw : c.Weighed := ⟨rfl, hw a (by simp), hw b (by simp)⟩
      obtain ⟨t, h1, h2, h3, h4, h5⟩ := ih (next + 1) (insertNode c rest)
        (by simp only [insertNode_length, List.length_cons] at hlen ⊢; omega)
        (insertNode_sorted c hs') (by
          intro t ht
          rcases List.mem_cons.1 ((insertNode_perm c rest).mem_iff.1 ht) with rfl | ht
          · exact hcw
          · exact hw t (by simp [ht]))
      refine ⟨t, by rw [mergePool]; exact h1, h2, ?_, ?_, ?_⟩
      · refine h3.trans (((insertNode_perm c rest).flatMap_right _).trans ?_)
        simp [c, HuffTree.leafList]
      · rw [h4, ((insertNode_perm c rest).map HuffTree.innerWeight).sum_eq, insertNode_weights c hs']
        simp only [List.map_cons, List.sum_cons, mergeCost, c, HuffTree.innerWeight, HuffTree.weight]
        omega
      · rw [h5, ((insertNode_perm c rest).map HuffTree.weight).sum_eq]
        simp only [List.map_cons, List.sum_cons, c, HuffTree.weight]
        omega

/-! ### The initial leaves -/

theorem leavesFrom_leafList (f : Nat → Nat) (l : List Nat) (n : Nat) :
    (leavesFrom f l n).flatMap HuffTree.leafList =
      (l.filter fun s => 0 < f s).map fun s => (BitVec.ofNat 8 s, f s) := by
  induction l generalizing n with
  | nil => simp [leavesFrom]
  | cons s rest ih =>
    simp only [leavesFrom]
    split
    · rename_i h; simp [HuffTree.leafList, h, ih]
    · rename_i h; simp [h, ih]

theorem leavesFrom_weighed (f : Nat → Nat) (l : List Nat) (n : Nat) :
    ∀ t ∈ leavesFrom f l n, t.Weighed ∧ t.innerWeight = 0 ∧ ∃ w m x, t = .leaf w m x := by
  induction l generalizing n with
  | nil => simp [leavesFrom]
  | cons s rest ih =>
    simp only [leavesFrom]
    split
    · intro t ht
      rcases List.mem_cons.1 ht with rfl | ht
      · exact ⟨trivial, rfl, _, _, _, rfl⟩
      · exact ih _ t ht
    · exact ih n

theorem leavesFrom_length (f : Nat → Nat) (l : List Nat) (n : Nat) :
    (leavesFrom f l n).length = (l.filter fun s => 0 < f s).length := by
  induction l generalizing n with
  | nil => simp [leavesFrom]
  | cons s rest ih =>
    simp only [leavesFrom]
    split
    · rename_i h; simp [h, ih]
    · rename_i h; simp [h, ih]

theorem foldr_insertNode_perm (l : List HuffTree) : (l.foldr insertNode []).Perm l := by
  induction l with
  | nil => exact List.Perm.refl _
  | cons x xs ih => exact (insertNode_perm x _).trans (List.Perm.cons x ih)

theorem foldr_insertNode_sorted (l : List HuffTree) :
    ((l.foldr insertNode []).map HuffTree.weight).Pairwise (· ≤ ·) := by
  induction l with
  | nil => simp
  | cons x xs ih => exact insertNode_sorted x ih

/-- The symbols that occur, with their counts, in ascending symbol value (R110, R111). -/
def occurring (f : Nat → Nat) : List (Symbol × Nat) :=
  ((List.range alphabet).filter fun s => 0 < f s).map fun s => (BitVec.ofNat 8 s, f s)

theorem leaves_length (f : Nat → Nat) : (leaves f).length = (occurring f).length := by
  simp [leaves, occurring, leavesFrom_length]

theorem occurring_keys_nodup (f : Nat → Nat) : ((occurring f).map Prod.fst).Nodup := by
  simp only [occurring, List.map_map, Function.comp_def]
  refine (List.nodup_map_iff_inj_on ((List.nodup_range (n := alphabet)).filter _)).2 ?_
  intro a ha b hb hab
  have ha' := List.mem_range.1 (List.mem_filter.1 ha).1
  have hb' := List.mem_range.1 (List.mem_filter.1 hb).1
  have := congrArg BitVec.toNat hab
  simp only [BitVec.toNat_ofNat, alphabet] at this ha' hb'
  omega

theorem mem_occurring {f : Nat → Nat} {x : Symbol} {w : Nat} :
    (x, w) ∈ occurring f ↔ 0 < f x.toNat ∧ w = f x.toNat := by
  simp only [occurring, List.mem_map, List.mem_filter, List.mem_range, Prod.mk.injEq, alphabet, decide_eq_true_eq]
  constructor
  · rintro ⟨s, ⟨h1, h2⟩, rfl, rfl⟩
    have : (BitVec.ofNat 8 s).toNat = s := by simp; omega
    rw [this]; exact ⟨h2, rfl⟩
  · rintro ⟨h1, rfl⟩
    exact ⟨x.toNat, ⟨x.isLt, h1⟩, by simp, rfl⟩

theorem occurring_length_le (f : Nat → Nat) : (occurring f).length ≤ 256 := by
  simp only [occurring, List.length_map]
  exact (List.length_filter_le _ _).trans (by simp [alphabet])

/-- BUILD_TREE (R112): a weighed tree whose leaves are the symbols that occur with their counts, and whose internal
weights are the merge cost of the sorted counts. -/
theorem buildTree_spec {f : Nat → Nat} (h : occurring f ≠ []) :
    ∃ t ws, buildTree f = some t ∧ t.Weighed ∧ t.leafList.Perm (occurring f) ∧
      ws.Perm ((occurring f).map Prod.snd) ∧ ws.Pairwise (· ≤ ·) ∧
      t.innerWeight = mergeCost ((occurring f).length - 1) ws := by
  have hperm := foldr_insertNode_perm (leaves f)
  have hpos := List.length_pos_iff.2 h
  have hleaf := leavesFrom_weighed f (List.range alphabet) 0
  have hflat : (leaves f).flatMap HuffTree.leafList = occurring f := leavesFrom_leafList f _ 0
  obtain ⟨t, h1, h2, h3, h4, _⟩ := mergePool_spec ((leaves f).length - 1) (leaves f).length
    ((leaves f).foldr insertNode []) (by rw [hperm.length_eq, leaves_length]; omega)
    (foldr_insertNode_sorted _) (fun t ht => (hleaf t (hperm.mem_iff.1 ht)).1)
  refine ⟨t, ((leaves f).foldr insertNode []).map HuffTree.weight, ?_, h2, ?_, ?_, foldr_insertNode_sorted _, ?_⟩
  · simp only [buildTree, h1, List.head?_cons]
  · exact h3.trans ((hperm.flatMap_right _).trans (by rw [hflat]))
  · refine (hperm.map _).trans ?_
    rw [← hflat, List.map_flatMap]
    have : (leaves f).map HuffTree.weight = (leaves f).flatMap fun t => t.leafList.map Prod.snd := by
      rw [← List.flatMap_singleton' ((leaves f).map HuffTree.weight), List.flatMap_map]
      apply List.flatMap_congr
      intro t ht
      obtain ⟨_, _, w, m, x, rfl⟩ := hleaf t ht
      simp [HuffTree.leafList]
    rw [this]
  · rw [h4, leaves_length]
    have : (((leaves f).foldr insertNode []).map HuffTree.innerWeight).sum = 0 := by
      rw [List.sum_eq_zero_iff]
      intro n hn
      obtain ⟨t, ht, rfl⟩ := List.mem_map.1 hn
      exact (hleaf t (hperm.mem_iff.1 ht)).2.1
    rw [this, Nat.zero_add]

/-! ### The codes of a tree -/

theorem deriveCodes_keys (t : HuffTree) : (deriveCodes t).map Prod.fst = t.leafList.map Prod.fst := by
  cases t with
  | leaf => rfl
  | node w n l r => exact HuffTree.paths_keys _ _

theorem deriveCodes_length {t : HuffTree} {e : Symbol × Bits} (h : e ∈ deriveCodes t) :
    1 ≤ e.2.length ∧ (e.2.length = 1 ∨ e.2.length + 1 ≤ t.leafList.length) := by
  cases t with
  | leaf => simp [deriveCodes] at h; subst h; simp
  | node w n l r =>
    have h1 := HuffTree.length_of_mem_paths h
    refine ⟨?_, Or.inr (by simpa using h1)⟩
    simp only [deriveCodes, HuffTree.paths, List.mem_append, List.nil_append] at h
    rcases h with h | h
    · exact (HuffTree.prefix_of_mem_paths h).length_le
    · exact (HuffTree.prefix_of_mem_paths h).length_le

theorem deriveCodes_prefixFree (t : HuffTree) :
    (deriveCodes t).Pairwise fun a b => ¬ a.2 <+: b.2 ∧ ¬ b.2 <+: a.2 := by
  cases t with
  | leaf => simp [deriveCodes]
  | node w n l r => exact HuffTree.paths_prefixFree _ _

theorem deriveCodes_cost {t : HuffTree} (f : Symbol → Nat) (hw : t.Weighed) (hf : ∀ e ∈ t.leafList, e.2 = f e.1)
    (h2 : 2 ≤ t.leafList.length) : ((deriveCodes t).map fun e => f e.1 * e.2.length).sum = t.innerWeight := by
  cases t with
  | leaf => simp [HuffTree.leafList] at h2
  | node w n l r => simpa [deriveCodes] using HuffTree.sum_paths f hw hf []

end Sys2Proof.Machine
end

