-- ==== Sys2Proof/Laws/Memory.lean ====
section
/-! SUPPORT. What each operation on a buffer does, said once: an element after a write, and the canonical form kept. -/

namespace Sys2Proof.Machine

variable {α : Type}

/-! ### Cells -/

@[simp] theorem lookupCell_insertCell_self (cs : List (Nat × α)) (i : Nat) (v : α) :
    lookupCell (insertCell cs i v) i = some v := by
  induction cs with
  | nil => simp [insertCell, lookupCell]
  | cons c cs ih =>
    obtain ⟨j, u⟩ := c
    simp only [insertCell]
    split
    · simp [lookupCell]
    · split
      · simp [lookupCell]
      · rename_i h; simp [lookupCell, h, ih]

theorem lookupCell_insertCell_ne (cs : List (Nat × α)) {i k : Nat} (v : α) (h : k ≠ i) :
    lookupCell (insertCell cs i v) k = lookupCell cs k := by
  induction cs with
  | nil => simp [insertCell, lookupCell, h]
  | cons c cs ih =>
    obtain ⟨j, u⟩ := c
    simp only [insertCell]
    split
    · simp [lookupCell, h]
    · split
      · rename_i h2; subst h2; simp [lookupCell, h]
      · simp [lookupCell, ih]

theorem mem_keys_insertCell {cs : List (Nat × α)} {i k : Nat} {v : α} :
    k ∈ (insertCell cs i v).map Prod.fst ↔ k = i ∨ k ∈ cs.map Prod.fst := by
  induction cs with
  | nil => simp [insertCell]
  | cons c cs ih =>
    obtain ⟨j, u⟩ := c
    simp only [insertCell]
    split
    · simp
    · split
      · rename_i h2; subst h2; simp
      · simp only [List.map_cons, List.mem_cons, ih]; tauto

theorem insertCell_sorted {cs : List (Nat × α)} (i : Nat) (v : α)
    (h : (cs.map Prod.fst).Pairwise (· < ·)) : ((insertCell cs i v).map Prod.fst).Pairwise (· < ·) := by
  induction cs with
  | nil => simp [insertCell]
  | cons c cs ih =>
    obtain ⟨j, u⟩ := c
    have h' := h
    simp only [List.map_cons, List.pairwise_cons] at h
    simp only [insertCell]
    split
    · rename_i hij
      simp only [List.map_cons, List.pairwise_cons]
      refine ⟨?_, h⟩
      intro k hk
      rcases List.mem_cons.1 hk with rfl | hk
      · exact hij
      · exact Nat.lt_trans hij (h.1 k hk)
    · split
      · rename_i h2; subst h2; simpa using h
      · rename_i h1 h2
        simp only [List.map_cons, List.pairwise_cons]
        refine ⟨?_, ih h.2⟩
        intro k hk
        rcases mem_keys_insertCell.1 hk with rfl | hk
        · omega
        · exact h.1 k hk

theorem lookupCell_range (n i : Nat) (f : Nat → α) (m : Nat) :
    lookupCell ((List.range' m n).map fun k => (k, f k)) i = if m ≤ i ∧ i < m + n then some (f i) else none := by
  induction n generalizing m with
  | zero => simp [lookupCell]
  | succ n ih =>
    simp only [List.range'_succ, List.map_cons, lookupCell, ih]
    by_cases h : i = m
    · subst h; simp
    · simp only [h, if_false]
      congr 1
      simp only [eq_iff_iff]; omega

/-! ### Elements -/

section
variable [Inhabited α]

@[simp] theorem Memory.get_set_self (m : Memory α) (i : Nat) (v : α) : (m.set i v).get i = v := by
  simp [Memory.get, Memory.set]

theorem Memory.get_set_ne (m : Memory α) {i k : Nat} (v : α) (h : k ≠ i) : (m.set i v).get k = m.get k := by
  simp [Memory.get, Memory.set, lookupCell_insertCell_ne _ v h]

theorem Memory.get_set (m : Memory α) (i k : Nat) (v : α) :
    (m.set i v).get k = if k = i then v else m.get k := by
  by_cases h : k = i
  · subst h; simp
  · simp [h, Memory.get_set_ne m v h]

/-- An element after a sequence is written: the sequence's own inside it, the old one outside. -/
theorem Memory.get_setSeq (m : Memory α) (i k : Nat) (vs : List α) :
    (m.setSeq i vs).get k = if i ≤ k then vs.getD (k - i) (m.get k) else m.get k := by
  induction vs generalizing m i with
  | nil => simp [Memory.setSeq]
  | cons v vs ih =>
    simp only [Memory.setSeq, ih, Memory.get_set]
    by_cases h1 : i + 1 ≤ k
    · have h2 : i ≤ k := by omega
      have h3 : k ≠ i := by omega
      obtain ⟨d, rfl⟩ : ∃ d, k = i + 1 + d := ⟨k - (i + 1), by omega⟩
      have h4 : i + 1 + d - i = d + 1 := by omega
      simp [h2, h3, h4]
    · by_cases h2 : i = k
      · subst h2; simp
      · have h3 : ¬ i ≤ k := by omega
        have h4 : k ≠ i := by omega
        simp [h1, h3, h4]

theorem Memory.get_setSeq_inside (m : Memory α) {i k : Nat} {vs : List α} (h1 : i ≤ k) (h2 : k < i + vs.length) :
    (m.setSeq i vs).get k = vs[k - i]'(by omega) := by
  rw [Memory.get_setSeq, if_pos h1, List.getD_eq_getElem]

theorem Memory.get_setSeq_outside (m : Memory α) {i k : Nat} {vs : List α} (h : k < i ∨ i + vs.length ≤ k) :
    (m.setSeq i vs).get k = m.get k := by
  rw [Memory.get_setSeq]
  split
  · rw [List.getD_eq_default]; omega
  · rfl

theorem Memory.get_setAll (m : Memory α) (n : Nat) (f : Nat → α) (i : Nat) :
    (m.setAll n f).get i = if i < n then f i else Config.free m.draw i := by
  have h := lookupCell_range n i f 0
  simp only [← List.range_eq_range'] at h
  simp only [Memory.get, Memory.setAll, h]
  by_cases hi : i < n <;> simp [hi]

theorem Memory.get_drawn (d i : Nat) : (Memory.drawn d : Memory α).get i = Config.free d i := rfl

@[simp] theorem Memory.getSeq_length (m : Memory α) (i n : Nat) : (m.getSeq i n).length = n := by
  simp [Memory.getSeq]

@[simp] theorem Memory.getElem_getSeq (m : Memory α) (i n k : Nat) (h : k < (m.getSeq i n).length) :
    (m.getSeq i n)[k] = m.get (i + k) := by
  simp [Memory.getSeq]

theorem Memory.getSeq_congr {m m' : Memory α} {i n : Nat} (h : ∀ k, i ≤ k → k < i + n → m.get k = m'.get k) :
    m.getSeq i n = m'.getSeq i n := by
  apply List.ext_getElem (by simp)
  intro k h1 _
  simp only [Memory.getElem_getSeq]
  exact h _ (by omega) (by simp at h1; omega)

/-- Reading back the sequence just written. -/
theorem Memory.getSeq_setSeq (m : Memory α) (i : Nat) (vs : List α) :
    (m.setSeq i vs).getSeq i vs.length = vs := by
  apply List.ext_getElem (by simp)
  intro k h1 h2
  simp only [Memory.getElem_getSeq]
  rw [Memory.get_setSeq_inside m (by omega) (by omega)]
  congr 1; omega

end

/-! ### The canonical form -/

theorem Memory.wf_drawn (d : Nat) : (Memory.drawn d : Memory α).wf := by simp [Memory.wf, Memory.drawn]

theorem Memory.wf_set {m : Memory α} (i : Nat) (v : α) (h : m.wf) : (m.set i v).wf := insertCell_sorted i v h

theorem Memory.wf_setSeq {m : Memory α} (i : Nat) (vs : List α) (h : m.wf) : (m.setSeq i vs).wf := by
  induction vs generalizing m i with
  | nil => exact h
  | cons v vs ih => exact ih (i + 1) (Memory.wf_set i v h)

theorem Memory.wf_setAll (m : Memory α) (n : Nat) (f : Nat → α) : (m.setAll n f).wf := by
  have : ((List.range n).map fun i => (i, f i)).map Prod.fst = List.range n := by
    simp [List.map_map, Function.comp_def]
  simp only [Memory.wf, Memory.setAll, this]
  exact List.pairwise_lt_range

@[simp] theorem Memory.draw_set (m : Memory α) (i : Nat) (v : α) : (m.set i v).draw = m.draw := rfl

@[simp] theorem Memory.draw_setSeq (m : Memory α) (i : Nat) (vs : List α) : (m.setSeq i vs).draw = m.draw := by
  induction vs generalizing m i with
  | nil => rfl
  | cons v vs ih => simp [Memory.setSeq, ih]

@[simp] theorem Memory.draw_setAll (m : Memory α) (n : Nat) (f : Nat → α) : (m.setAll n f).draw = m.draw := rfl

@[simp] theorem Memory.draw_drawn (d : Nat) : (Memory.drawn d : Memory α).draw = d := rfl

/-! ### Bounds -/

theorem Memory.within_drawn (d n : Nat) : (Memory.drawn d : Memory α).within n := by
  simp [Memory.within, Memory.drawn]

theorem Memory.within_set {m : Memory α} {n i : Nat} (v : α) (hi : i < n) (h : m.within n) : (m.set i v).within n := by
  intro k hk
  rcases mem_keys_insertCell.1 hk with rfl | hk
  · exact hi
  · exact h k hk

theorem Memory.within_setSeq {m : Memory α} {n i : Nat} {vs : List α} (hi : i + vs.length ≤ n) (h : m.within n) :
    (m.setSeq i vs).within n := by
  induction vs generalizing m i with
  | nil => exact h
  | cons v vs ih =>
    simp only [List.length_cons] at hi
    exact ih (by omega) (Memory.within_set v (by omega) h)

theorem Memory.within_setAll (m : Memory α) (n : Nat) (f : Nat → α) : (m.setAll n f).within n := by
  intro k hk
  simpa [Memory.setAll] using hk

end Sys2Proof.Machine
end

