-- ==== Sys2Proof/Laws/CodeTable.lean ====
section
/-! SUPPORT. Code tables and streams (10_state.md R51; 41_huffman.md R113 to R118): what a table read from CT is, what
encoding and decoding against a table do. -/

namespace Sys2Proof.Machine

/-! ### Tables -/

theorem codeOf_of_mem {t : CodeTable} (hn : (t.map Prod.fst).Nodup) {x : Symbol} {c : Bits} (h : (x, c) ∈ t) :
    codeOf t x = some c := by
  induction t with
  | nil => simp at h
  | cons e t ih =>
    obtain ⟨y, d⟩ := e
    simp only [List.map_cons, List.nodup_cons] at hn
    simp only [codeOf, List.lookup_cons]
    rcases List.mem_cons.1 h with heq | hin
    · cases heq; simp
    · have hne : x ≠ y := fun e => hn.1 (e ▸ List.mem_map.2 ⟨(x, c), hin, rfl⟩)
      have : (x == y) = false := by simpa using hne
      rw [this]
      exact ih hn.2 hin

theorem mem_of_codeOf {t : CodeTable} {x : Symbol} {c : Bits} (h : codeOf t x = some c) : (x, c) ∈ t := by
  induction t with
  | nil => simp [codeOf] at h
  | cons e t ih =>
    obtain ⟨y, d⟩ := e
    simp only [codeOf, List.lookup_cons] at h
    by_cases hxy : x = y
    · subst hxy; simp at h; subst h; simp
    · have : (x == y) = false := by simpa using hxy
      rw [this] at h
      exact List.mem_cons_of_mem _ (ih h)

theorem codeOf_eq_none {t : CodeTable} {x : Symbol} : codeOf t x = none ↔ x ∉ t.map Prod.fst := by
  simp only [codeOf, List.lookup_eq_none_iff, List.mem_map, not_exists, not_and]
  constructor
  · intro h e he hex
    have := h e he
    simp [hex] at this
  · intro h e he
    simpa using fun hx => h e he hx.symm

theorem prefixFree_iff {t : CodeTable} :
    prefixFree t = true ↔ ∀ a ∈ t, ∀ b ∈ t, a.1 ≠ b.1 → ¬ a.2 <+: b.2 := by
  simp only [prefixFree, List.all_eq_true, Bool.or_eq_true, beq_iff_eq, Bool.not_eq_true', Bool.eq_false_iff, ne_eq,
    List.isPrefixOf_iff_prefix]
  constructor
  · intro h a ha b hb hne
    exact (h a ha b hb).resolve_left hne
  · intro h a ha b hb
    by_cases he : a.1 = b.1
    · exact Or.inl he
    · exact Or.inr (h a ha b hb he)

theorem prefixFree_of_pairwise {t : CodeTable} (h : t.Pairwise fun a b => ¬ a.2 <+: b.2 ∧ ¬ b.2 <+: a.2) :
    prefixFree t = true := by
  rw [prefixFree_iff]
  intro a ha b hb hne
  induction t with
  | nil => simp at ha
  | cons e t ih =>
    rw [List.pairwise_cons] at h
    rcases List.mem_cons.1 ha with rfl | ha'
    · rcases List.mem_cons.1 hb with rfl | hb'
      · exact absurd rfl hne
      · exact (h.1 b hb').1
    · rcases List.mem_cons.1 hb with rfl | hb'
      · exact (h.1 a ha').2
      · exact ih h.2 ha' hb'

/-- The table read from CT: x has a code exactly when LEN[x] ≠ 0, and the code is its first LEN[x] bits (R51). -/
theorem codeOf_codeTable (b : Buffers) (x : Symbol) :
    codeOf b.codeTable x = if b.ctLen.get x.toNat = 0#8 then none else some (b.code x) := by
  have hkeys : (b.codeTable.map Prod.fst).Nodup := by
    have : b.codeTable.map Prod.fst =
        ((List.range alphabet).filter fun k => b.ctLen.get k ≠ 0#8).map (BitVec.ofNat 8) := by
      simp only [Buffers.codeTable]
      generalize List.range alphabet = l
      induction l with
      | nil => rfl
      | cons k l ih =>
        simp only [List.filterMap_cons]
        by_cases hk : b.ctLen.get k = 0#8
        · simp [hk, ih]
        · simp [hk, ih]
    rw [this]
    refine (List.nodup_map_iff_inj_on ((List.nodup_range (n := alphabet)).filter _)).2 ?_
    intro k hk j hj hkj
    have hk' := List.mem_range.1 (List.mem_filter.1 hk).1
    have hj' := List.mem_range.1 (List.mem_filter.1 hj).1
    have := congrArg BitVec.toNat hkj
    simp only [BitVec.toNat_ofNat, alphabet] at this hk' hj'
    omega
  split
  · rename_i h0
    rw [codeOf_eq_none]
    intro hm
    obtain ⟨⟨y, c⟩, hm', rfl⟩ := List.mem_map.1 hm
    simp only [Buffers.codeTable, List.mem_filterMap, List.mem_range] at hm'
    obtain ⟨k, hk, hk'⟩ := hm'
    split at hk'
    · simp at hk'
    · rename_i h1
      simp only [Option.some.injEq, Prod.mk.injEq] at hk'
      obtain ⟨rfl, _⟩ := hk'
      have : (BitVec.ofNat 8 k).toNat = k := by simp [alphabet] at hk ⊢; omega
      simp only [this] at h0
      exact h1 h0
  · rename_i h0
    apply codeOf_of_mem hkeys
    simp only [Buffers.codeTable, List.mem_filterMap, List.mem_range]
    refine ⟨x.toNat, x.isLt, ?_⟩
    simp [h0]

theorem mem_codeTable {b : Buffers} {x : Symbol} {c : Bits} :
    (x, c) ∈ b.codeTable ↔ b.ctLen.get x.toNat ≠ 0#8 ∧ c = b.code x := by
  constructor
  · intro h
    simp only [Buffers.codeTable, List.mem_filterMap, List.mem_range] at h
    obtain ⟨k, hk, hk'⟩ := h
    split at hk'
    · simp at hk'
    · rename_i h1
      simp only [Option.some.injEq, Prod.mk.injEq] at hk'
      obtain ⟨rfl, rfl⟩ := hk'
      have : (BitVec.ofNat 8 k).toNat = k := by simp [alphabet] at hk ⊢; omega
      exact ⟨by rw [this]; exact h1, rfl⟩
  · rintro ⟨h, rfl⟩
    have := codeOf_codeTable b x
    rw [if_neg h] at this
    exact mem_of_codeOf this

@[simp] theorem Buffers.code_length (b : Buffers) (x : Symbol) : (b.code x).length = (b.ctLen.get x.toNat).toNat := by
  simp [Buffers.code]

/-! ### Writing a table and reading it back -/

theorem packBits_getLsbD (bs : Bits) (j : Nat) (h : bs.length ≤ 32) : (packBits bs).getLsbD j = bs.getD j false := by
  simp only [packBits, BitVec.getLsbD_setWidth, BitVec.getLsbD_ofBoolListLE]
  by_cases hj : j < 32
  · simp [hj]
  · simp only [hj, decide_false, Bool.false_and]
    rw [List.getD_eq_default]; omega

theorem codeBit_writeTable (t : CodeTable) (b : Buffers) (x : Symbol) (j : Nat) (hj : j < 256) :
    (writeTable t b).codeBit x j = ((codeOf t x).getD []).getD j false := by
  have hx := x.isLt
  have h1 : 8 * x.toNat + j / 32 < 2048 := by omega
  have h2 : (8 * x.toNat + j / 32) / 8 = x.toNat := by omega
  have h3 : (8 * x.toNat + j / 32) % 8 = j / 32 := by omega
  simp only [Buffers.codeBit, writeTable, Memory.get_setAll, h1, if_true, bitsField, h2, h3, BitVec.ofNat_toNat,
    BitVec.setWidth_eq]
  rw [packBits_getLsbD _ _ (by simp)]
  rw [List.getD_eq_getElem?_getD, List.getD_eq_getElem?_getD, List.getElem?_take, if_pos (by omega), List.getElem?_drop]
  congr 2; omega

theorem code_writeTable (t : CodeTable) (b : Buffers) (x : Symbol) (h : ((codeOf t x).getD []).length ≤ 255) :
    (writeTable t b).code x = (codeOf t x).getD [] := by
  have hlen : ((writeTable t b).ctLen.get x.toNat).toNat = ((codeOf t x).getD []).length := by
    have hx := x.isLt
    simp only [writeTable, Memory.get_setAll, hx, if_true, lenField, BitVec.ofNat_toNat, BitVec.setWidth_eq,
      BitVec.toNat_ofNat]
    omega
  apply List.ext_getElem
  · rw [Buffers.code_length, hlen]
  · intro j h1 h2
    simp only [Buffers.code, List.getElem_map, List.getElem_range]
    rw [codeBit_writeTable t b x j (by omega), List.getD_eq_getElem _ _ h2]

theorem ctLen_writeTable (t : CodeTable) (b : Buffers) (x : Symbol) :
    (writeTable t b).ctLen.get x.toNat = BitVec.ofNat 8 ((codeOf t x).getD []).length := by
  have hx := x.isLt
  simp only [writeTable, Memory.get_setAll, hx, if_true, lenField, BitVec.ofNat_toNat, BitVec.setWidth_eq]

/-- Reading back a table whose codes have 1 to 255 bits. -/
theorem codeOf_codeTable_writeTable (t : CodeTable) (b : Buffers) (x : Symbol)
    (h : ∀ c, codeOf t x = some c → 1 ≤ c.length ∧ c.length ≤ 255) :
    codeOf (writeTable t b).codeTable x = codeOf t x := by
  rw [codeOf_codeTable, ctLen_writeTable]
  cases hc : codeOf t x with
  | none => simp
  | some c =>
    obtain ⟨h1, h2⟩ := h c hc
    have hne : BitVec.ofNat 8 c.length ≠ 0#8 := by
      intro he
      have := congrArg BitVec.toNat he
      simp at this; omega
    rw [Option.getD_some, if_neg hne, code_writeTable _ _ _ (by rw [hc]; exact h2), hc, Option.getD_some]

/-! ### The codes of a text -/

theorem occurring_text_ne_nil {text : List Symbol} (h : text ≠ []) : occurring (freq text) ≠ [] := by
  obtain ⟨x, hx⟩ := List.exists_mem_of_ne_nil text h
  have : (x, freq text x.toNat) ∈ occurring (freq text) := by
    rw [mem_occurring]
    refine ⟨?_, rfl⟩
    simpa [freq] using List.count_pos_iff.2 hx
  exact List.ne_nil_of_mem this

theorem mem_occurring_text {text : List Symbol} {x : Symbol} :
    x ∈ (occurring (freq text)).map Prod.fst ↔ x ∈ text := by
  have hf : freq text x.toNat = text.count x := by simp [freq]
  constructor
  · intro h
    obtain ⟨⟨y, w⟩, hm, rfl⟩ := List.mem_map.1 h
    have := (mem_occurring.1 hm).1
    simp only [freq, BitVec.ofNat_toNat, BitVec.setWidth_eq] at this
    exact List.count_pos_iff.1 this
  · intro h
    refine List.mem_map.2 ⟨(x, freq text x.toNat), mem_occurring.2 ⟨?_, rfl⟩, rfl⟩
    rw [hf]; exact List.count_pos_iff.2 h

/-- The table of a text (R110 to R114, R122, R124): one code for each symbol that occurs, of 1 to 255 bits, and no code a
prefix of another. -/
theorem codesOfText_spec {text : List Symbol} (h : text ≠ []) :
    ((codesOfText text).map Prod.fst).Nodup ∧ (∀ x, x ∈ (codesOfText text).map Prod.fst ↔ x ∈ text) ∧
      (∀ e ∈ codesOfText text, 1 ≤ e.2.length ∧ e.2.length ≤ 255) ∧ prefixFree (codesOfText text) = true := by
  obtain ⟨t, ws, ht, _, hl, _⟩ := buildTree_spec (occurring_text_ne_nil h)
  have he : codesOfText text = deriveCodes t := by simp [codesOfText, ht]
  have hk : ((codesOfText text).map Prod.fst).Perm ((occurring (freq text)).map Prod.fst) := by
    rw [he, deriveCodes_keys]; exact hl.map _
  refine ⟨hk.nodup_iff.2 (occurring_keys_nodup _), ?_, ?_, ?_⟩
  · intro x
    rw [hk.mem_iff, mem_occurring_text]
  · intro e hm
    rw [he] at hm
    obtain ⟨h1, h2⟩ := deriveCodes_length hm
    have h3 := occurring_length_le (freq text)
    rw [hl.length_eq] at h2
    exact ⟨h1, by omega⟩
  · rw [he]; exact prefixFree_of_pairwise (deriveCodes_prefixFree t)

theorem codeOf_codesOfText {text : List Symbol} {x : Symbol} (hx : x ∈ text) :
    ∃ c, codeOf (codesOfText text) x = some c ∧ 1 ≤ c.length ∧ c.length ≤ 255 := by
  have h : text ≠ [] := List.ne_nil_of_mem hx
  obtain ⟨hn, hk, hl, _⟩ := codesOfText_spec h
  obtain ⟨⟨y, c⟩, hm, rfl⟩ := List.mem_map.1 ((hk x).2 hx)
  exact ⟨c, codeOf_of_mem hn hm, hl _ hm⟩

theorem length_of_codeOf_codesOfText {text : List Symbol} {x : Symbol} {c : Bits}
    (hc : codeOf (codesOfText text) x = some c) : 1 ≤ c.length ∧ c.length ≤ 255 := by
  by_cases h : text = []
  · subst h
    have : codesOfText [] = [] := by decide +kernel
    rw [this] at hc; simp [codeOf] at hc
  · exact (codesOfText_spec h).2.2.1 _ (mem_of_codeOf hc)

/-! ### Streams -/

theorem concatCodes_append (t : CodeTable) (u v : List Symbol) :
    concatCodes t (u ++ v) = concatCodes t u ++ concatCodes t v := by
  simp [concatCodes]

/-- ENCODE_STREAM (R115) succeeds when every symbol has a code and the stream fits. -/
theorem encodeFrom_ok (cap : Nat) (t : CodeTable) (text : List Symbol) (out : Bits)
    (hc : ∀ x ∈ text, codeOf t x ≠ none) (hl : out.length + (concatCodes t text).length ≤ cap) :
    encodeFrom cap t text out = .ok (out ++ concatCodes t text) := by
  induction text generalizing out with
  | nil => simp [encodeFrom, concatCodes]
  | cons x rest ih =>
    obtain ⟨c, hx⟩ := Option.ne_none_iff_exists'.1 (hc x (by simp))
    have hcons : concatCodes t (x :: rest) = c ++ concatCodes t rest := by simp [concatCodes, hx]
    rw [hcons, List.length_append] at hl
    simp only [encodeFrom, hx]
    rw [if_neg (by omega), ih (out ++ c) (fun y hy => hc y (by simp [hy])) (by simp; omega), hcons, List.append_assoc]

/-- Running ENCODE_STREAM over a first part that succeeds. -/
theorem encodeFrom_append (cap : Nat) (t : CodeTable) (u v : List Symbol) (out : Bits)
    (hc : ∀ x ∈ u, codeOf t x ≠ none) (hl : out.length + (concatCodes t u).length ≤ cap) :
    encodeFrom cap t (u ++ v) out = encodeFrom cap t v (out ++ concatCodes t u) := by
  induction u generalizing out with
  | nil => simp [concatCodes]
  | cons x rest ih =>
    obtain ⟨c, hx⟩ := Option.ne_none_iff_exists'.1 (hc x (by simp))
    have hcons : concatCodes t (x :: rest) = c ++ concatCodes t rest := by simp [concatCodes, hx]
    rw [hcons, List.length_append] at hl
    simp only [List.cons_append, encodeFrom, hx]
    rw [if_neg (by omega), ih (out ++ c) (fun y hy => hc y (by simp [hy])) (by simp; omega), hcons, List.append_assoc]

/-- A buffer that no code equals and whose extension by the next bits is a prefix of some code matches nothing yet. -/
theorem matchCode_eq_none {t : CodeTable} {buf : Bits} (h : ∀ a ∈ t, a.2 ≠ buf) : matchCode t buf = none := by
  simp only [matchCode, Option.map_eq_none_iff, List.find?_eq_none]
  intro a ha
  simpa using h a ha

theorem matchCode_of_mem {t : CodeTable} (hp : prefixFree t = true) {x : Symbol} {c : Bits}
    (h : (x, c) ∈ t) : matchCode t c = some x := by
  obtain ⟨e, he⟩ : ∃ e, t.find? (fun a => a.2 == c) = some e := by
    rw [← Option.isSome_iff_exists, List.find?_isSome]
    exact ⟨_, h, by simp⟩
  have hem := List.mem_of_find?_eq_some he
  have hec : e.2 = c := by simpa using List.find?_some he
  have : e.1 = x := by
    by_contra hne
    exact prefixFree_iff.1 hp e hem (x, c) h hne (by rw [hec])
  simp [matchCode, he, this]

/-- Scanning one code of a prefix-free table emits its symbol (R117). -/
theorem decodeFrom_code {cap : Nat} {t : CodeTable} (hp : prefixFree t = true) (hn : (t.map Prod.fst).Nodup)
    {x : Symbol} {d : Bits} (buf rest : Bits) (out : List Symbol) (h : (x, buf ++ d) ∈ t) (hd : d ≠ []) :
    decodeFrom cap t (d ++ rest) buf out =
      if out.length = cap then .error .capacity else decodeFrom cap t rest [] (out ++ [x]) := by
  induction d generalizing buf with
  | nil => exact absurd rfl hd
  | cons b d ih =>
    simp only [List.cons_append, decodeFrom]
    by_cases hd' : d = []
    · subst hd'
      rw [matchCode_of_mem hp h]
      rfl
    · have hnone : matchCode t (buf ++ [b]) = none := by
        apply matchCode_eq_none
        rintro ⟨y, c⟩ hy rfl
        by_cases hxy : y = x
        · subst hxy
          have h1 := codeOf_of_mem hn h
          have h2 := codeOf_of_mem hn hy
          rw [h1] at h2
          simp at h2
          exact hd' h2
        · exact prefixFree_iff.1 hp _ hy _ h hxy ⟨d, by simp⟩
      rw [hnone]
      simp only
      exact ih (buf ++ [b]) (by simpa using h) hd'

/-- Scanning the codes of a text (R117): it is emitted when the output has room. -/
theorem decodeFrom_text {cap : Nat} {t : CodeTable} (hp : prefixFree t = true) (hn : (t.map Prod.fst).Nodup)
    (hne : ∀ e ∈ t, e.2 ≠ []) (text : List Symbol) (hc : ∀ x ∈ text, codeOf t x ≠ none) (rest : Bits)
    (out : List Symbol) (hl : out.length + text.length ≤ cap) :
    decodeFrom cap t (concatCodes t text ++ rest) [] out = decodeFrom cap t rest [] (out ++ text) := by
  induction text generalizing out with
  | nil => simp [concatCodes]
  | cons x text ih =>
    obtain ⟨c, hx⟩ := Option.ne_none_iff_exists'.1 (hc x (by simp))
    have hm := mem_of_codeOf hx
    have hcons : concatCodes t (x :: text) = c ++ concatCodes t text := by simp [concatCodes, hx]
    simp only [List.length_cons] at hl
    rw [hcons, List.append_assoc, decodeFrom_code (cap := cap) hp hn [] _ out (by simpa using hm) (hne _ hm),
      if_neg (by omega), ih (fun y hy => hc y (by simp [hy])) (out ++ [x]) (by simp; omega)]
    simp

/-- No code is a prefix of what is left: the scan ends with CORRUPT_STREAM, or with success when nothing is left (R117,
R118). -/
theorem decodeFrom_stuck {cap : Nat} {t : CodeTable} (buf rest : Bits) (out : List Symbol)
    (h : ∀ a ∈ t, a.2 ≠ [] → buf.length < a.2.length → ¬ a.2 <+: buf ++ rest) (hb : buf ++ rest ≠ [])  :
    decodeFrom cap t rest buf out = .error .corruptStream := by
  induction rest generalizing buf with
  | nil => simp only [List.append_nil] at hb; simp [decodeFrom, hb]
  | cons b rest ih =>
    have hnone : matchCode t (buf ++ [b]) = none := by
      apply matchCode_eq_none
      intro a ha hab
      exact h a ha (by rw [hab]; simp) (by rw [hab]; simp) (by rw [hab]; exact ⟨rest, by simp⟩)
    simp only [decodeFrom, hnone]
    apply ih
    · intro a ha h1 h2
      simp only [List.length_append, List.length_cons, List.length_nil] at h2
      simpa using h a ha h1 (by omega)
    · simp

/-! ### Lengths of streams -/

/-- A stream ENCODE_STREAM gives fits (R115). -/
theorem encodeFrom_length {cap : Nat} {t : CodeTable} {text : List Symbol} {out bits : Bits}
    (h : encodeFrom cap t text out = .ok bits) (ho : out.length ≤ cap) : bits.length ≤ cap := by
  induction text generalizing out with
  | nil => simp only [encodeFrom, Except.ok.injEq] at h; exact h ▸ ho
  | cons x rest ih =>
    simp only [encodeFrom] at h
    split at h
    · cases h
    · split at h
      · cases h
      · exact ih h (by simp; omega)

/-- A text DECODE_STREAM gives fits (R117). -/
theorem decodeFrom_length {cap : Nat} {t : CodeTable} {bits buf : Bits} {out text : List Symbol}
    (h : decodeFrom cap t bits buf out = .ok text) (ho : out.length ≤ cap) : text.length ≤ cap := by
  induction bits generalizing buf out with
  | nil =>
    simp only [decodeFrom] at h
    split at h
    · cases h; exact ho
    · cases h
  | cons x rest ih =>
    simp only [decodeFrom] at h
    split at h
    · exact ih h ho
    · split at h
      · cases h
      · exact ih h (by simp; omega)

theorem concatCodes_length (t : CodeTable) (text : List Symbol) :
    (concatCodes t text).length = (text.map fun x => ((codeOf t x).getD []).length).sum := by
  simp [concatCodes, List.length_flatMap]

/-- A sum over a text is a sum over the symbols that occur, weighed by their counts. -/
theorem sum_text_eq (text : List Symbol) (g : Symbol → Nat) :
    (text.map g).sum = ((occurring (freq text)).map fun e => e.2 * g e.1).sum := by
  have h1 : (text.map g).sum = ∑ x ∈ text.toFinset, text.count x * g x := by
    rw [Finset.sum_list_map_count]; simp
  have h2 : ((occurring (freq text)).map fun e => e.2 * g e.1).sum =
      (((occurring (freq text)).map Prod.fst).map fun x => text.count x * g x).sum := by
    rw [List.map_map]
    congr 1
    apply List.map_congr_left
    rintro ⟨x, w⟩ hm
    have := (mem_occurring.1 hm).2
    simp only [freq, BitVec.ofNat_toNat, BitVec.setWidth_eq] at this
    simp [this]
  rw [h1, h2, ← List.sum_toFinset _ (occurring_keys_nodup _)]
  congr 1
  ext x
  simp only [List.mem_toFinset]
  rw [mem_occurring_text]

/-- The stream of a text under its own table costs no more than any assignment of lengths, at least 1, that satisfies
Kraft's inequality (R123). -/
theorem stream_le_of_kraft {text : List Symbol} (h : text ≠ []) (len : Symbol → Nat) (n : Nat)
    (hpos : ∀ x ∈ text, 1 ≤ len x)
    (hk : Kraft n ((occurring (freq text)).map fun e => (e.2, len e.1))) :
    (concatCodes (codesOfText text) text).length ≤ (text.map len).sum := by
  have hocc := occurring_text_ne_nil h
  obtain ⟨t, ws, ht, hw, hl, hp, hs, hcost⟩ := buildTree_spec hocc
  have he : codesOfText text = deriveCodes t := by simp [codesOfText, ht]
  obtain ⟨hn, hkeys, hlens, _⟩ := codesOfText_spec h
  have hf : ∀ e ∈ t.leafList, e.2 = (fun x : Symbol => freq text x.toNat) e.1 := by
    rintro ⟨x, w⟩ hm
    exact (mem_occurring.1 (hl.mem_iff.1 hm)).2
  -- the stream's length as a sum over the table
  have hsum : (concatCodes (codesOfText text) text).length =
      ((codesOfText text).map fun e => freq text e.1.toNat * e.2.length).sum := by
    rw [concatCodes_length, sum_text_eq]
    have hk2 : ((codesOfText text).map Prod.fst).Perm ((occurring (freq text)).map Prod.fst) := by
      rw [he, deriveCodes_keys]; exact hl.map _
    have e1 : ((codesOfText text).map fun e => freq text e.1.toNat * e.2.length) =
        ((codesOfText text).map Prod.fst).map fun x =>
          freq text x.toNat * ((codeOf (codesOfText text) x).getD []).length := by
      rw [List.map_map]
      apply List.map_congr_left
      rintro ⟨x, c⟩ hm
      simp [codeOf_of_mem hn hm]
    have e2 : ((occurring (freq text)).map fun e => e.2 * ((codeOf (codesOfText text) e.1).getD []).length) =
        ((occurring (freq text)).map Prod.fst).map fun x =>
          freq text x.toNat * ((codeOf (codesOfText text) x).getD []).length := by
      rw [List.map_map]
      apply List.map_congr_left
      rintro ⟨x, w⟩ hm
      simp [(mem_occurring.1 hm).2]
    rw [e1, e2]
    exact ((hk2.map _).sum_eq).symm
  have hsum2 : (text.map len).sum = costOf ((occurring (freq text)).map fun e => (e.2, len e.1)) := by
    rw [sum_text_eq, costOf, List.map_map]
    rfl
  have hpos2 := List.length_pos_iff.2 hocc
  rcases Nat.lt_or_ge 1 (occurring (freq text)).length with h2 | h2
  · rw [hsum, hsum2, he, deriveCodes_cost (fun x => freq text x.toNat) hw hf (by rw [hl.length_eq]; omega), hcost]
    refine mergeCost_le ?_ hs ?_ hk
    · rw [hp.length_eq, List.length_map]; omega
    · rw [List.map_map]; exact hp.symm
  · -- one symbol: one bit each
    have hone : ∀ x ∈ text, ((codeOf (codesOfText text) x).getD []).length ≤ len x := by
      intro x hx
      obtain ⟨c, hc, h1, _⟩ := codeOf_codesOfText hx
      have hm := mem_of_codeOf hc
      rw [he] at hm
      have hone := (deriveCodes_length hm).2
      rw [hl.length_eq] at hone
      have hone' : c.length = 1 ∨ c.length + 1 ≤ (occurring (freq text)).length := hone
      rw [hc]
      have hx1 := hpos x hx
      simp only [Option.getD_some]
      omega
    rw [concatCodes_length]
    exact List.sum_le_sum hone

/-- The stream of a text under its own table has at most 8 bits a symbol (R124). -/
theorem stream_le_eight {text : List Symbol} (h : text ≠ []) :
    (concatCodes (codesOfText text) text).length ≤ 8 * text.length := by
  have hk : Kraft 8 ((occurring (freq text)).map fun e => (e.2, 8)) := by
    constructor
    · intro p hp
      obtain ⟨e, _, rfl⟩ := List.mem_map.1 hp
      exact le_refl _
    · have := occurring_length_le (freq text)
      simpa [List.map_map, Function.comp_def] using this
  have := stream_le_of_kraft h (fun _ => 8) 8 (fun _ _ => by omega) hk
  simpa [Nat.mul_comm] using this

end Sys2Proof.Machine
end

