-- ==== Sys2Proof/Laws/Hamming.lean ====
section
/-! SUPPORT. What the shared operations of the Hamming family do, said once: groups and their bits, a flipped bit, the
draw of the noise loop. -/

namespace Sys2Proof.Machine

/-- Bit j of group g is bit 4g + j of the Bitstring, 0 past its end (R95, R135). -/
theorem groupOf_getLsbD (bs : Bits) (g j : Nat) (hj : j < 4) : (groupOf bs g).getLsbD j = bs.getD (4 * g + j) false := by
  have : j = 0 ∨ j = 1 ∨ j = 2 ∨ j = 3 := by omega
  rcases this with rfl | rfl | rfl | rfl <;> simp only [groupOf, BitVec.getLsbD_append] <;> simp

@[simp] theorem nibbleBits_length (d : Nibble) : (nibbleBits d).length = 4 := rfl

theorem flatMap_nibbleBits_length {α : Type} (l : List α) (f : α → Nibble) :
    (l.flatMap fun a => nibbleBits (f a)).length = 4 * l.length := by
  induction l with
  | nil => rfl
  | cons a l ih => simp only [List.flatMap_cons, List.length_append, ih, nibbleBits_length, List.length_cons]; omega

/-- Element 4b + j of the groups written one after another is bit j of group b (R137). -/
theorem flatMap_nibbleBits_getD {α : Type} (l : List α) (f : α → Nibble) {b j : Nat} (hj : j < 4) (hb : b < l.length) :
    (l.flatMap fun a => nibbleBits (f a)).getD (4 * b + j) false = (f l[b]).getLsbD j := by
  induction l generalizing b with
  | nil => simp at hb
  | cons a l ih =>
    cases b with
    | zero =>
      have : j = 0 ∨ j = 1 ∨ j = 2 ∨ j = 3 := by omega
      rcases this with rfl | rfl | rfl | rfl <;> simp [nibbleBits]
    | succ b =>
      have := ih (b := b) (by simpa using hb)
      rw [List.flatMap_cons, List.getD_append_right _ _ _ _ (by simp; omega), nibbleBits_length,
        show 4 * (b + 1) + j - 4 = 4 * b + j by omega]
      exact this

/-- A flip changes the one bit it names. -/
theorem flipBit_getLsbD (c : Codeword) {k j : Nat} (hk : k < 7) (hj : j < 7) :
    (flipBit c k).getLsbD j = (c.getLsbD j ^^ decide (j = k)) := by
  simp only [flipBit, BitVec.getLsbD_xor]
  congr 1
  have : j = 0 ∨ j = 1 ∨ j = 2 ∨ j = 3 ∨ j = 4 ∨ j = 5 ∨ j = 6 := by omega
  have hk : k = 0 ∨ k = 1 ∨ k = 2 ∨ k = 3 ∨ k = 4 ∨ k = 5 ∨ k = 6 := by omega
  rcases hk with rfl | rfl | rfl | rfl | rfl | rfl | rfl <;>
    rcases this with rfl | rfl | rfl | rfl | rfl | rfl | rfl <;> rfl

theorem foldl_flipFlat_length (ps : List Nat) (cs : List Codeword) : (ps.foldl flipFlat cs).length = cs.length := by
  induction ps generalizing cs with
  | nil => rfl
  | cons p ps ih => rw [List.foldl_cons, ih]; simp [flipFlat]

/-- The draw of NOISE_SELECT at a step with n positions left is below n (R132, R141). -/
theorem noise_draw_lt (x : Word) {n : Nat} (hn : 0 < n) : (x.toNat * n) >>> 32 < n := by
  rw [Nat.shiftRight_eq_div_pow, Nat.div_lt_iff_lt_mul (by decide), Nat.mul_comm]
  exact Nat.mul_lt_mul_of_pos_left x.isLt hn

/-- The generator stays at 0 (R131). -/
theorem xorshift32_zero : xorshift32 0#32 = 0#32 := by decide

end Sys2Proof.Machine
end

