-- ==== Sys2Proof/Laws/State.lean ====
section
/-! SUPPORT. What each update of the state leaves in each field, so that no proof unfolds an update. -/

namespace Sys2Proof.Machine

/-! ### accept -/

@[simp] theorem State.accept_params (w : Word) (s : State) : (s.accept w).params = s.params := rfl
@[simp] theorem State.accept_irqEnable (w : Word) (s : State) : (s.accept w).irqEnable = s.irqEnable := rfl
@[simp] theorem State.accept_irqStatus (w : Word) (s : State) : (s.accept w).irqStatus = s.irqStatus := rfl
@[simp] theorem State.accept_regs (w : Word) (s : State) : (s.accept w).regs = s.regs := rfl
@[simp] theorem State.accept_bufs (w : Word) (s : State) : (s.accept w).bufs = s.bufs := rfl
@[simp] theorem State.accept_draws (w : Word) (s : State) : (s.accept w).draws = s.draws := rfl
@[simp] theorem State.accept_agenda (w : Word) (s : State) : (s.accept w).agenda = s.agenda := rfl
@[simp] theorem State.accept_reply (w : Word) (s : State) : (s.accept w).reply = s.reply := rfl
@[simp] theorem State.accept_cmd (w : Word) (s : State) : (s.accept w).cmd = w := rfl
@[simp] theorem State.accept_busy (w : Word) (s : State) : (s.accept w).status.busy = true := rfl
@[simp] theorem State.accept_done (w : Word) (s : State) : (s.accept w).status.done = false := rfl
@[simp] theorem State.accept_err (w : Word) (s : State) : (s.accept w).status.err = false := rfl
@[simp] theorem State.accept_errCode (w : Word) (s : State) : (s.accept w).status.errCode = none := rfl
@[simp] theorem State.accept_lastOp (w : Word) (s : State) : (s.accept w).status.lastOp = opField w := rfl
@[simp] theorem State.accept_codesValid (w : Word) (s : State) : (s.accept w).status.codesValid = s.status.codesValid := rfl

/-! ### complete -/

@[simp] theorem State.complete_params (e : Option ErrorCode) (s : State) : (s.complete e).params = s.params := rfl
@[simp] theorem State.complete_cmd (e : Option ErrorCode) (s : State) : (s.complete e).cmd = s.cmd := rfl
@[simp] theorem State.complete_irqEnable (e : Option ErrorCode) (s : State) : (s.complete e).irqEnable = s.irqEnable := rfl
@[simp] theorem State.complete_regs (e : Option ErrorCode) (s : State) : (s.complete e).regs = s.regs := rfl
@[simp] theorem State.complete_bufs (e : Option ErrorCode) (s : State) : (s.complete e).bufs = s.bufs := rfl
@[simp] theorem State.complete_draws (e : Option ErrorCode) (s : State) : (s.complete e).draws = s.draws := rfl
@[simp] theorem State.complete_agenda (e : Option ErrorCode) (s : State) : (s.complete e).agenda = s.agenda := rfl
@[simp] theorem State.complete_reply (e : Option ErrorCode) (s : State) : (s.complete e).reply = s.reply := rfl
@[simp] theorem State.complete_busy (e : Option ErrorCode) (s : State) : (s.complete e).status.busy = false := rfl
@[simp] theorem State.complete_done (e : Option ErrorCode) (s : State) : (s.complete e).status.done = true := rfl
@[simp] theorem State.complete_err (e : Option ErrorCode) (s : State) : (s.complete e).status.err = e.isSome := rfl
@[simp] theorem State.complete_errCode (e : Option ErrorCode) (s : State) : (s.complete e).status.errCode = e := rfl
@[simp] theorem State.complete_lastOp (e : Option ErrorCode) (s : State) : (s.complete e).status.lastOp = s.status.lastOp := rfl
@[simp] theorem State.complete_codesValid (e : Option ErrorCode) (s : State) : (s.complete e).status.codesValid = s.status.codesValid := rfl

/-! ### spoilHuf -/

@[simp] theorem State.spoilHuf_params (s : State) : (s.spoilHuf).params = s.params := rfl
@[simp] theorem State.spoilHuf_cmd (s : State) : (s.spoilHuf).cmd = s.cmd := rfl
@[simp] theorem State.spoilHuf_status (s : State) : (s.spoilHuf).status = s.status := rfl
@[simp] theorem State.spoilHuf_irqEnable (s : State) : (s.spoilHuf).irqEnable = s.irqEnable := rfl
@[simp] theorem State.spoilHuf_irqStatus (s : State) : (s.spoilHuf).irqStatus = s.irqStatus := rfl
@[simp] theorem State.spoilHuf_agenda (s : State) : (s.spoilHuf).agenda = s.agenda := rfl
@[simp] theorem State.spoilHuf_reply (s : State) : (s.spoilHuf).reply = s.reply := rfl
@[simp] theorem State.spoilHuf_regs (s : State) : s.spoilHuf.regs = { s.regs with hufLen := 0#32 } := rfl
@[simp] theorem State.spoilHuf_bufs (s : State) : s.spoilHuf.bufs = { s.bufs with hufBuf := Memory.drawn s.draws } := rfl
@[simp] theorem State.spoilHuf_draws (s : State) : s.spoilHuf.draws = s.draws + 1 := rfl

/-! ### spoilOut -/

@[simp] theorem State.spoilOut_params (s : State) : (s.spoilOut).params = s.params := rfl
@[simp] theorem State.spoilOut_cmd (s : State) : (s.spoilOut).cmd = s.cmd := rfl
@[simp] theorem State.spoilOut_status (s : State) : (s.spoilOut).status = s.status := rfl
@[simp] theorem State.spoilOut_irqEnable (s : State) : (s.spoilOut).irqEnable = s.irqEnable := rfl
@[simp] theorem State.spoilOut_irqStatus (s : State) : (s.spoilOut).irqStatus = s.irqStatus := rfl
@[simp] theorem State.spoilOut_agenda (s : State) : (s.spoilOut).agenda = s.agenda := rfl
@[simp] theorem State.spoilOut_reply (s : State) : (s.spoilOut).reply = s.reply := rfl
@[simp] theorem State.spoilOut_regs (s : State) : s.spoilOut.regs = { s.regs with outLen := 0#32 } := rfl
@[simp] theorem State.spoilOut_bufs (s : State) : s.spoilOut.bufs = { s.bufs with outBuf := Memory.drawn s.draws } := rfl
@[simp] theorem State.spoilOut_draws (s : State) : s.spoilOut.draws = s.draws + 1 := rfl

/-! ### answer -/

@[simp] theorem State.answer_params (r : Response) (d : Option Word) (s : State) : (s.answer r d).params = s.params := rfl
@[simp] theorem State.answer_cmd (r : Response) (d : Option Word) (s : State) : (s.answer r d).cmd = s.cmd := rfl
@[simp] theorem State.answer_status (r : Response) (d : Option Word) (s : State) : (s.answer r d).status = s.status := rfl
@[simp] theorem State.answer_irqEnable (r : Response) (d : Option Word) (s : State) : (s.answer r d).irqEnable = s.irqEnable := rfl
@[simp] theorem State.answer_irqStatus (r : Response) (d : Option Word) (s : State) : (s.answer r d).irqStatus = s.irqStatus := rfl
@[simp] theorem State.answer_regs (r : Response) (d : Option Word) (s : State) : (s.answer r d).regs = s.regs := rfl
@[simp] theorem State.answer_bufs (r : Response) (d : Option Word) (s : State) : (s.answer r d).bufs = s.bufs := rfl
@[simp] theorem State.answer_draws (r : Response) (d : Option Word) (s : State) : (s.answer r d).draws = s.draws := rfl
@[simp] theorem State.answer_agenda (r : Response) (d : Option Word) (s : State) : (s.answer r d).agenda = s.agenda := rfl
@[simp] theorem State.answer_reply (r : Response) (d : Option Word) (s : State) : (s.answer r d).reply = some ⟨r, d⟩ := rfl

/-! ### noteDrop -/

@[simp] theorem State.noteDrop_params (s : State) : (s.noteDrop).params = s.params := rfl
@[simp] theorem State.noteDrop_cmd (s : State) : (s.noteDrop).cmd = s.cmd := rfl
@[simp] theorem State.noteDrop_status (s : State) : (s.noteDrop).status = s.status := rfl
@[simp] theorem State.noteDrop_irqEnable (s : State) : (s.noteDrop).irqEnable = s.irqEnable := rfl
@[simp] theorem State.noteDrop_regs (s : State) : (s.noteDrop).regs = s.regs := rfl
@[simp] theorem State.noteDrop_bufs (s : State) : (s.noteDrop).bufs = s.bufs := rfl
@[simp] theorem State.noteDrop_draws (s : State) : (s.noteDrop).draws = s.draws := rfl
@[simp] theorem State.noteDrop_agenda (s : State) : (s.noteDrop).agenda = s.agenda := rfl
@[simp] theorem State.noteDrop_reply (s : State) : (s.noteDrop).reply = s.reply := rfl
@[simp] theorem State.noteDrop_irqStatus (s : State) : s.noteDrop.irqStatus = s.irqStatus ||| dropEv := rfl

/-! ### clearCodesValid -/

@[simp] theorem State.clearCodesValid_params (s : State) : (s.clearCodesValid).params = s.params := rfl
@[simp] theorem State.clearCodesValid_cmd (s : State) : (s.clearCodesValid).cmd = s.cmd := rfl
@[simp] theorem State.clearCodesValid_irqEnable (s : State) : (s.clearCodesValid).irqEnable = s.irqEnable := rfl
@[simp] theorem State.clearCodesValid_irqStatus (s : State) : (s.clearCodesValid).irqStatus = s.irqStatus := rfl
@[simp] theorem State.clearCodesValid_regs (s : State) : (s.clearCodesValid).regs = s.regs := rfl
@[simp] theorem State.clearCodesValid_bufs (s : State) : (s.clearCodesValid).bufs = s.bufs := rfl
@[simp] theorem State.clearCodesValid_draws (s : State) : (s.clearCodesValid).draws = s.draws := rfl
@[simp] theorem State.clearCodesValid_agenda (s : State) : (s.clearCodesValid).agenda = s.agenda := rfl
@[simp] theorem State.clearCodesValid_reply (s : State) : (s.clearCodesValid).reply = s.reply := rfl
@[simp] theorem State.clearCodesValid_status (s : State) : s.clearCodesValid.status = { s.status with codesValid := false } := rfl

/-! ### writeIrqEnable -/

@[simp] theorem State.writeIrqEnable_params (v : Word) (s : State) : (s.writeIrqEnable v).params = s.params := rfl
@[simp] theorem State.writeIrqEnable_cmd (v : Word) (s : State) : (s.writeIrqEnable v).cmd = s.cmd := rfl
@[simp] theorem State.writeIrqEnable_status (v : Word) (s : State) : (s.writeIrqEnable v).status = s.status := rfl
@[simp] theorem State.writeIrqEnable_irqStatus (v : Word) (s : State) : (s.writeIrqEnable v).irqStatus = s.irqStatus := rfl
@[simp] theorem State.writeIrqEnable_regs (v : Word) (s : State) : (s.writeIrqEnable v).regs = s.regs := rfl
@[simp] theorem State.writeIrqEnable_bufs (v : Word) (s : State) : (s.writeIrqEnable v).bufs = s.bufs := rfl
@[simp] theorem State.writeIrqEnable_draws (v : Word) (s : State) : (s.writeIrqEnable v).draws = s.draws := rfl
@[simp] theorem State.writeIrqEnable_agenda (v : Word) (s : State) : (s.writeIrqEnable v).agenda = s.agenda := rfl
@[simp] theorem State.writeIrqEnable_reply (v : Word) (s : State) : (s.writeIrqEnable v).reply = s.reply := rfl
@[simp] theorem State.writeIrqEnable_irqEnable (v : Word) (s : State) : (s.writeIrqEnable v).irqEnable = v.setWidth 3 := rfl

/-! ### writeIrqStatus -/

@[simp] theorem State.writeIrqStatus_params (v : Word) (s : State) : (s.writeIrqStatus v).params = s.params := rfl
@[simp] theorem State.writeIrqStatus_cmd (v : Word) (s : State) : (s.writeIrqStatus v).cmd = s.cmd := rfl
@[simp] theorem State.writeIrqStatus_status (v : Word) (s : State) : (s.writeIrqStatus v).status = s.status := rfl
@[simp] theorem State.writeIrqStatus_irqEnable (v : Word) (s : State) : (s.writeIrqStatus v).irqEnable = s.irqEnable := rfl
@[simp] theorem State.writeIrqStatus_regs (v : Word) (s : State) : (s.writeIrqStatus v).regs = s.regs := rfl
@[simp] theorem State.writeIrqStatus_bufs (v : Word) (s : State) : (s.writeIrqStatus v).bufs = s.bufs := rfl
@[simp] theorem State.writeIrqStatus_draws (v : Word) (s : State) : (s.writeIrqStatus v).draws = s.draws := rfl
@[simp] theorem State.writeIrqStatus_agenda (v : Word) (s : State) : (s.writeIrqStatus v).agenda = s.agenda := rfl
@[simp] theorem State.writeIrqStatus_reply (v : Word) (s : State) : (s.writeIrqStatus v).reply = s.reply := rfl
@[simp] theorem State.writeIrqStatus_irqStatus (v : Word) (s : State) : (s.writeIrqStatus v).irqStatus = s.irqStatus &&& ~~~(v.setWidth 3) := rfl

/-! ### launch -/

@[simp] theorem State.launch_params (w : Word) (s : State) : (s.launch w).params = s.params := rfl
@[simp] theorem State.launch_irqEnable (w : Word) (s : State) : (s.launch w).irqEnable = s.irqEnable := rfl
@[simp] theorem State.launch_irqStatus (w : Word) (s : State) : (s.launch w).irqStatus = s.irqStatus := rfl
@[simp] theorem State.launch_regs (w : Word) (s : State) : (s.launch w).regs = s.regs := rfl
@[simp] theorem State.launch_bufs (w : Word) (s : State) : (s.launch w).bufs = s.bufs := rfl
@[simp] theorem State.launch_draws (w : Word) (s : State) : (s.launch w).draws = s.draws := rfl
@[simp] theorem State.launch_reply (w : Word) (s : State) : (s.launch w).reply = s.reply := rfl
@[simp] theorem State.launch_cmd (w : Word) (s : State) : (s.launch w).cmd = w := rfl
@[simp] theorem State.launch_status (w : Word) (s : State) : (s.launch w).status = (s.accept w).status := rfl
@[simp] theorem State.launch_agenda (w : Word) (s : State) : (s.launch w).agenda = .complete :: s.agenda := rfl

/-- The bits of IRQ_STATUS after a completion (R102): DONE_EV is set, ERR_EV is set on an error, DROP_EV stays. -/
theorem State.complete_irqStatus_bits (e : Option ErrorCode) (s : State) :
    (s.complete e).irqStatus.getLsbD 0 = true ∧
      (s.complete e).irqStatus.getLsbD 1 = (s.irqStatus.getLsbD 1 || e.isSome) ∧
      (s.complete e).irqStatus.getLsbD 2 = s.irqStatus.getLsbD 2 := by
  cases e <;> simp [State.complete, doneEv, errEv]

/-- A command's outcome, completed, is a next state; so no meaning stops. -/
@[simp] theorem finish_eq (r : CommandResult) : finish r = .next r.completed := rfl

@[simp] theorem CommandResult.completed_success (s : State) : (CommandResult.success s).completed = s.complete none := rfl

@[simp] theorem CommandResult.completed_error (e : ErrorCode) (s : State) :
    (CommandResult.error e s).completed = s.complete (some e) := rfl

end Sys2Proof.Machine
end

