-- ==== Sys2Proof/Laws/HostPort.lean ====
section
/-! SUPPORT. What the host port does, said once: which state a write of a location leaves alone, and what a window's
word holds before and after a write. -/

namespace Sys2Proof.Machine

/-! ### What a host write leaves alone -/

@[simp] theorem writeLocation_agenda (l : Location) (v : Word) (s : State) :
    (writeLocation l v s).agenda = s.agenda := by
  cases l with
  | reg r => cases r <;> rfl
  | _ => simp only [writeLocation, State.clearCodesValid_agenda]

@[simp] theorem writeLocation_params (l : Location) (v : Word) (s : State) :
    (writeLocation l v s).params = s.params := by
  cases l with
  | reg r => cases r <;> rfl
  | _ => simp only [writeLocation, State.clearCodesValid_params]

@[simp] theorem writeLocation_draws (l : Location) (v : Word) (s : State) :
    (writeLocation l v s).draws = s.draws := by
  cases l with
  | reg r => cases r <;> rfl
  | _ => simp only [writeLocation, State.clearCodesValid_draws]

/-- A write of a window changes the buffers and, in the CT window, clears CODES_VALID; nothing else (R67, R69). -/
theorem writeLocation_window {l : Location} (v : Word) (s : State) (h : ∀ r, l ≠ .reg r) :
    ∃ c, (c = s.status.codesValid ∨ c = false) ∧
      writeLocation l v s =
        { s with bufs := (writeLocation l v s).bufs, status := { s.status with codesValid := c } } := by
  cases l with
  | reg r => exact absurd rfl (h r)
  | ctLen => exact ⟨false, .inr rfl, by simp only [writeLocation, State.clearCodesValid]⟩
  | ctBits => exact ⟨false, .inr rfl, by simp only [writeLocation, State.clearCodesValid]⟩
  | _ => exact ⟨s.status.codesValid, .inl rfl, by simp only [writeLocation]⟩

/-! ### Words of elements -/

/-- Bit j of a packed word is a bit of byte ⌊j/8⌋ (R77). -/
theorem packBytes_getLsbD (b0 b1 b2 b3 : BitVec 8) (j : Nat) (h : j < 32) :
    (packBytes b0 b1 b2 b3).getLsbD j =
      if j < 8 then b0.getLsbD j else if j < 16 then b1.getLsbD (j - 8) else if j < 24 then b2.getLsbD (j - 16)
      else b3.getLsbD (j - 24) := by
  simp only [packBytes, BitVec.getLsbD_append]
  split_ifs <;> first | rfl | omega

/-- Byte k of a packed word (R77). -/
theorem byteOf_packBytes (b : Nat → BitVec 8) {k : Nat} (h : k < 4) :
    (packBytes (b 0) (b 1) (b 2) (b 3)).extractLsb' (8 * k) 8 = b k := by
  apply BitVec.eq_of_getLsbD_eq
  intro i hi
  rw [BitVec.getLsbD_extractLsb', packBytes_getLsbD _ _ _ _ _ (by omega)]
  have : k = 0 ∨ k = 1 ∨ k = 2 ∨ k = 3 := by omega
  rcases this with rfl | rfl | rfl | rfl
  · simp [hi]
  · simp [hi, show 8 + i < 16 by omega]
  · simp [hi, show ¬ 16 + i < 8 by omega, show 16 + i < 24 by omega]
  · simp [hi, show ¬ 24 + i < 8 by omega, show ¬ 24 + i < 16 by omega]

/-- An element after the four elements of word k are written. -/
theorem Memory.get_ofFour {α : Type} [Inhabited α] (m : Memory α) (k j : Nat) (f : Nat → α) :
    (m.setSeq (4 * k) [f 0, f 1, f 2, f 3]).get j = if j / 4 = k then f (j % 4) else m.get j := by
  rw [Memory.get_setSeq]
  by_cases h : 4 * k ≤ j
  · rw [if_pos h]
    by_cases h2 : j / 4 = k
    · have : j % 4 = j - 4 * k := by omega
      rw [if_pos h2, ← this]
      have : j % 4 = 0 ∨ j % 4 = 1 ∨ j % 4 = 2 ∨ j % 4 = 3 := by omega
      rcases this with h | h | h | h <;> simp [h]
    · rw [if_neg h2, List.getD_eq_default]; simp; omega
  · rw [if_neg h, if_neg (by omega)]

/-- R78. -/
theorem setSymbolWord_get (m : Memory Symbol) (k j : Nat) (w : Word) :
    (setSymbolWord m k w).get j = if j / 4 = k then w.extractLsb' (8 * (j % 4)) 8 else m.get j :=
  Memory.get_ofFour m k j (byteOf w)

/-- R78. -/
theorem symbolWord_byte (m : Memory Symbol) (i : Nat) :
    (symbolWord m (i / 4)).extractLsb' (8 * (i % 4)) 8 = m.get i := by
  have := byteOf_packBytes (fun k => m.get (4 * (i / 4) + k)) (k := i % 4) (by omega)
  rw [show 4 * (i / 4) + i % 4 = i by omega] at this
  exact this

/-- R80. -/
theorem codewordWord_byte (m : Memory Codeword) (i : Nat) :
    (codewordWord m (i / 4)).extractLsb' (8 * (i % 4)) 8 = codewordByte (m.get i) := by
  have := byteOf_packBytes (fun k => codewordByte (m.get (4 * (i / 4) + k))) (k := i % 4) (by omega)
  rw [show 4 * (i / 4) + i % 4 = i by omega] at this
  exact this

/-- R80. -/
theorem setCodewordWord_get (m : Memory Codeword) (k j : Nat) (w : Word) :
    (setCodewordWord m k w).get j = if j / 4 = k then (byteOf w (j % 4)).setWidth 7 else m.get j :=
  Memory.get_ofFour m k j fun i => (byteOf w i).setWidth 7

theorem codewordByte_setWidth (w : Word) (i : Nat) :
    (byteOf w i).setWidth 7 = w.extractLsb' (8 * i) 7 := by
  apply BitVec.eq_of_getLsbD_eq
  intro j hj
  simp [byteOf, hj, show j < 8 by omega]

/-- R79, R81. -/
theorem bitWord_getLsbD (m : Memory Bool) (k j : Nat) (h : j < 32) :
    (bitWord m k).getLsbD j = m.get (32 * k + j) := by
  rw [bitWord, packBits_getLsbD _ _ (by simp), List.getD_eq_getElem _ _ (by simpa using h)]
  simp

/-- R79. -/
theorem setBitWord_get (m : Memory Bool) (k j : Nat) (w : Word) :
    (setBitWord m k w).get j = if j / 32 = k then w.getLsbD (j % 32) else m.get j := by
  rw [setBitWord, Memory.get_setSeq]
  have hl : (unpackBits w).length = 32 := by simp [unpackBits]
  by_cases h : 32 * k ≤ j
  · rw [if_pos h]
    by_cases h2 : j / 32 = k
    · have h3 : j - 32 * k < 32 := by omega
      rw [if_pos h2, List.getD_eq_getElem _ _ (by omega)]
      simp [unpackBits, show j % 32 = j - 32 * k by omega]
    · rw [if_neg h2, List.getD_eq_default]; omega
  · rw [if_neg h, if_neg (by omega)]

/-! ### The canonical form and the bounds of a window's write -/

theorem wf_setSymbolWord {m : Memory Symbol} (k : Nat) (w : Word) (h : m.wf) : (setSymbolWord m k w).wf :=
  Memory.wf_setSeq _ _ h

theorem wf_setBitWord {m : Memory Bool} (k : Nat) (w : Word) (h : m.wf) : (setBitWord m k w).wf :=
  Memory.wf_setSeq _ _ h

theorem wf_setCodewordWord {m : Memory Codeword} (k : Nat) (w : Word) (h : m.wf) : (setCodewordWord m k w).wf :=
  Memory.wf_setSeq _ _ h

theorem within_setSymbolWord {m : Memory Symbol} {k n : Nat} (w : Word) (hk : 4 * k + 4 ≤ n) (h : m.within n) :
    (setSymbolWord m k w).within n := Memory.within_setSeq hk h

theorem within_setBitWord {m : Memory Bool} {k n : Nat} (w : Word) (hk : 32 * k + 32 ≤ n) (h : m.within n) :
    (setBitWord m k w).within n := Memory.within_setSeq (by simpa [unpackBits] using hk) h

theorem within_setCodewordWord {m : Memory Codeword} {k n : Nat} (w : Word) (hk : 4 * k + 4 ≤ n) (h : m.within n) :
    (setCodewordWord m k w).within n := Memory.within_setSeq hk h

@[simp] theorem draw_setSymbolWord (m : Memory Symbol) (k : Nat) (w : Word) : (setSymbolWord m k w).draw = m.draw :=
  Memory.draw_setSeq _ _ _

@[simp] theorem draw_setBitWord (m : Memory Bool) (k : Nat) (w : Word) : (setBitWord m k w).draw = m.draw :=
  Memory.draw_setSeq _ _ _

@[simp] theorem draw_setCodewordWord (m : Memory Codeword) (k : Nat) (w : Word) :
    (setCodewordWord m k w).draw = m.draw := Memory.draw_setSeq _ _ _

/-! ### The address map -/

/-- The map of one 64 KiB block (R76). -/
theorem locate_block (p : Params) (n : Nat) {o : Nat} (ho : o < 0x10000) :
    locate p (0x10000 * n + o) =
      match n with
      | 0 => lowAt o
      | 1 => windowAt p.textCap o .sym
      | 2 => windowAt p.outCap o .out
      | 3 => windowAt (p.bitCap / 8) o .huf
      | 4 => windowAt (p.bitCap / 8) o .dat
      | 5 => windowAt p.blkCap o .cw
      | 6 => windowAt p.blkCap o .rx
      | 7 => windowAt (p.blkCap / 8) o .eflag
      | _ => none := by
  have h1 : (0x10000 * n + o) / 0x10000 = n := by omega
  have h2 : (0x10000 * n + o) % 0x10000 = o := by omega
  unfold locate
  rw [h1, h2]
  split <;> simp_all

theorem locate_low (p : Params) {a : Nat} (h : a < 0x10000) : locate p a = lowAt a := by
  have := locate_block p 0 h
  simpa using this

theorem lowAt_freq {k : Nat} (h : k < 256) : lowAt (0x1000 + 4 * k) = some (.freq k) := by
  unfold lowAt
  rw [if_neg (by omega), if_pos (by omega)]
  congr 2; omega

theorem lowAt_ct {o : Nat} (h : o < 0x4000) : lowAt (0x4000 + o) = ctAt o := by
  unfold lowAt
  rw [if_neg (by omega), if_neg (by omega), if_neg (by omega), if_pos (by omega), Nat.add_sub_cancel_left]

theorem ctAt_len (x : Nat) : ctAt (64 * x) = some (.ctLen x) := by
  have h1 : 64 * x % 64 = 0 := by omega
  have h2 : 64 * x / 64 = x := by omega
  simp [ctAt]

theorem ctAt_bits (x : Nat) {k : Nat} (h : k < 8) : ctAt (64 * x + 4 + 4 * k) = some (.ctBits x k) := by
  have h1 : (64 * x + 4 + 4 * k) % 64 = 4 + 4 * k := by omega
  have h2 : (64 * x + 4 + 4 * k) / 64 = x := by omega
  simp only [ctAt, h1, h2]
  rw [if_neg (by omega), if_pos (by omega)]
  congr 2; omega

theorem ctAt_none (x : Nat) {o : Nat} (h1 : 0x24 ≤ o) (h2 : o < 0x40) : ctAt (64 * x + o) = none := by
  have h3 : (64 * x + o) % 64 = o := by omega
  simp only [ctAt, h3]
  rw [if_neg (by omega), if_neg (by omega)]

/-- Register addresses of R20, and only those, are registers (R47). -/
theorem regAt_regAddr (r : Reg) : regAt (regAddr r).toNat = some r := by cases r <;> rfl

theorem regAt_eq_none {a : Nat} (h : ∀ r, a ≠ (regAddr r).toNat) : regAt a = none := by
  cases hr : regAt a with
  | none => rfl
  | some r =>
    refine absurd ?_ (h r)
    unfold regAt at hr
    split at hr <;> first | (injection hr with hr; subst hr; rfl) | cases hr

theorem locate_regAddr (p : Params) (r : Reg) : locate p (regAddr r).toNat = some (.reg r) := by
  rw [locate_low p (by cases r <;> decide), lowAt, if_pos (by cases r <;> decide), regAt_regAddr]; rfl

theorem windowAt_of_lt {used : Nat} {o : Nat} (loc : Nat → Location) (h : o < used) :
    windowAt used o loc = some (loc (o / 4)) := if_pos h

end Sys2Proof.Machine
end

