-- ==== Sys2Proof/Laws/PerInstr.lean ====
section
/-! SUPPORT. The statements made for every command, one lemma for each constructor. -/

namespace Sys2Proof.Laws.CommandWord

/-- The word of a command is legal (R89), a row of 32 bits stands for exactly that word, and the word's OP and SRC are
the command's (R88). -/
def Statement (i : Instr) : Prop :=
  legalWord (encode i) = true ∧ tableWord 32 (encode i).toNat = encode i ∧ opField (encode i) = opcodeOf i ∧
    BitVec.ofBool (srcField (encode i)) = srcOf i

theorem nop : Statement .nop := by unfold Statement; decide

theorem buildCodes : Statement .buildCodes := by unfold Statement; decide

theorem hufEncode : Statement .hufEncode := by unfold Statement; decide

theorem decompressSrc0 : Statement .decompressSrc0 := by unfold Statement; decide

theorem decompressSrc1 : Statement .decompressSrc1 := by unfold Statement; decide

theorem hamEncode : Statement .hamEncode := by unfold Statement; decide

theorem injectNoise : Statement .injectNoise := by unfold Statement; decide

theorem hamDecode : Statement .hamDecode := by unfold Statement; decide

end Sys2Proof.Laws.CommandWord
end

