-- ==== Sys2Proof/Laws/Step.lean ====
section
/-! SUPPORT. What a command, a turn and a step can do, said once. -/

namespace Sys2Proof.Machine

/-! ### Completions -/

/-- A completion applied to a state that agrees with `s` outside a command's outputs. -/
theorem completed_complete {s t : State} (e : Option ErrorCode) (hc : t.cmd = s.cmd) (hl : t.status.lastOp = s.status.lastOp)
    (hi : t.irqStatus = s.irqStatus) (he : t.irqEnable = s.irqEnable) (hp : t.params = s.params)
    (ha : t.agenda = s.agenda) (hr : t.reply = s.reply) : Completed s (t.complete e) e := by
  obtain ⟨h0, h1, h2⟩ := State.complete_irqStatus_bits e t
  refine ⟨rfl, rfl, rfl, rfl, ?_, h0, ?_, ?_, ?_, ?_, ?_, ?_, ?_⟩ <;> simp_all

theorem completedUnchanged_complete (s : State) (e : Option ErrorCode) : CompletedUnchanged s (s.complete e) e :=
  ⟨completed_complete e rfl rfl rfl rfl rfl rfl rfl, rfl, rfl, rfl, rfl⟩

/-! ### The outcomes of the commands -/

/-- The outcome of a command (R101). -/
def resultOf : Instr → State → CommandResult
  | .nop, s => .success s
  | .buildCodes, s => buildCodes s
  | .hufEncode, s => hufEncode s
  | .decompressSrc0, s => decompress s.regs.hufLen s.hufBits s
  | .decompressSrc1, s => decompress s.regs.datLen s.datBits s
  | .hamEncode, s => hamEncode s
  | .injectNoise, s => injectNoise s
  | .hamDecode, s => hamDecode s

/-- Every command completes with its outcome (R102). -/
theorem exec_eq (i : Instr) (s : State) : exec i s = .next (resultOf i s).completed := by cases i <;> rfl

/-- What BUILD_CODES can do. -/
theorem buildCodes_cases (s : State) :
    (s.params.textCap < s.regs.symLen.toNat ∧ buildCodes s = .error .capacity s) ∨
    (s.regs.symLen.toNat ≤ s.params.textCap ∧ s.regs.symLen.toNat = 0 ∧ buildCodes s = .error .invalidInput s) ∨
    (s.regs.symLen.toNat ≤ s.params.textCap ∧ 1 ≤ s.regs.symLen.toNat ∧
      buildCodes s = .success { s with
        regs := { s.regs with
          hufLen := BitVec.ofNat 32 (concatCodes (codesOfText s.text) s.text).length
          nSymbols := BitVec.ofNat 32 (leaves (freq s.text)).length }
        bufs := { writeTable (codesOfText s.text) s.bufs with
          freqBuf := s.bufs.freqBuf.setAll 256 fun k => BitVec.ofNat 32 (freq s.text k)
          hufBuf := s.bufs.hufBuf.setSeq 0 (concatCodes (codesOfText s.text) s.text) }
        status := { s.status with codesValid := true } }) := by
  unfold buildCodes
  by_cases h1 : s.params.textCap < s.regs.symLen.toNat
  · exact .inl ⟨h1, by simp [h1]⟩
  · by_cases h2 : s.regs.symLen.toNat = 0
    · exact .inr (.inl ⟨by omega, h2, by simp [h2]⟩)
    · exact .inr (.inr ⟨by omega, by omega, by simp [h1, h2]⟩)

/-- What HUF_ENCODE can do. -/
theorem hufEncode_cases (s : State) :
    (s.params.textCap < s.regs.symLen.toNat ∧ hufEncode s = .error .capacity s) ∨
    (s.regs.symLen.toNat ≤ s.params.textCap ∧ ∃ e, encodeStream s.params.bitCap s.bufs.codeTable s.text = .error e ∧
      hufEncode s = .error e s.spoilHuf) ∨
    (s.regs.symLen.toNat ≤ s.params.textCap ∧ ∃ bits, encodeStream s.params.bitCap s.bufs.codeTable s.text = .ok bits ∧
      hufEncode s = .success { s with
        regs := { s.regs with hufLen := BitVec.ofNat 32 bits.length }
        bufs := { s.bufs with hufBuf := s.bufs.hufBuf.setSeq 0 bits } }) := by
  unfold hufEncode
  by_cases h1 : s.params.textCap < s.regs.symLen.toNat
  · exact .inl ⟨h1, by simp [h1]⟩
  · cases h2 : encodeStream s.params.bitCap s.bufs.codeTable s.text with
    | error e => exact .inr (.inl ⟨by omega, e, rfl, by simp [h1]⟩)
    | ok bits => exact .inr (.inr ⟨by omega, bits, rfl, by simp [h1]⟩)

/-- What DECOMPRESS can do. -/
theorem decompress_cases (len : Word) (bits : Bits) (s : State) :
    (s.params.bitCap < len.toNat ∧ decompress len bits s = .error .capacity s) ∨
    (len.toNat ≤ s.params.bitCap ∧ prefixFree s.bufs.codeTable = false ∧
      decompress len bits s = .error .ambiguousCode s) ∨
    (len.toNat ≤ s.params.bitCap ∧ prefixFree s.bufs.codeTable = true ∧
      ∃ e, decodeStream s.params.outCap s.bufs.codeTable bits = .error e ∧ decompress len bits s = .error e s.spoilOut) ∨
    (len.toNat ≤ s.params.bitCap ∧ prefixFree s.bufs.codeTable = true ∧
      ∃ text, decodeStream s.params.outCap s.bufs.codeTable bits = .ok text ∧
        decompress len bits s = .success { s with
          regs := { s.regs with outLen := BitVec.ofNat 32 text.length }
          bufs := { s.bufs with outBuf := s.bufs.outBuf.setSeq 0 text } }) := by
  unfold decompress
  by_cases h1 : s.params.bitCap < len.toNat
  · exact .inl ⟨h1, by simp [h1]⟩
  · cases h2 : prefixFree s.bufs.codeTable with
    | false => exact .inr (.inl ⟨by omega, rfl, by simp [h1]⟩)
    | true =>
      cases h3 : decodeStream s.params.outCap s.bufs.codeTable bits with
      | error e => exact .inr (.inr (.inl ⟨by omega, rfl, e, rfl, by simp [h1]⟩))
      | ok text => exact .inr (.inr (.inr ⟨by omega, rfl, text, rfl, by simp [h1]⟩))

/-- What HAM_ENCODE can do. -/
theorem hamEncode_cases (s : State) :
    (s.params.bitCap < s.regs.hufLen.toNat ∧ hamEncode s = .error .capacity s) ∨
    (s.regs.hufLen.toNat ≤ s.params.bitCap ∧ hamEncode s = .success { s with
      regs := { s.regs with cwCnt := BitVec.ofNat 32 ((s.regs.hufLen.toNat + 3) / 4) }
      bufs := { s.bufs with
        cwBuf := (s.bufs.cwBuf.setSeq 0 <|
          (List.range ((s.regs.hufLen.toNat + 3) / 4)).map fun g => henc4 (groupOf s.hufBits g)) } }) := by
  unfold hamEncode
  by_cases h1 : s.params.bitCap < s.regs.hufLen.toNat
  · exact .inl ⟨h1, by simp [h1]⟩
  · exact .inr ⟨by omega, by simp [h1]⟩

/-- What INJECT_NOISE can do. -/
theorem injectNoise_cases (s : State) :
    (s.params.blkCap < s.regs.cwCnt.toNat ∧ injectNoise s = .error .capacity s) ∨
    (s.regs.cwCnt.toNat ≤ s.params.blkCap ∧ 7 * s.regs.cwCnt.toNat < s.regs.noiseCnt.toNat ∧
      injectNoise s = .error .invalidInput s) ∨
    (s.regs.cwCnt.toNat ≤ s.params.blkCap ∧ s.regs.noiseCnt.toNat ≤ 7 * s.regs.cwCnt.toNat ∧
      injectNoise s = .success { s with
        regs := { s.regs with rxCnt := s.regs.cwCnt }
        bufs := { s.bufs with
          rxBuf := (s.bufs.rxBuf.setSeq 0 <|
            (noiseSelect s.regs.noiseSeed (7 * s.regs.cwCnt.toNat) s.regs.noiseCnt.toNat).foldl flipFlat
              s.codewords) } }) := by
  unfold injectNoise
  by_cases h1 : s.params.blkCap < s.regs.cwCnt.toNat
  · exact .inl ⟨h1, by simp [h1]⟩
  · by_cases h2 : 7 * s.regs.cwCnt.toNat < s.regs.noiseCnt.toNat
    · exact .inr (.inl ⟨by omega, h2, by simp [h1, h2]⟩)
    · exact .inr (.inr ⟨by omega, by omega, by simp [h1, h2]⟩)

/-- What HAM_DECODE can do. -/
theorem hamDecode_cases (s : State) :
    (s.params.blkCap < s.regs.rxCnt.toNat ∧ hamDecode s = .error .capacity s) ∨
    (s.regs.rxCnt.toNat ≤ s.params.blkCap ∧ hamDecode s = .success { s with
      regs := { s.regs with
        datLen := BitVec.ofNat 32 (4 * s.regs.rxCnt.toNat)
        errCount := BitVec.ofNat 32 ((s.received.map hdec7).countP Prod.snd) }
      bufs := { s.bufs with
        datBuf := s.bufs.datBuf.setSeq 0 ((s.received.map hdec7).flatMap fun b => nibbleBits b.1)
        eflagBuf := s.bufs.eflagBuf.setSeq 0 ((s.received.map hdec7).map Prod.snd) } }) := by
  unfold hamDecode
  by_cases h1 : s.params.blkCap < s.regs.rxCnt.toNat
  · exact .inl ⟨h1, by simp [h1]⟩
  · exact .inr ⟨by omega, by simp [h1]⟩

/-! ### Turns and steps -/

/-- What the engine's turn can do: nothing while idle, the completion of the command in CMD otherwise (R102, R149). -/
theorem engineTurn_cases (s : State) :
    (s.status.busy = false ∧ engineTurn s = .next s) ∨
    (s.status.busy = true ∧ ∃ i, decode s.cmd = .ok i ∧ engineTurn s = exec i s) ∨
    (s.status.busy = true ∧ (∃ e, decode s.cmd = .error e) ∧ engineTurn s = .next (s.complete (some .badCommand))) := by
  unfold engineTurn
  cases hb : s.status.busy with
  | false => exact .inl ⟨rfl, by simp⟩
  | true =>
    cases hd : decode s.cmd with
    | ok i => exact .inr (.inl ⟨rfl, i, rfl, by simp [runCommand, hd]⟩)
    | error e => exact .inr (.inr ⟨rfl, ⟨e, rfl⟩, by simp [runCommand, hd, badCommand]⟩)

/-- The step after a launch is the engine's (R100, R102). -/
theorem step_launch (w : Word) (s : State) : step (s.launch w) = runCommand (s.accept w) := by
  simp [step, nextTurn, State.launch, takeTurn, engineTurn, State.accept]

/-- What a step can do: the turn that is listed first, or the engine's. -/
theorem step_cases {s t : State} (h : step s = .next t) :
    (s.agenda = [] ∧ engineTurn s = .next t) ∨
    (∃ rest, s.agenda = .complete :: rest ∧ engineTurn { s with agenda := rest } = .next t) ∨
    (∃ a n rest, s.agenda = .memRead a n :: rest ∧ t = hostRead a n { s with agenda := rest }) ∨
    (∃ a n v rest, s.agenda = .memWrite a n v :: rest ∧ t = hostWrite a n v { s with agenda := rest }) ∨
    (∃ rest, s.agenda = .reset :: rest ∧ t = State.takeReset { s with agenda := rest }) := by
  unfold step nextTurn at h
  cases ha : s.agenda with
  | nil => rw [ha] at h; exact .inl ⟨rfl, h⟩
  | cons e rest =>
    rw [ha] at h
    cases e with
    | memRead a n => exact .inr (.inr (.inl ⟨a, n, rest, rfl, by simpa [takeTurn] using h.symm⟩))
    | memWrite a n v => exact .inr (.inr (.inr (.inl ⟨a, n, v, rest, rfl, by simpa [takeTurn] using h.symm⟩)))
    | complete => exact .inr (.inl ⟨rest, rfl, h⟩)
    | reset => exact .inr (.inr (.inr (.inr ⟨rest, rfl, by simpa [takeTurn] using h.symm⟩)))

/-- What a host read can do (R65, R66, R68, R72). -/
theorem hostRead_cases (a : Addr) (n : Nat) (s : State) :
    (reaches a n s = none ∧ hostRead a n s = s.answer .error (some 0#32)) ∨
    (∃ l, reaches a n s = some l ∧ (s.status.busy = false ∨ readableWhileBusy l = true) ∧
      hostRead a n s = s.answer .okay (some (readLocation l s))) ∨
    (∃ l, reaches a n s = some l ∧ s.status.busy = true ∧ readableWhileBusy l = false ∧
      hostRead a n s = { s with draws := s.draws + 1 }.answer .okay (some (Config.free s.draws 0))) := by
  unfold hostRead
  cases hr : reaches a n s with
  | none => exact .inl ⟨rfl, rfl⟩
  | some l =>
    refine .inr ?_
    cases hb : s.status.busy <;> cases hl : readableWhileBusy l
    · exact .inl ⟨l, rfl, .inl rfl, by simp⟩
    · exact .inl ⟨l, rfl, .inl rfl, by simp⟩
    · exact .inr ⟨l, rfl, rfl, hl, by simp [hl]⟩
    · exact .inl ⟨l, rfl, .inr hl, by simp [hl]⟩

/-- What a host write can do (R65 to R67, R69, R71). -/
theorem hostWrite_cases (a : Addr) (n : Nat) (v : Word) (s : State) :
    (reaches a n s = none ∧ hostWrite a n v s = s.answer .error none) ∨
    (∃ l, reaches a n s = some l ∧ (s.status.busy = false ∨ writableWhileBusy l = true) ∧
      hostWrite a n v s = (writeLocation l v s).answer .okay none) ∨
    (∃ l, reaches a n s = some l ∧ s.status.busy = true ∧ writableWhileBusy l = false ∧
      hostWrite a n v s = s.noteDrop.answer .okay none) := by
  unfold hostWrite
  cases hr : reaches a n s with
  | none => exact .inl ⟨rfl, rfl⟩
  | some l =>
    refine .inr ?_
    cases hb : s.status.busy <;> cases hl : writableWhileBusy l
    · exact .inl ⟨l, rfl, .inl rfl, by simp⟩
    · exact .inl ⟨l, rfl, .inl rfl, by simp⟩
    · exact .inr ⟨l, rfl, rfl, hl, by simp [hl]⟩
    · exact .inl ⟨l, rfl, .inr hl, by simp [hl]⟩

theorem reaches_eq_some {a : Addr} {n : Nat} {s : State} {l : Location} :
    reaches a n s = some l ↔ n = 4 ∧ a.toNat % 4 = 0 ∧ locate s.params a.toNat = some l := by
  unfold reaches accessAllowed
  by_cases h1 : n = 4 <;> by_cases h2 : a.toNat % 4 = 0 <;> simp [h1, h2]

theorem reaches_eq_none {a : Addr} {n : Nat} {s : State} :
    reaches a n s = none ↔ n ≠ 4 ∨ a.toNat % 4 ≠ 0 ∨ locate s.params a.toNat = none := by
  unfold reaches accessAllowed
  by_cases h1 : n = 4 <;> by_cases h2 : a.toNat % 4 = 0 <;> simp [h1, h2]

/-- A location writable while a command runs is one of the two interrupt registers (R71). -/
theorem writableWhileBusy_iff {l : Location} :
    writableWhileBusy l = true ↔ l = .reg .irqEnable ∨ l = .reg .irqStatus := by
  cases l with
  | reg r => cases r <;> simp [writableWhileBusy]
  | _ => simp [writableWhileBusy]

end Sys2Proof.Machine
end

