-- ==== Sys2Proof/Tests/Slice0.lean ====
section
/-! SUPPORT. The model's own tests, with expected values from spec/95_test_vectors.md (V-…) and from the examples in the
rules, and a witness for the hypotheses of every statement that has some. -/

namespace Sys2Proof.Tests

open Sys2Proof Sys2Proof.Machine

set_option Elab.async false

/-! ### Small states -/

/-- The block after reset with TEXT_CAP = 16 and OUT_CAP = 4, so BIT_CAP = 128 and BLK_CAP = 32; its draws start at
`d`. -/
def small (d : Nat) : State := State.atReset ⟨16, 4⟩ d

/-- A state with other turns to come. -/
def listing (ag : List Event) (s : State) : State := { s with agenda := ag }

/-- A state with other registers. -/
def withRegs (f : Regs → Regs) (s : State) : State := { s with regs := f s.regs }

/-- A state whose SYM_BUF begins with a text, and SYM_LEN its length. -/
def withText (text : List Symbol) (s : State) : State :=
  { s with regs := { s.regs with symLen := BitVec.ofNat 32 text.length }
           bufs := { s.bufs with symBuf := s.bufs.symBuf.setSeq 0 text } }

/-- A state whose CT holds a table, and nothing else. -/
def withTable (t : CodeTable) (s : State) : State := { s with bufs := writeTable t s.bufs }

/-- A state whose HUF_BUF begins with bits, and HUF_LEN their number. -/
def withHuf (bits : Bits) (s : State) : State :=
  { s with regs := { s.regs with hufLen := BitVec.ofNat 32 bits.length }
           bufs := { s.bufs with hufBuf := s.bufs.hufBuf.setSeq 0 bits } }

/-- A state whose DAT_BUF begins with bits, and DAT_LEN their number. -/
def withDat (bits : Bits) (s : State) : State :=
  { s with regs := { s.regs with datLen := BitVec.ofNat 32 bits.length }
           bufs := { s.bufs with datBuf := s.bufs.datBuf.setSeq 0 bits } }

/-- A state whose CW_BUF begins with codewords, and CW_CNT their number. -/
def withCw (cs : List Codeword) (s : State) : State :=
  { s with regs := { s.regs with cwCnt := BitVec.ofNat 32 cs.length }
           bufs := { s.bufs with cwBuf := s.bufs.cwBuf.setSeq 0 cs } }

/-- A state whose RX_BUF begins with codewords, and RX_CNT their number. -/
def withRx (cs : List Codeword) (s : State) : State :=
  { s with regs := { s.regs with rxCnt := BitVec.ofNat 32 cs.length }
           bufs := { s.bufs with rxBuf := s.bufs.rxBuf.setSeq 0 cs } }

/-- What a function reads in the next state, none at a fault or a refusal. -/
def after {α : Type} (o : Host.Outcome State Fault Refusal) (f : State → α) : Option α :=
  match o with
  | .next t => some (f t)
  | .fault _ => none
  | .refused _ => none

/-- The symbols 'a', 'b', 'c'. -/
def a : Symbol := 0x61#8
def b : Symbol := 0x62#8
def c : Symbol := 0x63#8

/-- "aabbbcc". -/
def aabbbcc : List Symbol := [a, a, b, b, b, c, c]

/-- The table of V-H1: b "0", a "10", c "11". -/
def tableH1 : CodeTable := [(a, [true, false]), (b, [false]), (c, [true, true])]

/-! ### Well-formedness -/

theorem test_wf_reserved_opcode_refused : legalWord 0x00000007#32 = false := by decide
theorem test_wf_opcode_15_refused : legalWord 0x0000000F#32 = false := by decide
theorem test_wf_bit_4_refused : legalWord 0x00000010#32 = false := by decide
theorem test_wf_bit_7_refused : legalWord 0x00000081#32 = false := by decide
theorem test_wf_bit_9_refused : legalWord 0x00000203#32 = false := by decide
theorem test_wf_bit_31_refused : legalWord 0x80000003#32 = false := by decide
theorem test_wf_src_refused : legalWord 0x00000104#32 = false := by decide
theorem test_wf_src_of_decompress_accepted : legalWord 0x00000103#32 = true := by decide

theorem test_params_text_multiple_refused : (Params.mk 24 4096).legal = false := by decide
theorem test_params_text_low_refused : (Params.mk 0 4096).legal = false := by decide
theorem test_params_text_high_refused : (Params.mk 32784 4096).legal = false := by decide
theorem test_params_out_multiple_refused : (Params.mk 4096 6).legal = false := by decide
theorem test_params_out_low_refused : (Params.mk 4096 0).legal = false := by decide
theorem test_params_out_high_refused : (Params.mk 4096 65540).legal = false := by decide
theorem test_params_limits_accepted : (Params.mk 16 4).legal = true ∧ (Params.mk 32768 65536).legal = true := by decide

/-! ### Decoding: the words of R88 written out from the fields of R87, bits 31 to 9, SRC, bits 7 to 4, OP -/

theorem test_decode_nop : decodeTableWord 32 0b00000000000000000000000_0_0000_0000 = some .nop := by decide
theorem test_decode_buildCodes : decodeTableWord 32 0b00000000000000000000000_0_0000_0001 = some .buildCodes := by decide
theorem test_decode_hufEncode : decodeTableWord 32 0b00000000000000000000000_0_0000_0010 = some .hufEncode := by decide
theorem test_decode_decompressSrc0 :
    decodeTableWord 32 0b00000000000000000000000_0_0000_0011 = some .decompressSrc0 := by decide
theorem test_decode_decompressSrc1 :
    decodeTableWord 32 0b00000000000000000000000_1_0000_0011 = some .decompressSrc1 := by decide
theorem test_decode_hamEncode : decodeTableWord 32 0b00000000000000000000000_0_0000_0100 = some .hamEncode := by decide
theorem test_decode_injectNoise : decodeTableWord 32 0b00000000000000000000000_0_0000_0101 = some .injectNoise := by decide
theorem test_decode_hamDecode : decodeTableWord 32 0b00000000000000000000000_0_0000_0110 = some .hamDecode := by decide

theorem test_decode_reserved_names :
    decode 0x00000008#32 = .error .reservedOpcode ∧ decode 0x0000FF07#32 = .error .reservedOpcode ∧
      decode 0x00000010#32 = .error .reservedBits ∧ decode 0x00000101#32 = .error .srcNotAllowed := by decide

/-! ### Commands -/

/-- V-A6. -/
theorem test_nop : after (step (State.reset.withFetchWord 32 0)) (fun t => (readReg .status t, readReg .irqStatus t, t.irq)) =
    some (0x00000002#32, 0x00000001#32, false) := by decide +kernel

/-- V-A8: LAST_OP and the code of an illegal word. -/
theorem test_bad_command : after (step (State.reset.withFetchWord 32 7))
    (fun t => (readReg .status t, readReg .cmd t, readReg .irqStatus t)) =
    some (0x00007606#32, 0x00000007#32, 0x00000003#32) := by decide +kernel

/-- V-H1: the CT words and the counts of a, b and c. -/
theorem test_buildCodes_table : after (step ((withText aabbbcc (small 0)).withFetchWord 32 1)) (fun t =>
      [a, b, c].map fun x => (t.bufs.ctLen.get x.toNat, t.bufs.ctBits.get (8 * x.toNat), t.bufs.freqBuf.get x.toNat)) =
    some [(2#8, 0x1#32, 2#32), (1#8, 0x0#32, 3#32), (2#8, 0x3#32, 2#32)] := by decide +kernel

/-- V-H1: the stream, HUF_LEN, N_SYMBOLS and STATUS. -/
theorem test_buildCodes_stream : after (step ((withText aabbbcc (small 0)).withFetchWord 32 1)) (fun t =>
      (t.hufBits, t.regs.hufLen, t.regs.nSymbols, readReg .status t)) =
    some ([true, false, true, false, false, false, false, true, true, true, true], 11#32, 3#32, 0x0000100A#32) := by
  decide +kernel

/-- V-H9: "abba" with a "0" and b "1". -/
theorem test_hufEncode : after (exec .hufEncode (withText [a, b, b, a] (withTable [(a, [false]), (b, [true])] (small 0))))
    (fun t => (t.regs.hufLen, t.hufBits)) = some (4#32, [false, true, true, false]) := by decide +kernel

/-- V-H9: an unknown symbol. -/
theorem test_hufEncode_unknown :
    after (step ((withHuf [true] (withText [a, b, c] (withTable [(a, [false]), (b, [true])] (small 0)))).withFetchWord 32 2))
      (fun t => (readReg .status t, t.regs.hufLen)) = some (0x00002406#32, 0#32) := by decide +kernel

/-- V-H7: "00010" gives "bbba". -/
theorem test_decompressSrc0 : after (exec .decompressSrc0
      (withHuf [false, false, false, true, false] (withTable tableH1 (small 0))))
    (fun t => (t.regs.outLen, t.bufs.outBuf.getSeq 0 4)) = some (4#32, [b, b, b, a]) := by decide +kernel

/-- V-H7: "101" leaves a bit that is no code. -/
theorem test_decompressSrc0_corrupt : after (step
      ((withHuf [true, false, true] (withTable tableH1 (small 0))).withFetchWord 32 3))
    (fun t => (readReg .status t, t.regs.outLen)) = some (0x00003306#32, 0#32) := by decide +kernel

/-- R92: the input of SRC = 1 is DAT_BUF, not HUF_BUF. -/
theorem test_decompressSrc1 : after (exec .decompressSrc1
      (withDat [true, false] (withHuf [false] (withTable tableH1 (small 0)))))
    (fun t => (t.regs.outLen, t.bufs.outBuf.get 0)) = some (1#32, a) := by decide +kernel

/-- V-H8: a code that is a prefix of another. -/
theorem test_decompressSrc1_ambiguous : after (step
      ((withTable [(a, [false]), (b, [false, true])] (small 0)).withFetchWord 32 0x103)) (readReg .status) =
    some 0x00003206#32 := by decide +kernel

/-- V-M2: the source's example. -/
theorem test_hamEncode : after (step ((withHuf [true, false, true, true] (small 0)).withFetchWord 32 4))
    (fun t => (t.regs.cwCnt, t.codewords, readReg .status t)) = some (1#32, [0x66#7], 0x00004002#32) := by decide +kernel

/-- V-M7: the last group is padded. -/
theorem test_hamEncode_padding : after (exec .hamEncode
      (withHuf [true, false, true, false, false, false, false, true, true, true, true] (small 0)))
    (fun t => (t.regs.cwCnt, t.codewords)) = some (3#32, [0x2D#7, 0x4B#7, 0x34#7]) := by decide +kernel

/-- R136, V-N2: one flip, position 19, bit 5 of codeword 2. -/
theorem test_injectNoise : after (exec .injectNoise (withRegs
      (fun r => { r with noiseCnt := 1#32, noiseSeed := 0x12345678#32 }) (withCw [0x2D#7, 0x4B#7, 0x34#7] (small 0))))
    (fun t => (t.regs.rxCnt, t.received)) = some (3#32, [0x2D#7, 0x4B#7, 0x14#7]) := by decide +kernel

/-- R133: as many flips as bits complement every bit. -/
theorem test_injectNoise_all : after (exec .injectNoise (withRegs
      (fun r => { r with noiseCnt := 7#32, noiseSeed := 0xDEADBEEF#32 }) (withCw [0x66#7] (small 0))))
    (fun t => t.received) = some [0x19#7] := by decide +kernel

/-- V-M3: the source's example, bit index 4 flipped; RX_BUF is not corrected. -/
theorem test_hamDecode : after (exec .hamDecode (withRx [0x76#7] (small 0)))
    (fun t => (t.regs.datLen, t.datBits, t.bufs.eflagBuf.get 0, t.regs.errCount, t.received)) =
    some (4#32, [true, false, true, true], true, 1#32, [0x76#7]) := by decide +kernel

/-- V-M5: a double error is miscorrected, without an error. -/
theorem test_hamDecode_double : after (step ((withRx [0x65#7] (small 0)).withFetchWord 32 6))
    (fun t => (t.datBits, t.regs.errCount, readReg .status t)) =
    some ([false, false, true, true], 1#32, 0x00006002#32) := by decide +kernel

/-- V-M1. -/
theorem test_codewords : (List.range 16).map (fun d => (henc4 (BitVec.ofNat 4 d)).toNat) =
    [0x00, 0x07, 0x19, 0x1E, 0x2A, 0x2D, 0x33, 0x34, 0x4B, 0x4C, 0x52, 0x55, 0x61, 0x66, 0x78, 0x7F] := by decide

/-- V-N1. -/
theorem test_xorshift32 : xorshift32 1#32 = 0x00042021#32 ∧ xorshift32 0x00042021#32 = 0x04080601#32 ∧
    xorshift32 0x12345678#32 = 0x87985AA5#32 := by decide

/-! ### The host port -/

/-- R100's example: STATUS after `WR CMD, 1` from reset. -/
theorem test_accept : after (step (listing (progWr 0x020#19 1#32) State.reset)) (readReg .status) = some 0x00001001#32 := by
  decide +kernel

/-- V-A1. -/
theorem test_reset_registers :
    [Reg.id, .capText, .capOut, .capBits, .capBlks, .status, .cmd, .irqStatus].map (fun r => readReg r State.reset) =
      [0x48430100#32, 0x00001000#32, 0x00001000#32, 0x00008000#32, 0x00002000#32, 0#32, 0#32, 0#32] := by decide

/-- V-A3: unmapped addresses with the default capacities. -/
theorem test_unmapped : [0x014, 0x01400, 0x04024, 0x11000].map (locate Params.default) = [none, none, none, none] := by
  decide

/-- V-A5: the reserved bits of IRQ_ENABLE. -/
theorem test_irq_enable : after (step (listing (progWr 0x028#19 0xFFFFFFFF#32) State.reset)) (readReg .irqEnable) =
    some 0x00000007#32 := by decide +kernel

/-- V-A13: a dropped write. -/
theorem test_dropped_write : after (step (listing (progWr 0x040#19 5#32) (State.reset.accept 1#32)))
    (fun t => (t.regs.symLen, readReg .irqStatus t, t.reply)) = some (0#32, 4#32, some ⟨.okay, none⟩) := by decide +kernel

/-- V-M8: bit 7 of a codeword's byte stores nothing. -/
theorem test_rx_reserved_bit : after (step (listing (progWr 0x60000#19 0x000000E6#32) State.reset))
    (fun t => (t.bufs.rxBuf.get 0, codewordWord t.bufs.rxBuf 0 &&& 0xFF#32)) = some (0x66#7, 0x66#32) := by decide +kernel

/-- V-H1: the first word of the text. -/
theorem test_symbol_word : after (step (listing (progWr 0x10000#19 0x62626161#32) State.reset))
    (fun t => t.bufs.symBuf.getSeq 0 4) = some [a, a, b, b] := by decide +kernel

/-- R164: a reset abandons the command. -/
theorem test_reset_abandons : after (step (listing [.reset] (State.reset.accept 1#32)))
    (fun t => (readReg .status t, readReg .irqStatus t, readReg .cmd t)) = some (0#32, 0#32, 0#32) := by decide +kernel

/-! ### Witnesses: states and operands that meet the hypotheses of the statements, clause by clause -/

/-- An idle block with turns to come. -/
def idle (ag : List Event) : State := listing ag (small 0)

/-- A block that runs a command, with turns to come. -/
def running (w : Word) (ag : List Event) : State := listing ag ((small 0).accept w)

/-- A prefix-free table: only the symbols of V-H1 have codes. -/
def loadedH1 : State := withTable tableH1 (small 0)

/-- The table of V-H8: a "0", b "01". -/
def loadedH8 : State := withTable [(a, [false]), (b, [false, true])] (small 0)

theorem loadedH1_prefixFree : CtPrefixFree loadedH1.bufs := by
  have hk : ∀ x : Symbol, 1 ≤ codeLen loadedH1.bufs x → x ∈ [a, b, c] := by decide +kernel
  have hp : ∀ x ∈ [a, b, c], ∀ y ∈ [a, b, c], x ≠ y → ¬ loadedH1.bufs.code x <+: loadedH1.bufs.code y := by
    decide +kernel
  exact fun x y hne hx hy => hp x (hk x hx) y (hk y hy) hne

theorem loadedH8_not_prefixFree : ¬ CtPrefixFree loadedH8.bufs := by
  intro h
  have h0 : a ≠ b ∧ 1 ≤ codeLen loadedH8.bufs a ∧ 1 ≤ codeLen loadedH8.bufs b ∧
      loadedH8.bufs.code a <+: loadedH8.bufs.code b := by decide +kernel
  exact h a b h0.1 h0.2.1 h0.2.2.1 h0.2.2.2

theorem witness_LegalWordsAreTheEightWords : legalWord 0x00000009#32 = false := by decide

theorem witness_CommandWriteIsAcceptedOrDropped :
    ((idle [.memWrite 0x020#19 4 7#32]).agenda = .memWrite 0x020#19 4 7#32 :: [] ∧
      (idle [.memWrite 0x020#19 4 7#32]).status.busy = false) ∧
    ((running 1#32 [.memWrite 0x020#19 4 2#32]).agenda = .memWrite 0x020#19 4 2#32 :: [] ∧
      (running 1#32 [.memWrite 0x020#19 4 2#32]).status.busy = true) := by decide

theorem witness_StepRunsTheDecodedCommand :
    (EngineNext (running 4#32 [.complete, .reset]) [.reset] ∧ (running 4#32 [.complete, .reset]).status.busy = true ∧
      decode (running 4#32 [.complete, .reset]).cmd = .ok .hamEncode) ∧
    (EngineNext (running 0x103#32 []) [] ∧ (running 0x103#32 []).status.busy = true ∧
      decode (running 0x103#32 []).cmd = .ok .decompressSrc1) :=
  ⟨⟨.inl rfl, rfl, by decide⟩, ⟨.inr ⟨rfl, rfl⟩, rfl, by decide⟩⟩

theorem witness_NopOnlyCompletes :
    (0x00000010#32 : Word).toNat % 16 = 0 ∧ 0x00000010#32 ≠ 0#32 ∧ (running 0#32 []).status.lastOp = 0#4 := by decide

theorem witness_IllegalWordCompletesWithBadCommand :
    EngineNext (running 0x104#32 []) [] ∧ (running 0x104#32 []).status.busy = true ∧
      legalWord (running 0x104#32 []).cmd = false ∧ (running 0x104#32 []).StatusCoherent :=
  ⟨.inr ⟨rfl, rfl⟩, rfl, by decide, ⟨rfl, rfl, fun _ => ⟨rfl, rfl⟩⟩⟩

theorem witness_CheckPhaseErrorsChangeNothing_lengths :
    16 < (withRegs (fun r => { r with symLen := 17#32 }) (small 0)).regs.symLen.toNat ∧
    (small 0).regs.symLen = 0#32 ∧
    128 < (withRegs (fun r => { r with hufLen := 129#32 }) (small 0)).regs.hufLen.toNat ∧
    128 < (withRegs (fun r => { r with datLen := 129#32 }) (small 0)).regs.datLen.toNat ∧
    32 < (withRegs (fun r => { r with cwCnt := 33#32 }) (small 0)).regs.cwCnt.toNat ∧
    32 < (withRegs (fun r => { r with rxCnt := 33#32 }) (small 0)).regs.rxCnt.toNat ∧
    (small 0).params.textCap = 16 ∧ (small 0).params.bitCap = 128 ∧ (small 0).params.blkCap = 32 := by decide

theorem witness_CheckPhaseErrorsChangeNothing_ambiguous :
    (withRegs (fun r => { r with hufLen := 128#32, datLen := 128#32 }) loadedH8).regs.hufLen.toNat ≤ 128 ∧
    (withRegs (fun r => { r with hufLen := 128#32, datLen := 128#32 }) loadedH8).regs.datLen.toNat ≤ 128 ∧
    ¬ CtPrefixFree (withRegs (fun r => { r with hufLen := 128#32, datLen := 128#32 }) loadedH8).bufs :=
  ⟨by decide, by decide, loadedH8_not_prefixFree⟩

theorem witness_CheckPhaseErrorsChangeNothing_noise :
    (withRegs (fun r => { r with cwCnt := 32#32, noiseCnt := 225#32 }) (small 0)).regs.cwCnt.toNat ≤ 32 ∧
    7 * (withRegs (fun r => { r with cwCnt := 32#32, noiseCnt := 225#32 }) (small 0)).regs.cwCnt.toNat <
      (withRegs (fun r => { r with cwCnt := 32#32, noiseCnt := 225#32 }) (small 0)).regs.noiseCnt.toNat := by decide

theorem witness_CommandsWriteOnlyTheirOutputs (i : Instr) : ∃ t, exec i loadedH1 = .next t := ⟨_, exec_eq i loadedH1⟩

/-- Operands of every command, in a block whose draws start at `d`. -/
def operands (d : Nat) : State :=
  withRegs (fun r => { r with noiseCnt := 1#32, noiseSeed := 5#32 })
    (withRx [0x76#7] (withCw [0x66#7] (withDat [false] (withHuf [true, false] (withText [a, b] (withTable tableH1 (small d)))))))

theorem witness_OutcomeDependsOnlyOnOperands (i : Instr) :
    operands 0 ≠ operands 100 ∧ (operands 0).params.legal = true ∧ SameOperands i (operands 0) (operands 100) := by
  refine ⟨fun h => absurd (congrArg State.draws h) (by decide), by decide, rfl, ?_⟩
  have hl : ∀ x, ((codeOf tableH1 x).getD []).length ≤ 255 := by decide +kernel
  have hc : ∀ x, (operands 0).bufs.code x = (operands 100).bufs.code x := fun x => by
    show (writeTable tableH1 (small 0).bufs).code x = (writeTable tableH1 (small 100).bufs).code x
    rw [code_writeTable _ _ _ (hl x), code_writeTable _ _ _ (hl x)]
  have hn : ∀ x, codeLen (operands 0).bufs x = codeLen (operands 100).bufs x := fun x => by
    show ((writeTable tableH1 (small 0).bufs).ctLen.get x.toNat).toNat =
      ((writeTable tableH1 (small 100).bufs).ctLen.get x.toNat).toNat
    rw [ctLen_writeTable, ctLen_writeTable]
  cases i with
  | nop => trivial
  | buildCodes => exact ⟨rfl, rfl⟩
  | hufEncode => exact ⟨rfl, rfl, hn, hc⟩
  | decompressSrc0 => exact ⟨rfl, rfl, hn, hc⟩
  | decompressSrc1 => exact ⟨rfl, rfl, hn, hc⟩
  | hamEncode => exact ⟨rfl, rfl⟩
  | injectNoise => exact ⟨rfl, rfl, rfl, rfl⟩
  | hamDecode => exact ⟨rfl, rfl⟩

theorem witness_HostCannotTouchARunningCommand :
    (running 1#32 [.memRead 0x044#19 4]).status.busy = true ∧
    (∃ t, step (running 1#32 [.memRead 0x044#19 4]) = .next t) ∧
    (∃ t, step (running 1#32 [.memWrite 0x040#19 4 9#32]) = .next t) := ⟨rfl, ⟨_, rfl⟩, ⟨_, rfl⟩⟩

/-- With no reset listed, and with one. -/
theorem witness_EveryCommandCompletes :
    (running 1#32 [.memRead 0x024#19 4]).status.busy = true ∧
    Event.reset ∉ (running 1#32 [.memRead 0x024#19 4]).agenda ∧
    (running 1#32 [.reset]).status.busy = true ∧ Event.reset ∈ (running 1#32 [.reset]).agenda := by decide

theorem witness_IdleBlockStays : State.reset.status.busy = false ∧ State.reset.agenda = [] := ⟨rfl, rfl⟩

/-- A pending event is cleared by a reset and by a write of 1; an event is set by a dropped write and by completions. -/
theorem witness_EventsChangeOnlyAsListed :
    (after (step { idle [.reset] with irqStatus := 7#3 }) (·.irqStatus) = some 0#3) ∧
    (after (step { idle [.memWrite 0x02C#19 4 2#32] with irqStatus := 7#3 }) (·.irqStatus) = some 5#3) ∧
    (after (step (running 1#32 [.memWrite 0x040#19 4 9#32])) (·.irqStatus) = some 4#3) ∧
    (after (step (running 7#32 [])) (·.irqStatus) = some 3#3) ∧
    (after (step (running 0#32 [.complete])) (·.irqStatus) = some 1#3) := by decide +kernel

theorem witness_ResetEventRestoresEverything :
    (running 1#32 [.reset, .complete]).agenda = .reset :: [.complete] := rfl

/-- Boundary lengths: 1 and TEXT_CAP symbols. -/
theorem witness_BuildCodesResult :
    (small 0).params.legal = true ∧
    1 ≤ (withText [a] (small 0)).regs.symLen.toNat ∧ (withText [a] (small 0)).regs.symLen.toNat ≤ 16 ∧
    1 ≤ (withText (List.replicate 15 a ++ [b]) (small 0)).regs.symLen.toNat ∧
    (withText (List.replicate 15 a ++ [b]) (small 0)).regs.symLen.toNat ≤ 16 := by decide

theorem witness_SingleSymbolCodeIsZero :
    (withText [a, a, a, a] (small 0)).params.legal = true ∧ 1 ≤ (withText [a, a, a, a] (small 0)).regs.symLen.toNat ∧
    (withText [a, a, a, a] (small 0)).regs.symLen.toNat ≤ 16 ∧ (∀ y ∈ (withText [a, a, a, a] (small 0)).text, y = a) ∧
    ∃ t, exec .buildCodes (withText [a, a, a, a] (small 0)) = .next t :=
  ⟨by decide, by decide, by decide, by decide, ⟨_, exec_eq _ _⟩⟩

theorem witness_HufEncodeResult :
    (withText aabbbcc loadedH1).params.legal = true ∧ (withText aabbbcc loadedH1).regs.symLen.toNat ≤ 16 ∧
    (∀ x ∈ (withText aabbbcc loadedH1).text, 1 ≤ codeLen (withText aabbbcc loadedH1).bufs x) ∧
    ((withText aabbbcc loadedH1).text.map (codeLen (withText aabbbcc loadedH1).bufs)).sum ≤ 128 := by decide +kernel

/-- V-H9: an unknown third symbol; and a code of 255 bits that does not fit 128. -/
theorem witness_HufEncodeErrors :
    ((withText [a, b, 0x7A#8] loadedH1).text = [a, b] ++ 0x7A#8 :: [] ∧
      (∀ y ∈ [a, b], 1 ≤ codeLen (withText [a, b, 0x7A#8] loadedH1).bufs y) ∧
      (([a, b].map (codeLen (withText [a, b, 0x7A#8] loadedH1).bufs)).sum ≤ 128) ∧
      codeLen (withText [a, b, 0x7A#8] loadedH1).bufs 0x7A#8 = 0) ∧
    ((withText [a] (withTable [(a, List.replicate 255 false)] (small 0))).text = [] ++ a :: [] ∧
      128 < codeLen (withText [a] (withTable [(a, List.replicate 255 false)] (small 0))).bufs a) := by decide +kernel

/-- A text of OUT_CAP symbols, from HUF_BUF and from DAT_BUF. -/
theorem witness_DecompressResult :
    CtPrefixFree loadedH1.bufs ∧ loadedH1.params.legal = true ∧
    (∀ x ∈ [b, b, b, a], 1 ≤ codeLen loadedH1.bufs x) ∧
    (withHuf [false, false, false, true, false] loadedH1).hufBits = [b, b, b, a].flatMap loadedH1.bufs.code ∧
    (withDat [false, false, false, true, false] loadedH1).datBits = [b, b, b, a].flatMap loadedH1.bufs.code ∧
    [b, b, b, a].length ≤ (small 0).params.outCap ∧
    (withHuf [false, false, false, true, false] loadedH1).regs.hufLen.toNat ≤ 128 ∧
    (withDat [false, false, false, true, false] loadedH1).regs.datLen.toNat ≤ 128 :=
  ⟨loadedH1_prefixFree, by decide +kernel⟩

/-- A fifth symbol for four places; and "1" left over, of which no code is a prefix. -/
theorem witness_DecompressErrors :
    CtPrefixFree loadedH1.bufs ∧
    ((withHuf [false, false, false, false, false] loadedH1).hufBits =
        [b, b, b, b].flatMap loadedH1.bufs.code ++ [false] ∧
      [b, b, b, b].length = (small 0).params.outCap ∧ 1 ≤ codeLen loadedH1.bufs b ∧
      loadedH1.bufs.code b <+: [false]) ∧
    ((withDat [true, false, true] loadedH1).datBits = [a].flatMap loadedH1.bufs.code ++ [true] ∧
      ∀ x, 1 ≤ codeLen loadedH1.bufs x → ¬ loadedH1.bufs.code x <+: [true]) :=
  ⟨loadedH1_prefixFree, by decide +kernel⟩

theorem witness_HamEncodeResult :
    (small 0).params.legal = true ∧ (withHuf (List.replicate 128 true) (small 0)).regs.hufLen.toNat ≤ 128 ∧
    (withHuf [] (small 0)).regs.hufLen.toNat ≤ 128 := by decide +kernel

theorem witness_InjectNoiseResult :
    (withRegs (fun r => { r with cwCnt := 32#32, noiseCnt := 224#32 }) (small 0)).regs.cwCnt.toNat ≤ 32 ∧
    (withRegs (fun r => { r with cwCnt := 32#32, noiseCnt := 224#32 }) (small 0)).regs.noiseCnt.toNat ≤
      7 * (withRegs (fun r => { r with cwCnt := 32#32, noiseCnt := 224#32 }) (small 0)).regs.cwCnt.toNat := by decide

theorem witness_HamDecodeResult :
    (small 0).params.legal = true ∧
    (withRegs (fun r => { r with rxCnt := 32#32 }) (small 0)).regs.rxCnt.toNat ≤ 32 := by decide

theorem witness_FreqIsTheLoopAsWritten : freq [0xFF#8, a, 0xFF#8] 255 = 2 ∧ 255 < 256 := by decide

/-- One leaf, and 256. -/
theorem witness_TreeIsTheLoopAsWritten :
    leaves (freq [a]) ≠ [] ∧ (leaves (freq [a])).length = 1 ∧ leaves (fun _ => 1) ≠ [] ∧
    (leaves (fun _ => 1)).length = 256 := by decide +kernel

theorem witness_LongBufferIsCorrupt :
    (∀ e ∈ tableH1, e.2.length < [true, true, true].length) ∧ [true, true, true] ≠ [] := by decide

theorem witness_BuiltTableIsPrefixFree :
    (1 ≤ (withText aabbbcc (small 0)).regs.symLen.toNat ∧ (withText aabbbcc (small 0)).regs.symLen.toNat ≤ 16 ∧
      ∃ t, exec .buildCodes (withText aabbbcc (small 0)) = .next t) ∧
    (State.CodesSound { loadedH1 with status := { loadedH1.status with codesValid := true } } ∧
      ∃ t, exec .decompressSrc1 { loadedH1 with status := { loadedH1.status with codesValid := true } } = .next t) := by
  refine ⟨⟨by decide, by decide, ⟨_, exec_eq _ _⟩⟩, fun _ => ?_, ⟨_, exec_eq _ _⟩⟩
  show prefixFree loadedH1.bufs.codeTable = true
  decide +kernel

/-- One distinct symbol, and two. -/
theorem witness_BuildCodesCannotOverflow :
    after (exec .buildCodes (withText [a, a] (small 0))) (·.regs.nSymbols.toNat) = some 1 ∧
    after (exec .buildCodes (withText [a, b] (small 0))) (·.regs.nSymbols.toNat) = some 2 := by decide +kernel

/-- Another prefix-free code for "aab", and two symbols with different counts. -/
theorem witness_BuiltCodeIsOptimal :
    (∃ t, exec .buildCodes (withText [a, a, b] (small 0)) = .next t) ∧
    (∀ x ∈ (withText [a, a, b] (small 0)).text, (if x = a then [true, true] else [false]) ≠ []) ∧
    (∀ x ∈ (withText [a, a, b] (small 0)).text, ∀ y ∈ (withText [a, a, b] (small 0)).text, x ≠ y →
      ¬ (if x = a then [true, true] else [false]) <+: (if y = a then [true, true] else [false])) ∧
    (withText [a, a, b] (small 0)).text.count b < (withText [a, a, b] (small 0)).text.count a :=
  ⟨⟨_, exec_eq _ _⟩, by decide +kernel⟩

/-- Four symbols fit OUT_CAP = 4, seven do not. -/
theorem witness_HuffmanRoundTrip :
    ((withText [a, b, b, c] (small 0)).regs.symLen.toNat ≤ (small 0).params.outCap ∧
      ∃ t, exec .buildCodes (withText [a, b, b, c] (small 0)) = .next t) ∧
    ((small 0).params.outCap < (withText aabbbcc (small 0)).regs.symLen.toNat ∧
      ∃ t, exec .buildCodes (withText aabbbcc (small 0)) = .next t) :=
  ⟨⟨by decide, ⟨_, exec_eq _ _⟩⟩, ⟨by decide, ⟨_, exec_eq _ _⟩⟩⟩

theorem witness_HufEncodeRepeatsBuildCodes :
    1 ≤ (withText aabbbcc (small 0)).regs.symLen.toNat ∧ (withText aabbbcc (small 0)).regs.symLen.toNat ≤ 16 ∧
    ∃ t, exec .buildCodes (withText aabbbcc (small 0)) = .next t := ⟨by decide, by decide, ⟨_, exec_eq _ _⟩⟩

theorem witness_DoubleErrorsAreMiscorrected : (0 : Fin 7) ≠ 6 := by decide

theorem witness_NoiseSelectTakesExactlyCount :
    noiseSelect 0x12345678#32 21 1 = [19] ∧ 1 ≤ 21 ∧ noiseSelect 7#32 3 3 = [0, 1, 2] := by decide +kernel

/-- V-M3's block, [1, 0, 1, 1] with bit 4 of its codeword flipped, and V-M7's [1, 0, 1, 0] with no flip. -/
theorem witness_HammingCorrectsOneErrorPerBlock :
    (withHuf [true, false, true, true, true, false, true, false] (small 0)).regs.hufLen.toNat ≤ 128 ∧
    (after (exec .hamEncode (withHuf [true, false, true, true, true, false, true, false] (small 0)))
      (fun t => (t.regs.cwCnt, t.bufs.cwBuf.get 0, t.bufs.cwBuf.get 1)) = some (2#32, 0x66#7, 0x2D#7)) ∧
    (withRx [0x76#7, 0x2D#7] (small 0)).regs.rxCnt = 2#32 ∧
    (withRx [0x76#7, 0x2D#7] (small 0)).bufs.rxBuf.get 0 = flipBit 0x66#7 (4 : Fin 7) ∧
    (withRx [0x76#7, 0x2D#7] (small 0)).bufs.rxBuf.get 1 = 0x2D#7 := by decide +kernel

/-- R11's limits, at which the address map is stated. -/
theorem witness_AddressMap : (Params.mk 16 4).legal = true ∧ (Params.mk 32768 65536).legal = true ∧
    locate ⟨32768, 65536⟩ 0x2FFFC = some (.out 0x3FFF) ∧ locate ⟨16, 4⟩ 0x2FFFC = none ∧
    locate ⟨16, 4⟩ 0x7000C = none ∧ locate ⟨16, 4⟩ 0x70000 = some (.eflag 0) := by decide

theorem witness_RefusedAccessChangesNothing :
    ((2 : Nat) ≠ 4 ∧ (idle [.memRead 0x040#19 2]).agenda = .memRead 0x040#19 2 :: []) ∧
    ((0x042#19 : Addr).toNat % 4 ≠ 0 ∧ (idle [.memWrite 0x042#19 4 1#32]).agenda = .memWrite 0x042#19 4 1#32 :: []) ∧
    (locate (running 1#32 []).params (0x068#19 : Addr).toNat = none ∧
      (running 1#32 [.memWrite 0x068#19 4 1#32]).agenda = .memWrite 0x068#19 4 1#32 :: []) := by decide

theorem witness_WritesWhileBusyAreDropped :
    (∀ r ∈ [Reg.symLen, .id, .irqEnable, .irqStatus], locate (running 1#32 []).params (regAddr r).toNat ≠ none) ∧
    (running 1#32 [.memWrite 0x040#19 4 1#32]).status.busy = true ∧
    regAddr .symLen ≠ 0x028#19 ∧ regAddr .symLen ≠ 0x02C#19 ∧
    regAddr .irqEnable = 0x028#19 ∧ regAddr .irqStatus = 0x02C#19 := by decide

theorem witness_ReadsWhileBusy :
    (running 1#32 [.memRead 0x024#19 4]).status.busy = true ∧
    locate (running 1#32 []).params 0x024 = some (.reg .status) ∧ Reg.status ∈ controlRegs ∧
    locate (running 1#32 []).params 0x064 = some (.reg .nSymbols) ∧ Reg.nSymbols ∉ controlRegs ∧
    locate (running 1#32 []).params 0x10000 = some (.sym 0) := by decide

theorem witness_ReadsHaveNoSideEffect :
    (idle [.memRead 0x060#19 4, .memRead 0x060#19 4]).status.busy = false ∧
    (∃ t, step (idle [.memRead 0x060#19 4, .memRead 0x060#19 4]) = .next t ∧ ∃ u, step t = .next u) :=
  ⟨rfl, ⟨_, rfl, ⟨_, rfl⟩⟩⟩

theorem witness_ReadOnlyWritesAreIgnored :
    (idle []).status.busy = false ∧ (running 0#32 []).status.busy = true ∧ locate (idle []).params 0x054 = some (.reg .outLen) ∧ Reg.outLen ∈ readOnlyRegs ∧
    locate (idle []).params 0x01000 = some (.freq 0) ∧ locate (idle []).params 0x20000 = some (.out 0) ∧
    locate (idle []).params 0x70000 = some (.eflag 0) := by decide

theorem witness_RegistersReadAndWrite :
    (idle [.memWrite (regAddr .noiseSeed) 4 9#32]).agenda = .memWrite (regAddr .noiseSeed) 4 9#32 :: [] ∧
    Reg.noiseSeed ∈ readWriteRegs ∧ (idle []).status.busy = false ∧
    (∃ q ∈ dataTable (idle []), (idle [.memRead 0x064#19 4]).agenda = .memRead q.1 4 :: []) := by decide +kernel

theorem witness_StatusFieldsAndIrq : (small 0).params.legal = true ∧ State.reset.params.legal = true := by decide

/-- The last entry and its last word. -/
theorem witness_CodeTableWindow :
    (idle []).status.busy = false ∧ (idle []).params.legal = true ∧
    BitVec.ofNat 19 (0x4000 + 64 * (0xFF#8 : Symbol).toNat) = (0x7FC0#19 : Addr) ∧
    BitVec.ofNat 19 (0x4000 + 64 * (0xFF#8 : Symbol).toNat + 4 + 4 * 7) = (0x7FE0#19 : Addr) ∧
    0x24 ≤ 0x3F ∧ 0x3F < 0x40 := by decide

/-- The last element of each window of a block with TEXT_CAP = 16 and OUT_CAP = 4. -/
theorem witness_windows :
    (idle []).status.busy = false ∧ (idle []).params.legal = true ∧
    15 < (idle []).params.textCap ∧ BitVec.ofNat 19 (0x10000 + 4 * (15 / 4)) = (0x1000C#19 : Addr) ∧
    3 < (idle []).params.outCap ∧ BitVec.ofNat 19 (0x20000 + 4 * (3 / 4)) = (0x20000#19 : Addr) ∧
    127 < (idle []).params.bitCap ∧ BitVec.ofNat 19 (0x30000 + 4 * (127 / 32)) = (0x3000C#19 : Addr) ∧
    BitVec.ofNat 19 (0x40000 + 4 * (127 / 32)) = (0x4000C#19 : Addr) ∧
    31 < (idle []).params.blkCap ∧ BitVec.ofNat 19 (0x50000 + 4 * (31 / 4)) = (0x5001C#19 : Addr) ∧
    BitVec.ofNat 19 (0x60000 + 4 * (31 / 4)) = (0x6001C#19 : Addr) ∧
    BitVec.ofNat 19 (0x70000 + 4 * (31 / 32)) = (0x70000#19 : Addr) ∧
    255 < 256 ∧ BitVec.ofNat 19 (0x1000 + 4 * 255) = (0x13FC#19 : Addr) := by decide

theorem witness_RunEndsWithTheOutcome :
    (idle (progRun 0 2 .nop ++ [.reset])).status.busy = false ∧
    (idle (progRun 0 2 .nop ++ [.reset])).agenda = progRun 0 2 .nop ++ [.reset] := by decide

theorem witness_TextFillsSymBuf :
    (idle (progText aabbbcc)).agenda = progText aabbbcc ++ [] ∧ aabbbcc.length ≤ (idle []).params.textCap ∧
    (idle []).params.legal = true := by decide +kernel

theorem witness_BitsFillHufAndDat :
    (idle (progBitsHuf [true, false, true])).agenda = progBitsHuf [true, false, true] ++ [] ∧
    (idle (progBitsDat [true, false, true])).agenda = progBitsDat [true, false, true] ++ [] ∧
    [true, false, true].length ≤ (idle []).params.bitCap := by decide +kernel

/-- A sound state that a step leaves, for the invariants. -/
theorem witness_invariants :
    (running 1#32 []).bufs.Canonical ∧ (running 1#32 []).bufs.InBounds (running 1#32 []).params ∧
    (running 1#32 []).params.legal = true ∧ (running 1#32 []).DrawsFresh ∧ (running 1#32 []).StatusCoherent ∧
    (running 1#32 []).CodesSound ∧ ∃ t, step (running 1#32 []) = .next t := by
  refine ⟨?_, ?_, by decide, ⟨by decide, by decide⟩, ⟨rfl, rfl, fun _ => ⟨rfl, rfl⟩⟩, fun h => absurd h (by decide), ⟨_, rfl⟩⟩
  · constructor <;> exact List.Pairwise.nil
  · constructor <;> exact fun _ h => absurd h List.not_mem_nil

/-- CODES_VALID becomes 1 at a BUILD_CODES that succeeds. -/
theorem witness_StepKeepsCodesSound :
    (withText [a, b] (running 1#32 [])).status.codesValid = false ∧
    after (step (withText [a, b] (running 1#32 []))) (·.status.codesValid) = some true := by decide +kernel

end Sys2Proof.Tests
end

section
/-! SUPPORT. Every step keeps every buffer inside its capacity, and the capacities (00_scope.md R11; 10_state.md R48). -/

namespace Sys2Proof.Machine

/-! ### Keeping the bounds -/

/-- From `s` to `t` the capacities stay, and buffers that list only elements inside them still do. -/
structure BoundsKept (s t : State) : Prop where
  params : t.params = s.params
  inBounds : s.bufs.InBounds s.params → t.bufs.InBounds s.params

theorem BoundsKept.of_bufs_eq {s t : State} (hp : t.params = s.params) (hb : t.bufs = s.bufs) : BoundsKept s t :=
  ⟨hp, fun h => hb ▸ h⟩

/-- For any contents `m`, so that no proof evaluates the 32 elements a host write of a word stores. -/
theorem Buffers.InBounds.with_hufBuf {p : Params} {b : Buffers} {m : Memory Bool} (h : b.InBounds p)
    (hm : m.within p.bitCap) : { b with hufBuf := m }.InBounds p := { h with hufBuf := hm }

/-- As for HUF_BUF. -/
theorem Buffers.InBounds.with_datBuf {p : Params} {b : Buffers} {m : Memory Bool} (h : b.InBounds p)
    (hm : m.within p.bitCap) : { b with datBuf := m }.InBounds p := { h with datBuf := hm }

theorem Buffers.reset_inBounds (p : Params) (d : Nat) : (Buffers.reset d).InBounds p := by
  constructor <;> exact Memory.within_drawn _ _

theorem takeReset_boundsKept (s : State) : BoundsKept s s.takeReset :=
  ⟨rfl, fun _ => Buffers.reset_inBounds _ _⟩

/-! ### The commands -/

theorem State.text_length (s : State) : s.text.length = s.regs.symLen.toNat := Memory.getSeq_length _ _ _

theorem State.codewords_length (s : State) : s.codewords.length = s.regs.cwCnt.toNat := Memory.getSeq_length _ _ _

theorem State.received_length (s : State) : s.received.length = s.regs.rxCnt.toNat := Memory.getSeq_length _ _ _

/-- The stream BUILD_CODES writes fits HUF_BUF (R124): at most 8 bits a symbol, and BIT_CAP = 8 × TEXT_CAP. -/
theorem buildCodes_stream_fits {s : State} (h1 : 1 ≤ s.regs.symLen.toNat) (h2 : s.regs.symLen.toNat ≤ s.params.textCap) :
    (concatCodes (codesOfText s.text) s.text).length ≤ s.params.bitCap := by
  have hne : s.text ≠ [] := List.ne_nil_of_length_pos (by rw [State.text_length]; exact h1)
  calc (concatCodes (codesOfText s.text) s.text).length
    _ ≤ 8 * s.text.length := stream_le_eight hne
    _ ≤ s.params.bitCap := by rw [State.text_length, Params.bitCap]; omega

theorem buildCodes_boundsKept (s : State) : BoundsKept s (buildCodes s).completed := by
  rcases buildCodes_cases s with ⟨-, hr⟩ | ⟨-, -, hr⟩ | ⟨hcap, hpos, hr⟩ <;> rw [hr]
  · exact .of_bufs_eq rfl rfl
  · exact .of_bufs_eq rfl rfl
  · have hlen := buildCodes_stream_fits hpos hcap
    exact ⟨rfl, fun h => { h with
      freqBuf := Memory.within_setAll _ _ _
      ctLen := Memory.within_setAll _ _ _
      ctBits := Memory.within_setAll _ _ _
      hufBuf := Memory.within_setSeq (by omega) h.hufBuf }⟩

theorem hufEncode_boundsKept (s : State) : BoundsKept s (hufEncode s).completed := by
  rcases hufEncode_cases s with ⟨-, hr⟩ | ⟨-, e, -, hr⟩ | ⟨-, bits, hbits, hr⟩ <;> rw [hr]
  · exact .of_bufs_eq rfl rfl
  · exact ⟨rfl, fun h => h.with_hufBuf (Memory.within_drawn _ _)⟩
  · have hlen : bits.length ≤ s.params.bitCap := encodeFrom_length hbits (Nat.zero_le _)
    exact ⟨rfl, fun h => h.with_hufBuf (Memory.within_setSeq (by omega) h.hufBuf)⟩

theorem decompress_boundsKept (len : Word) (bits : Bits) (s : State) :
    BoundsKept s (decompress len bits s).completed := by
  rcases decompress_cases len bits s with ⟨-, hr⟩ | ⟨-, -, hr⟩ | ⟨-, -, e, -, hr⟩ | ⟨-, -, text, htext, hr⟩ <;> rw [hr]
  · exact .of_bufs_eq rfl rfl
  · exact .of_bufs_eq rfl rfl
  · exact ⟨rfl, fun h => { h with outBuf := Memory.within_drawn _ _ }⟩
  · have hlen : text.length ≤ s.params.outCap := decodeFrom_length htext (Nat.zero_le _)
    exact ⟨rfl, fun h => { h with outBuf := Memory.within_setSeq (by omega) h.outBuf }⟩

/-- The groups of BIT_CAP bits are BLK_CAP many (R11, R135). -/
theorem hamEncode_boundsKept (s : State) : BoundsKept s (hamEncode s).completed := by
  rcases hamEncode_cases s with ⟨-, hr⟩ | ⟨hcap, hr⟩ <;> rw [hr]
  · exact .of_bufs_eq rfl rfl
  · have hgroups : (s.regs.hufLen.toNat + 3) / 4 ≤ s.params.blkCap := by
      rw [Params.bitCap] at hcap; rw [Params.blkCap]; omega
    exact ⟨rfl, fun h => { h with cwBuf := Memory.within_setSeq (by simpa using hgroups) h.cwBuf }⟩

theorem injectNoise_boundsKept (s : State) : BoundsKept s (injectNoise s).completed := by
  rcases injectNoise_cases s with ⟨-, hr⟩ | ⟨-, -, hr⟩ | ⟨hcap, -, hr⟩ <;> rw [hr]
  · exact .of_bufs_eq rfl rfl
  · exact .of_bufs_eq rfl rfl
  · exact ⟨rfl, fun h => { h with
      rxBuf := Memory.within_setSeq (by rw [foldl_flipFlat_length, State.codewords_length]; omega) h.rxBuf }⟩

/-- Four bits a block fill BIT_CAP from BLK_CAP blocks (R11, R137). -/
theorem hamDecode_boundsKept (s : State) : BoundsKept s (hamDecode s).completed := by
  rcases hamDecode_cases s with ⟨-, hr⟩ | ⟨hcap, hr⟩ <;> rw [hr]
  · exact .of_bufs_eq rfl rfl
  · have hbits : 4 * s.regs.rxCnt.toNat ≤ s.params.bitCap := by
      rw [Params.blkCap] at hcap; rw [Params.bitCap]; omega
    exact ⟨rfl, fun h => { h with
      datBuf := Memory.within_setSeq
        (by rw [flatMap_nibbleBits_length, List.length_map, State.received_length]; omega) h.datBuf
      eflagBuf := Memory.within_setSeq
        (by rw [List.length_map, List.length_map, State.received_length]; omega) h.eflagBuf }⟩

theorem resultOf_boundsKept (i : Instr) (s : State) : BoundsKept s (resultOf i s).completed := by
  cases i with
  | nop => exact .of_bufs_eq rfl rfl
  | buildCodes => exact buildCodes_boundsKept s
  | hufEncode => exact hufEncode_boundsKept s
  | decompressSrc0 => exact decompress_boundsKept _ _ s
  | decompressSrc1 => exact decompress_boundsKept _ _ s
  | hamEncode => exact hamEncode_boundsKept s
  | injectNoise => exact injectNoise_boundsKept s
  | hamDecode => exact hamDecode_boundsKept s

theorem engineTurn_boundsKept {s t : State} (h : engineTurn s = .next t) : BoundsKept s t := by
  rcases engineTurn_cases s with ⟨-, he⟩ | ⟨-, i, -, he⟩ | ⟨-, -, he⟩
  · cases he.symm.trans h
    exact .of_bufs_eq rfl rfl
  · cases (exec_eq i s).symm.trans (he.symm.trans h)
    exact resultOf_boundsKept i s
  · cases he.symm.trans h
    exact .of_bufs_eq rfl rfl

/-! ### The host port -/

/-- Every element the location covers lies inside its buffer's capacity (R48, R78 to R83). -/
def Location.Inside (p : Params) : Location → Prop
  | .reg _ => True
  | .freq k => k < 256
  | .ctLen k => k < 256
  | .ctBits k j => k < 256 ∧ j < 8
  | .sym k => 4 * k + 4 ≤ p.textCap
  | .out k => 4 * k + 4 ≤ p.outCap
  | .huf k => 32 * k + 32 ≤ p.bitCap
  | .dat k => 32 * k + 32 ≤ p.bitCap
  | .cw k => 4 * k + 4 ≤ p.blkCap
  | .rx k => 4 * k + 4 ≤ p.blkCap
  | .eflag k => 32 * k + 32 ≤ p.blkCap

theorem ctAt_inside {p : Params} {o : Nat} {l : Location} (ho : o < 0x4000) (h : ctAt o = some l) : l.Inside p := by
  simp only [ctAt] at h
  split_ifs at h with h1 h2
  · cases h; simp only [Location.Inside]; omega
  · cases h; simp only [Location.Inside]; omega

theorem lowAt_inside {p : Params} {a : Nat} {l : Location} (h : lowAt a = some l) : l.Inside p := by
  unfold lowAt at h
  split_ifs at h with h1 h2 h3 h4
  · obtain ⟨r, -, rfl⟩ := Option.map_eq_some_iff.1 h
    trivial
  · cases h; simp only [Location.Inside]; omega
  · exact ctAt_inside (by omega) h

/-- A window of whole words holds every byte of each word it maps. -/
theorem windowAt_eq_some {used o : Nat} {loc : Nat → Location} {l : Location} (hu : used % 4 = 0)
    (h : windowAt used o loc = some l) : ∃ k, l = loc k ∧ 4 * k + 4 ≤ used := by
  unfold windowAt at h
  split_ifs at h with ho
  cases h
  exact ⟨o / 4, rfl, by omega⟩

theorem Params.caps_of_legal {p : Params} (hp : p.legal = true) : p.textCap % 16 = 0 ∧ p.outCap % 4 = 0 := by
  simp only [Params.legal, Bool.and_eq_true, beq_iff_eq] at hp
  obtain ⟨⟨⟨⟨⟨ht, -⟩, -⟩, ho⟩, -⟩, -⟩ := hp
  exact ⟨ht, ho⟩

/-- With legal capacities every mapped word lies inside its buffer (R11, R76). -/
theorem locate_inside {p : Params} {a : Nat} {l : Location} (hp : p.legal = true) (h : locate p a = some l) :
    l.Inside p := by
  obtain ⟨ht, ho⟩ := Params.caps_of_legal hp
  have hbit : p.bitCap = 8 * p.textCap := rfl
  have hblk : p.blkCap = 2 * p.textCap := rfl
  simp only [locate] at h
  split at h
  on_goal 1 => exact lowAt_inside h
  on_goal 8 => cases h
  all_goals
    obtain ⟨k, rfl, hk⟩ := windowAt_eq_some (by omega) h
    simp only [Location.Inside]; omega

theorem writeLocation_boundsKept {l : Location} {s : State} (v : Word) (hl : l.Inside s.params) :
    BoundsKept s (writeLocation l v s) := by
  refine ⟨writeLocation_params l v s, fun h => ?_⟩
  cases l with
  | reg r => cases r <;> exact h
  | freq | out | eflag => exact h
  | ctLen k => exact { h with ctLen := Memory.within_set (v.setWidth 8) hl h.ctLen }
  | ctBits k j =>
    have hword : 8 * k + j < 2048 := by obtain ⟨hk, hj⟩ := hl; omega
    exact { h with ctBits := Memory.within_set v hword h.ctBits }
  | sym k => exact { h with symBuf := within_setSymbolWord v hl h.symBuf }
  | huf k => exact h.with_hufBuf (within_setBitWord v hl h.hufBuf)
  | dat k => exact h.with_datBuf (within_setBitWord v hl h.datBuf)
  | cw k => exact { h with cwBuf := within_setCodewordWord v hl h.cwBuf }
  | rx k => exact { h with rxBuf := within_setCodewordWord v hl h.rxBuf }

theorem hostRead_boundsKept (a : Addr) (n : Nat) (s : State) : BoundsKept s (hostRead a n s) := by
  rcases hostRead_cases a n s with ⟨-, hr⟩ | ⟨l, -, -, hr⟩ | ⟨l, -, -, -, hr⟩ <;> rw [hr] <;>
    exact .of_bufs_eq rfl rfl

theorem hostWrite_boundsKept (a : Addr) (n : Nat) (v : Word) {s : State} (hp : s.params.legal = true) :
    BoundsKept s (hostWrite a n v s) := by
  rcases hostWrite_cases a n v s with ⟨-, hr⟩ | ⟨l, hl, -, hr⟩ | ⟨l, -, -, -, hr⟩ <;> rw [hr]
  · exact .of_bufs_eq rfl rfl
  · obtain ⟨-, -, hloc⟩ := reaches_eq_some.1 hl
    obtain ⟨hparams, hbufs⟩ := writeLocation_boundsKept v (locate_inside hp hloc)
    exact ⟨hparams, hbufs⟩
  · exact .of_bufs_eq rfl rfl

/-! ### The step -/

theorem step_boundsKept {s t : State} (hp : s.params.legal = true) (h : step s = .next t) : BoundsKept s t := by
  -- a turn starts from `s` without that turn on its agenda: the same capacities and buffers
  have listed {rest : List Event} (hk : BoundsKept { s with agenda := rest } t) : BoundsKept s t :=
    ⟨hk.params, hk.inBounds⟩
  rcases step_cases h with ⟨-, he⟩ | ⟨rest, -, he⟩ | ⟨a, n, rest, -, rfl⟩ | ⟨a, n, v, rest, -, rfl⟩ | ⟨rest, -, rfl⟩
  · exact engineTurn_boundsKept he
  · exact listed (engineTurn_boundsKept he)
  · exact listed (hostRead_boundsKept a n _)
  · exact listed (hostWrite_boundsKept a n v hp)
  · exact listed (takeReset_boundsKept _)

/-- Settles O57: every turn keeps the capacities and the bounds; only a host write needs the capacities legal, so that
its window is made of whole words, and only BUILD_CODES needs the bound of R124 on its stream. -/
theorem stepKeepsBuffersInBounds : Obligations.StepKeepsBuffersInBounds := by
  intro s t hp hb h
  obtain ⟨hparams, hbufs⟩ := step_boundsKept hp h
  exact ⟨hparams, hparams ▸ hbufs hb⟩

end Sys2Proof.Machine
end

section
/-! SUPPORT. The invariants every step keeps (10_state.md R28 to R33, R48, R58; 41_huffman.md R122): what a relation
between the states around a turn has to satisfy to hold of every step, what a command's completion leaves, and the
statements on canonical buffers, draws, STATUS and the code table. -/

namespace Sys2Proof.Machine

/-! ### Relations that hold of every turn -/

/-- The relation holds from a state to the one each single effect of a turn leaves, and it does not look at the turns
still listed nor at the answer given. -/
structure TurnRelation (R : State → State → Prop) : Prop where
  agenda : ∀ s t rest, R { s with agenda := rest } t → R s t
  answer : ∀ s t r d, R s t → R s (t.answer r d)
  idle : ∀ s, R s s
  draw : ∀ s, R s { s with draws := s.draws + 1 }
  drop : ∀ s, R s s.noteDrop
  write : ∀ s l v, s.status.busy = false ∨ writableWhileBusy l = true → R s (writeLocation l v s)
  command : ∀ s i, s.status.busy = true → decode s.cmd = .ok i → R s (resultOf i s).completed
  badCommand : ∀ s, s.status.busy = true → R s (s.complete (some .badCommand))
  reset : ∀ s, R s s.takeReset

namespace TurnRelation

variable {R : State → State → Prop}

theorem engineTurn (hR : TurnRelation R) {s t : State} (h : engineTurn s = .next t) : R s t := by
  rcases engineTurn_cases s with ⟨-, he⟩ | ⟨hb, i, hi, he⟩ | ⟨hb, -, he⟩
  · cases he.symm.trans h
    exact hR.idle s
  · cases (exec_eq i s).symm.trans (he.symm.trans h)
    exact hR.command s i hb hi
  · cases he.symm.trans h
    exact hR.badCommand s hb

theorem hostRead (hR : TurnRelation R) (a : Addr) (n : Nat) (s : State) : R s (hostRead a n s) := by
  rcases hostRead_cases a n s with ⟨-, hr⟩ | ⟨l, -, -, hr⟩ | ⟨l, -, -, -, hr⟩ <;> rw [hr]
  · exact hR.answer _ _ _ _ (hR.idle s)
  · exact hR.answer _ _ _ _ (hR.idle s)
  · exact hR.answer _ _ _ _ (hR.draw s)

theorem hostWrite (hR : TurnRelation R) (a : Addr) (n : Nat) (v : Word) (s : State) : R s (hostWrite a n v s) := by
  rcases hostWrite_cases a n v s with ⟨-, hr⟩ | ⟨l, -, hl, hr⟩ | ⟨l, -, -, -, hr⟩ <;> rw [hr]
  · exact hR.answer _ _ _ _ (hR.idle s)
  · exact hR.answer _ _ _ _ (hR.write s l v hl)
  · exact hR.answer _ _ _ _ (hR.drop s)

/-- A relation that holds of every turn holds of every step. -/
theorem step (hR : TurnRelation R) {s t : State} (h : step s = .next t) : R s t := by
  rcases step_cases h with ⟨-, he⟩ | ⟨rest, -, he⟩ | ⟨a, n, rest, -, rfl⟩ | ⟨a, n, v, rest, -, rfl⟩ | ⟨rest, -, rfl⟩
  · exact hR.engineTurn he
  · exact hR.agenda _ _ rest (hR.engineTurn he)
  · exact hR.agenda _ _ rest (hR.hostRead a n _)
  · exact hR.agenda _ _ rest (hR.hostWrite a n v _)
  · exact hR.agenda _ _ rest (hR.reset _)

end TurnRelation

/-! ### Draws -/

/-- Buffers with draws of their own still have them, and no draw is given back. -/
def FreshKept (s t : State) : Prop := s.DrawsFresh → t.DrawsFresh ∧ s.draws ≤ t.draws

theorem FreshKept.of_drawList_eq {s t : State} (hl : t.bufs.drawList = s.bufs.drawList) (hd : s.draws ≤ t.draws) :
    FreshKept s t := by
  rintro ⟨hn, hlt⟩
  refine ⟨⟨by rwa [hl], fun d hmem => ?_⟩, hd⟩
  rw [hl] at hmem
  exact (hlt d hmem).trans_le hd

/-- One buffer takes the next draw (R152). -/
theorem FreshKept.of_redrawn {s t : State} (k : Nat) (hl : t.bufs.drawList = s.bufs.drawList.set k s.draws)
    (hd : t.draws = s.draws + 1) : FreshKept s t := by
  rintro ⟨hn, hlt⟩
  have hnew : s.draws ∉ s.bufs.drawList := fun hmem => (hlt _ hmem).false
  refine ⟨⟨by rw [hl]; exact hn.set hnew, fun d hmem => ?_⟩, by omega⟩
  rw [hl] at hmem
  rcases List.mem_or_eq_of_mem_set hmem with hold | rfl
  · exact hd ▸ Nat.lt_succ_of_lt (hlt d hold)
  · omega

/-- A reset's draws are new ones, one for each buffer (R58, R162). -/
theorem FreshKept.takeReset (s : State) : FreshKept s s.takeReset := by
  have hl : s.takeReset.bufs.drawList = List.range' (s.draws + 1) 10 := rfl
  have hd : s.takeReset.draws = s.draws + 11 := rfl
  refine fun _ => ⟨⟨hl ▸ List.nodup_range', fun d hmem => ?_⟩, by omega⟩
  rw [hl, List.mem_range'_1] at hmem
  omega

/-! ### The canonical form -/

/-- Buffers in canonical form stay so. -/
def CanonicalKept (s t : State) : Prop := s.bufs.Canonical → t.bufs.Canonical

/-- For any contents `m`, so that no proof evaluates the 32 elements a host write of a word stores. -/
theorem Buffers.Canonical.with_hufBuf {b : Buffers} {m : Memory Bool} (h : b.Canonical) (hm : m.wf) :
    { b with hufBuf := m }.Canonical := { h with hufBuf := hm }

/-- As for HUF_BUF. -/
theorem Buffers.Canonical.with_datBuf {b : Buffers} {m : Memory Bool} (h : b.Canonical) (hm : m.wf) :
    { b with datBuf := m }.Canonical := { h with datBuf := hm }

theorem Buffers.reset_canonical (d : Nat) : (Buffers.reset d).Canonical := by
  constructor <;> exact Memory.wf_drawn _

theorem writeLocation_canonicalKept (l : Location) (v : Word) (s : State) : CanonicalKept s (writeLocation l v s) := by
  intro h
  cases l with
  | reg r => cases r <;> exact h
  | freq | out | eflag => exact h
  | ctLen k => exact { h with ctLen := Memory.wf_set _ _ h.ctLen }
  | ctBits k j => exact { h with ctBits := Memory.wf_set _ _ h.ctBits }
  | sym k => exact { h with symBuf := wf_setSymbolWord k v h.symBuf }
  | huf k => exact h.with_hufBuf (wf_setBitWord k v h.hufBuf)
  | dat k => exact h.with_datBuf (wf_setBitWord k v h.datBuf)
  | cw k => exact { h with cwBuf := wf_setCodewordWord k v h.cwBuf }
  | rx k => exact { h with rxBuf := wf_setCodewordWord k v h.rxBuf }

theorem writeLocation_drawList (l : Location) (v : Word) (s : State) :
    (writeLocation l v s).bufs.drawList = s.bufs.drawList := by
  cases l with
  | reg r => cases r <;> rfl
  | _ => simp [writeLocation, Buffers.drawList]

/-! ### The code table -/

theorem Buffers.codeTable_congr {b c : Buffers} (hlen : c.ctLen = b.ctLen) (hbits : c.ctBits = b.ctBits) :
    c.codeTable = b.codeTable := by
  simp only [Buffers.codeTable, Buffers.code, Buffers.codeBit, hlen, hbits]

/-- In a table written to CT no code begins another if none did among the codes it was written from (R122). -/
theorem prefixFree_codeTable_writeTable {t : CodeTable} (b : Buffers) (hp : prefixFree t = true)
    (hl : ∀ x c, codeOf t x = some c → 1 ≤ c.length ∧ c.length ≤ 255) :
    prefixFree (writeTable t b).codeTable = true := by
  have mem_of_mem {x : Symbol} {c : Bits} (h : (x, c) ∈ (writeTable t b).codeTable) : (x, c) ∈ t := by
    obtain ⟨hx, rfl⟩ := mem_codeTable.1 h
    refine mem_of_codeOf ?_
    rw [← codeOf_codeTable_writeTable t b x (hl x), codeOf_codeTable, if_neg hx]
  rw [prefixFree_iff] at hp ⊢
  exact fun a ha c hc => hp a (mem_of_mem ha) c (mem_of_mem hc)

/-- What a turn does to CODES_VALID and the table in CT: nothing, CODES_VALID falls, or BUILD_CODES succeeds. -/
inductive CodesEffect (s t : State) : Prop
  | kept (hlen : t.bufs.ctLen = s.bufs.ctLen) (hbits : t.bufs.ctBits = s.bufs.ctBits)
      (hvalid : t.status.codesValid = s.status.codesValid)
  | cleared (hvalid : t.status.codesValid = false)
  | built (hbusy : s.status.busy = true) (hcmd : s.cmd = encode .buildCodes) (herr : t.status.errCode = none)
      (hfree : prefixFree t.bufs.codeTable = true)

/-- The effect looks at CMD, STATUS and the buffers only. -/
theorem CodesEffect.congr {s t s' t' : State} (h : CodesEffect s t) (hcmd : s'.cmd = s.cmd)
    (hstatus : s'.status = s.status) (hbufs : s'.bufs = s.bufs) (hstatus' : t'.status = t.status)
    (hbufs' : t'.bufs = t.bufs) : CodesEffect s' t' := by
  cases h with
  | kept hlen hbits hvalid =>
    exact .kept (by rw [hbufs, hbufs', hlen]) (by rw [hbufs, hbufs', hbits]) (by rw [hstatus, hstatus', hvalid])
  | cleared hvalid => exact .cleared (hstatus' ▸ hvalid)
  | built hbusy hword herr hfree => exact .built (hstatus ▸ hbusy) (hcmd ▸ hword) (hstatus' ▸ herr) (hbufs' ▸ hfree)

theorem CodesEffect.codesSound {s t : State} (h : CodesEffect s t) (hs : s.CodesSound) : t.CodesSound := by
  intro hv
  cases h with
  | kept hlen hbits hvalid => rw [Buffers.codeTable_congr hlen hbits]; exact hs (hvalid ▸ hv)
  | cleared hvalid => rw [hvalid] at hv; cases hv
  | built _ _ _ hfree => exact hfree

theorem CodesEffect.built_of_raised {s t : State} (h : CodesEffect s t) (hs : s.status.codesValid = false)
    (ht : t.status.codesValid = true) :
    s.status.busy = true ∧ s.cmd = encode .buildCodes ∧ t.status.errCode = none := by
  cases h with
  | kept _ _ hvalid => rw [hvalid, hs] at ht; cases ht
  | cleared hvalid => rw [hvalid] at ht; cases ht
  | built hbusy hcmd herr _ => exact ⟨hbusy, hcmd, herr⟩

theorem writeLocation_codesEffect (l : Location) (v : Word) (s : State) : CodesEffect s (writeLocation l v s) := by
  cases l with
  | reg r => cases r <;> exact .kept rfl rfl rfl
  | ctLen | ctBits => exact .cleared rfl
  | _ => exact .kept (by simp only [writeLocation]) (by simp only [writeLocation]) (by simp only [writeLocation])

/-! ### The commands -/

/-- What the completion of command `i` leaves, as far as the invariants go. -/
structure CommandEffect (i : Instr) (s t : State) : Prop where
  completed : ∃ e, Completed s t e
  canonical : CanonicalKept s t
  fresh : FreshKept s t
  table : t.bufs.ctLen = s.bufs.ctLen ∧ t.bufs.ctBits = s.bufs.ctBits ∧ t.status.codesValid = s.status.codesValid ∨
    i = .buildCodes ∧ t.status.errCode = none ∧ prefixFree t.bufs.codeTable = true

namespace CommandEffect

theorem unchanged (i : Instr) (s : State) (e : Option ErrorCode) : CommandEffect i s (s.complete e) where
  completed := ⟨e, (completedUnchanged_complete s e).completed⟩
  canonical := id
  fresh := .of_drawList_eq rfl le_rfl
  table := .inl ⟨rfl, rfl, rfl⟩

/-- A success that writes registers and buffers other than CT. -/
theorem outputs (i : Instr) {s : State} (r : Regs) {b : Buffers} (hlen : b.ctLen = s.bufs.ctLen)
    (hbits : b.ctBits = s.bufs.ctBits) (hdraw : b.drawList = s.bufs.drawList)
    (hc : s.bufs.Canonical → b.Canonical) :
    CommandEffect i s (State.complete none { s with regs := r, bufs := b }) where
  completed := ⟨none, completed_complete none rfl rfl rfl rfl rfl rfl rfl⟩
  canonical := hc
  fresh := .of_drawList_eq hdraw le_rfl
  table := .inl ⟨hlen, hbits, rfl⟩

theorem buildCodes (s : State) : CommandEffect .buildCodes s (buildCodes s).completed := by
  rcases buildCodes_cases s with ⟨-, hr⟩ | ⟨-, -, hr⟩ | ⟨-, hpos, hr⟩ <;> rw [hr]
  · exact unchanged _ s _
  · exact unchanged _ s _
  · have hne : s.text ≠ [] := List.ne_nil_of_length_pos (by rw [State.text_length]; exact hpos)
    obtain ⟨-, -, -, hfree⟩ := codesOfText_spec hne
    exact {
      completed := ⟨none, completed_complete none rfl rfl rfl rfl rfl rfl rfl⟩
      canonical := fun h => { h with
        freqBuf := Memory.wf_setAll _ _ _
        ctLen := Memory.wf_setAll _ _ _
        ctBits := Memory.wf_setAll _ _ _
        hufBuf := Memory.wf_setSeq _ _ h.hufBuf }
      fresh := .of_drawList_eq (by simp [Buffers.drawList, writeTable]) le_rfl
      table := .inr ⟨rfl, rfl, prefixFree_codeTable_writeTable s.bufs hfree
        fun _ _ => length_of_codeOf_codesOfText⟩ }

theorem hufEncode (s : State) : CommandEffect .hufEncode s (hufEncode s).completed := by
  rcases hufEncode_cases s with ⟨-, hr⟩ | ⟨-, e, -, hr⟩ | ⟨-, bits, -, hr⟩ <;> rw [hr]
  · exact unchanged _ s _
  · exact {
      completed := ⟨some e, completed_complete (some e) rfl rfl rfl rfl rfl rfl rfl⟩
      canonical := fun h => h.with_hufBuf (Memory.wf_drawn _)
      fresh := .of_redrawn 5 rfl rfl
      table := .inl ⟨rfl, rfl, rfl⟩ }
  · exact outputs _ _ rfl rfl (by simp [Buffers.drawList]) fun h => h.with_hufBuf (Memory.wf_setSeq _ _ h.hufBuf)

theorem decompress (i : Instr) (len : Word) (bits : Bits) (s : State) :
    CommandEffect i s (decompress len bits s).completed := by
  rcases decompress_cases len bits s with ⟨-, hr⟩ | ⟨-, -, hr⟩ | ⟨-, -, e, -, hr⟩ | ⟨-, -, text, -, hr⟩ <;> rw [hr]
  · exact unchanged _ s _
  · exact unchanged _ s _
  · exact {
      completed := ⟨some e, completed_complete (some e) rfl rfl rfl rfl rfl rfl rfl⟩
      canonical := fun h => { h with outBuf := Memory.wf_drawn _ }
      fresh := .of_redrawn 4 rfl rfl
      table := .inl ⟨rfl, rfl, rfl⟩ }
  · exact outputs _ _ rfl rfl (by simp [Buffers.drawList]) fun h => { h with outBuf := Memory.wf_setSeq _ _ h.outBuf }

theorem hamEncode (s : State) : CommandEffect .hamEncode s (hamEncode s).completed := by
  rcases hamEncode_cases s with ⟨-, hr⟩ | ⟨-, hr⟩ <;> rw [hr]
  · exact unchanged _ s _
  · exact outputs _ _ rfl rfl (by simp [Buffers.drawList]) fun h => { h with cwBuf := Memory.wf_setSeq _ _ h.cwBuf }

theorem injectNoise (s : State) : CommandEffect .injectNoise s (injectNoise s).completed := by
  rcases injectNoise_cases s with ⟨-, hr⟩ | ⟨-, -, hr⟩ | ⟨-, -, hr⟩ <;> rw [hr]
  · exact unchanged _ s _
  · exact unchanged _ s _
  · exact outputs _ _ rfl rfl (by simp [Buffers.drawList]) fun h => { h with rxBuf := Memory.wf_setSeq _ _ h.rxBuf }

theorem hamDecode (s : State) : CommandEffect .hamDecode s (hamDecode s).completed := by
  rcases hamDecode_cases s with ⟨-, hr⟩ | ⟨-, hr⟩ <;> rw [hr]
  · exact unchanged _ s _
  · exact outputs _ _ rfl rfl (by simp [Buffers.drawList]) fun h => { h with
      datBuf := Memory.wf_setSeq _ _ h.datBuf
      eflagBuf := Memory.wf_setSeq _ _ h.eflagBuf }

theorem resultOf (i : Instr) (s : State) : CommandEffect i s (resultOf i s).completed := by
  cases i with
  | nop => exact unchanged _ s none
  | buildCodes => exact buildCodes s
  | hufEncode => exact hufEncode s
  | decompressSrc0 => exact decompress _ _ _ s
  | decompressSrc1 => exact decompress _ _ _ s
  | hamEncode => exact hamEncode s
  | injectNoise => exact injectNoise s
  | hamDecode => exact hamDecode s

end CommandEffect

/-! ### The command word -/

theorem decode_encode (i : Instr) : decode (encode i) = .ok i := by cases i <;> rfl

theorem decodeOp_eq_ok {n : Nat} {b : Bool} {i : Instr} (h : decodeOp n b = .ok i) :
    n = (opcodeOf i).toNat ∧ BitVec.ofBool b = srcOf i := by
  unfold decodeOp at h
  split at h <;> cases h <;> exact ⟨rfl, rfl⟩

/-- A word is its four fields, from bit 31 down (R87). -/
theorem word_eq_fields (w : Word) :
    w = w.extractLsb' 9 23 ++ BitVec.ofBool (srcField w) ++ w.extractLsb' 4 4 ++ opField w := by
  apply BitVec.eq_of_getLsbD_eq
  intro j hj
  simp only [BitVec.getLsbD_append, BitVec.getLsbD_extractLsb', opField, srcField, BitVec.getLsbD_ofBool]
  grind

/-- Only the word of a command decodes to it (R88, R89). -/
theorem eq_encode_of_decode {w : Word} {i : Instr} (h : decode w = .ok i) : w = encode i := by
  unfold decode at h
  split_ifs at h with hop hzero
  obtain ⟨hopcode, hsrc⟩ := decodeOp_eq_ok h
  simp only [reservedFieldsZero, Bool.and_eq_true, beq_iff_eq] at hzero
  obtain ⟨hlow, hhigh⟩ := hzero
  rw [word_eq_fields w, hlow, hhigh, hsrc, BitVec.eq_of_toNat_eq hopcode]
  rfl

/-! ### CODES_VALID -/

theorem codesEffect_turnRelation : TurnRelation CodesEffect where
  agenda _ _ _ h := h.congr rfl rfl rfl rfl rfl
  answer _ _ _ _ h := h.congr rfl rfl rfl rfl rfl
  idle _ := .kept rfl rfl rfl
  draw _ := .kept rfl rfl rfl
  drop _ := .kept rfl rfl rfl
  write s l v _ := writeLocation_codesEffect l v s
  command s i hbusy hdecode := by
    rcases (CommandEffect.resultOf i s).table with ⟨hlen, hbits, hvalid⟩ | ⟨rfl, herr, hfree⟩
    · exact .kept hlen hbits hvalid
    · exact .built hbusy (eq_encode_of_decode hdecode) herr hfree
  badCommand _ _ := .kept rfl rfl rfl
  reset _ := .cleared rfl

/-- Settles O60: a turn leaves CT and CODES_VALID, lowers CODES_VALID, or is the BUILD_CODES that writes the codes of a
text, none of which begins another. -/
theorem stepKeepsCodesSound : Obligations.StepKeepsCodesSound :=
  ⟨fun _ _ hs h => (codesEffect_turnRelation.step h).codesSound hs,
    fun _ _ hs h => (codesEffect_turnRelation.step h).built_of_raised hs⟩

/-! ### Buffers and draws -/

theorem canonicalKept_turnRelation : TurnRelation CanonicalKept where
  agenda _ _ _ h := h
  answer _ _ _ _ h := h
  idle _ := id
  draw _ := id
  drop _ := id
  write s l v _ := writeLocation_canonicalKept l v s
  command s i _ _ := (CommandEffect.resultOf i s).canonical
  badCommand _ _ := id
  reset _ _ := Buffers.reset_canonical _

/-- Settles O56: every write of elements lists them in order, and a fresh draw lists none. -/
theorem stepKeepsBuffersCanonical : Obligations.StepKeepsBuffersCanonical :=
  fun _ _ hs h => canonicalKept_turnRelation.step h hs

theorem freshKept_turnRelation : TurnRelation FreshKept where
  agenda _ _ _ h := h
  answer _ _ _ _ h := h
  idle _ := .of_drawList_eq rfl le_rfl
  draw _ := .of_drawList_eq rfl (Nat.le_succ _)
  drop _ := .of_drawList_eq rfl le_rfl
  write s l v _ := .of_drawList_eq (writeLocation_drawList l v s) (writeLocation_draws l v s).ge
  command s i _ _ := (CommandEffect.resultOf i s).fresh
  badCommand _ _ := .of_drawList_eq rfl le_rfl
  reset := FreshKept.takeReset

/-- Settles O58: a turn keeps every buffer's draw, or gives one buffer, or at reset each of them, a draw not taken yet. -/
theorem stepKeepsDrawsFresh : Obligations.StepKeepsDrawsFresh :=
  fun _ _ hs h => freshKept_turnRelation.step h hs

/-! ### STATUS and CMD -/

/-- A coherent STATUS stays so. -/
def CoherentKept (s t : State) : Prop := s.StatusCoherent → t.StatusCoherent

/-- A completion leaves BUSY = 0, and ERR as ERRCODE tells (R102). -/
theorem Completed.coherentKept {s t : State} {e : Option ErrorCode} (h : Completed s t e) : CoherentKept s t :=
  fun hs =>
    { lastOp := by rw [h.lastOp, h.cmd, hs.lastOp]
      err := by rw [h.err, h.errCode]
      busy := fun hb => absurd (h.busy.symm.trans hb) Bool.false_ne_true }

/-- An accepted command word starts with DONE and ERR 0 and its own LAST_OP (R100); no other write touches CMD, or
STATUS but CODES_VALID. -/
theorem writeLocation_coherentKept (l : Location) (v : Word) (s : State) : CoherentKept s (writeLocation l v s) := by
  intro h
  by_cases hl : ∃ r, l = .reg r
  · obtain ⟨r, rfl⟩ := hl
    cases r with
    | cmd => exact ⟨rfl, rfl, fun _ => ⟨rfl, rfl⟩⟩
    | _ => exact ⟨h.lastOp, h.err, h.busy⟩
  · obtain ⟨c, -, hw⟩ := writeLocation_window v s (not_exists.1 hl)
    rw [hw]
    exact ⟨h.lastOp, h.err, h.busy⟩

theorem coherentKept_turnRelation : TurnRelation CoherentKept where
  agenda _ _ _ h hs := h ⟨hs.lastOp, hs.err, hs.busy⟩
  answer _ _ _ _ h hs := ⟨(h hs).lastOp, (h hs).err, (h hs).busy⟩
  idle _ := id
  draw _ hs := ⟨hs.lastOp, hs.err, hs.busy⟩
  drop _ hs := ⟨hs.lastOp, hs.err, hs.busy⟩
  write s l v _ := writeLocation_coherentKept l v s
  command s i _ _ := by
    obtain ⟨e, he⟩ := (CommandEffect.resultOf i s).completed
    exact he.coherentKept
  badCommand s _ := (completedUnchanged_complete s _).completed.coherentKept
  reset _ _ := ⟨rfl, rfl, nofun⟩

/-- Settles O59: only an accepted word, a completion and reset write the fields in question, each all of them. -/
theorem stepKeepsStatusCoherent : Obligations.StepKeepsStatusCoherent :=
  fun _ _ hs h => coherentKept_turnRelation.step h hs

end Sys2Proof.Machine
end

section
/-! SUPPORT. Turns and registers (10_state.md R20 to R46; 40_command.md R101 to R104): the step of each turn, the command
the engine runs, what a host transaction can touch, and the registers as the host reads and writes them. -/

namespace Sys2Proof.Machine

/-! ### The step of a turn -/

theorem step_memRead {s : State} {a : Addr} {n : Nat} {rest : List Event} (h : s.agenda = .memRead a n :: rest) :
    step s = .next (hostRead a n { s with agenda := rest }) := by
  simp only [step, nextTurn, h, takeTurn]

theorem step_memWrite {s : State} {a : Addr} {n : Nat} {v : Word} {rest : List Event}
    (h : s.agenda = .memWrite a n v :: rest) : step s = .next (hostWrite a n v { s with agenda := rest }) := by
  simp only [step, nextTurn, h, takeTurn]

theorem step_engineNext {s : State} {rest : List Event} (h : EngineNext s rest) :
    step s = engineTurn { s with agenda := rest } := by
  rcases h with ha | ⟨ha, rfl⟩
  · simp only [step, nextTurn, ha, takeTurn]
  · obtain ⟨⟩ := s
    cases ha
    rfl

/-! ### The command the engine runs -/

theorem tableWord_toNat (w : Word) : tableWord 32 w.toNat = w := by
  rw [tableWord, Nat.mod_eq_of_lt w.isLt, BitVec.ofNat_toNat, BitVec.setWidth_eq]

theorem runCommand_of_decode {s : State} {i : Instr} (h : decode s.cmd = .ok i) : runCommand s = exec i s := by
  simp only [runCommand, h]

theorem engineTurn_of_busy {s : State} (h : s.status.busy = true) : engineTurn s = runCommand s := if_pos h

/-- Settles O5: a turn of the engine while BUSY = 1 is `runCommand`, which runs what CMD decodes to. -/
theorem stepRunsTheDecodedCommand : Obligations.StepRunsTheDecodedCommand := by
  refine ⟨fun s i rest hnext hbusy hdecode => ?_, fun s i => ?_⟩
  · rw [step_engineNext hnext]
    exact (engineTurn_of_busy (s := { s with agenda := rest }) hbusy).trans (runCommand_of_decode hdecode)
  · rw [State.withFetchWord, tableWord_toNat, step_launch, runCommand_of_decode (decode_encode i)]

/-! ### Host transactions while a command runs -/

theorem hostRead_frame (a : Addr) (n : Nat) (s : State) :
    hostRead a n s = { s with reply := (hostRead a n s).reply, draws := (hostRead a n s).draws } := by
  rcases hostRead_cases a n s with ⟨-, hr⟩ | ⟨l, -, -, hr⟩ | ⟨l, -, -, -, hr⟩ <;> rw [hr] <;> rfl

/-- Only the two interrupt registers take a write while a command runs (R71). -/
theorem hostWrite_busy_frame (a : Addr) (n : Nat) (v : Word) {s : State} (hb : s.status.busy = true) :
    hostWrite a n v s =
      { s with
        reply := (hostWrite a n v s).reply
        irqEnable := (hostWrite a n v s).irqEnable
        irqStatus := (hostWrite a n v s).irqStatus } := by
  rcases hostWrite_cases a n v s with ⟨-, hr⟩ | ⟨l, -, hl, hr⟩ | ⟨l, -, -, -, hr⟩ <;> rw [hr]
  · rfl
  · have hirq := writableWhileBusy_iff.1 (hl.resolve_left (by simp [hb]))
    rcases hirq with rfl | rfl <;> rfl
  · rfl

/-- Settles O11: a read only answers and counts a draw; a write is dropped or reaches an interrupt register. -/
theorem hostCannotTouchARunningCommand : Obligations.HostCannotTouchARunningCommand := by
  intro s t e rest hbusy hagenda
  refine ⟨?_, ?_⟩
  · rintro a n rfl h
    cases (step_memRead hagenda).symm.trans h
    exact hostRead_frame a n _
  · rintro a n v rfl h
    cases (step_memWrite hagenda).symm.trans h
    exact hostWrite_busy_frame a n v hbusy

/-! ### Registers at the host port -/

theorem reaches_regAddr (r : Reg) (s : State) : reaches (regAddr r) 4 s = some (.reg r) :=
  reaches_eq_some.2 ⟨rfl, by cases r <;> rfl, locate_regAddr s.params r⟩

theorem writeReg_agenda (r : Reg) (v : Word) (s : State) (rest : List Event) :
    writeReg r v { s with agenda := rest } = { writeReg r v s with agenda := rest } := by cases r <;> rfl

theorem step_readReg {s : State} {r : Reg} {rest : List Event} (hb : s.status.busy = false)
    (h : s.agenda = .memRead (regAddr r) 4 :: rest) :
    step s = .next { s with agenda := rest, reply := some ⟨.okay, some (readReg r s)⟩ } := by
  rw [step_memRead h]
  simp only [hostRead, reaches_regAddr, hb, Bool.false_and, Bool.false_eq_true, if_false, readLocation]
  cases r <;> rfl

theorem step_writeReg {s : State} {r : Reg} {v : Word} {rest : List Event} (hb : s.status.busy = false)
    (h : s.agenda = .memWrite (regAddr r) 4 v :: rest) :
    step s = .next { writeReg r v s with agenda := rest, reply := some ⟨.okay, none⟩ } := by
  rw [step_memWrite h]
  simp only [hostWrite, reaches_regAddr, hb, Bool.false_and, Bool.false_eq_true, if_false, writeLocation,
    writeReg_agenda]
  rfl

/-- The registers in the order of R20. -/
def Reg.all : List Reg :=
  [.id, .capText, .capOut, .capBits, .capBlks, .cmd, .status, .irqEnable, .irqStatus,
    .symLen, .hufLen, .cwCnt, .rxCnt, .datLen, .outLen, .errCount, .noiseCnt, .noiseSeed, .nSymbols]

theorem Reg.mem_all (r : Reg) : r ∈ Reg.all := by cases r <;> decide

/-- R20's table is `regAddr` and `readReg`. -/
theorem registerTable_eq (s : State) :
    controlTable s ++ dataTable s = Reg.all.map fun r => (regAddr r, readReg r s) := rfl

theorem readReg_turn (r : Reg) (s : State) (rest : List Event) (reply : Option Reply) :
    readReg r { s with agenda := rest, reply := reply } = readReg r s := by cases r <;> rfl

/-- A write of an RW register changes only the registers of R37 to R46, is read back, and no other register reads
another value. -/
theorem writeReg_readWrite {r : Reg} (hr : r ∈ readWriteRegs) (v : Word) (s : State) :
    writeReg r v s = { s with regs := (writeReg r v s).regs } ∧ readReg r (writeReg r v s) = v ∧
      ∀ q, q ≠ r → readReg q (writeReg r v s) = readReg q s := by
  simp only [readWriteRegs, List.mem_cons, List.not_mem_nil, or_false] at hr
  rcases hr with rfl | rfl | rfl | rfl | rfl | rfl | rfl <;>
    exact ⟨rfl, rfl, fun q hq => by cases q <;> simp_all [readReg, writeReg]⟩

theorem writeIrqStatus_getLsbD (v : Word) (s : State) {k : Nat} (hk : k < 3) :
    (s.writeIrqStatus v).irqStatus.getLsbD k = (s.irqStatus.getLsbD k && !v.getLsbD k) := by
  simp [hk]

/-- Settles O46: with BUSY = 0 every register address reaches its register, whose read and write are `readReg` and
`writeReg`. -/
theorem registersReadAndWrite : Obligations.RegistersReadAndWrite := by
  intro s r v rest hbusy
  refine ⟨?_, ?_, ?_, step_writeReg hbusy, ?_⟩
  · rw [registerTable_eq]
    exact List.mem_map_of_mem (Reg.mem_all r)
  · intro q hq hagenda
    rw [registerTable_eq] at hq
    obtain ⟨p, -, rfl⟩ := List.mem_map.1 hq
    exact step_readReg hbusy hagenda
  · intro hagenda hr
    obtain ⟨hframe, hsame, hother⟩ := writeReg_readWrite hr v s
    refine ⟨_, step_writeReg hbusy hagenda, (readReg_turn r _ _ _).trans hsame, fun q hq => ?_, ?_⟩
    · exact (readReg_turn q _ _ _).trans (hother q hq)
    · rw [hframe]
  · exact fun hagenda => ⟨_, step_writeReg hbusy hagenda, fun k hk => writeIrqStatus_getLsbD v s hk, rfl⟩

/-! ### STATUS as a word, and irq -/

theorem readReg_caps {s : State} (hp : s.params.legal = true) :
    (readReg .capText s).toNat = s.params.textCap ∧ (readReg .capOut s).toNat = s.params.outCap ∧
    (readReg .capBits s).toNat = 8 * s.params.textCap ∧ (readReg .capBlks s).toNat = 2 * s.params.textCap := by
  simp only [Params.legal, Bool.and_eq_true, beq_iff_eq, decide_eq_true_eq] at hp
  simp only [readReg, BitVec.toNat_ofNat, Params.bitCap, Params.blkCap]
  omega

theorem Status.word_flags (t : Status) :
    t.word.getLsbD 0 = t.busy ∧ t.word.getLsbD 1 = t.done ∧ t.word.getLsbD 2 = t.err ∧
      t.word.getLsbD 3 = t.codesValid := by
  simp only [Status.word, BitVec.getLsbD_append]
  simp

theorem Status.word_fields (t : Status) :
    t.word.extractLsb' 4 4 = 0#4 ∧ t.word.extractLsb' 8 4 = errorNumber t.errCode ∧
      t.word.extractLsb' 12 4 = t.lastOp ∧ t.word.extractLsb' 16 16 = 0#16 := by
  refine ⟨?_, ?_, ?_, ?_⟩
  all_goals
    apply BitVec.eq_of_getLsbD_eq
    intro j hj
    simp only [Status.word, BitVec.getLsbD_extractLsb', BitVec.getLsbD_append]
    grind

/-- The reserved bits of IRQ_ENABLE and IRQ_STATUS (R34, R35, R70). -/
theorem extractLsb'_setWidth_irq (x : BitVec 3) : (x.setWidth 32).extractLsb' 3 29 = 0#29 := by
  apply BitVec.eq_of_getLsbD_eq
  intro j hj
  simp

/-- The irq line is high exactly while some event is pending and enabled (R36). -/
theorem State.irq_iff (s : State) :
    s.irq = true ↔ ∃ k < 3, s.irqStatus.getLsbD k = true ∧ s.irqEnable.getLsbD k = true := by
  have hzero : s.irqStatus &&& s.irqEnable = 0#3 ↔
      ∀ k < 3, (s.irqStatus.getLsbD k && s.irqEnable.getLsbD k) = false := by
    refine ⟨fun h k _ => ?_, fun h => BitVec.eq_of_getLsbD_eq fun k hk => ?_⟩
    · rw [← BitVec.getLsbD_and, h, BitVec.getLsbD_zero]
    · rw [BitVec.getLsbD_and, h k hk, BitVec.getLsbD_zero]
  simp [State.irq, hzero]

/-- Settles O47: the legal capacities fit 32 bits, and STATUS is its fields placed one after the other. -/
theorem statusFieldsAndIrq : Obligations.StatusFieldsAndIrq := by
  intro s hp
  obtain ⟨htext, hout, hbits, hblks⟩ := readReg_caps hp
  obtain ⟨hbusy, hdone, herr, hvalid⟩ := s.status.word_flags
  obtain ⟨hlow, hcode, hop, hhigh⟩ := s.status.word_fields
  exact ⟨rfl, htext, hout, hbits, hblks, hbusy, hdone, herr, hvalid, hlow, hcode, hop, hhigh,
    extractLsb'_setWidth_irq s.irqEnable, extractLsb'_setWidth_irq s.irqStatus, s.irq_iff⟩

end Sys2Proof.Machine
end

section
/-! SUPPORT. The host port's address map and windows, and what a host access changes (20_memory.md R64 to R83): which
location each address reaches, the step of an access by the location it reaches, and the statements on them. -/

namespace Sys2Proof.Machine

/-! ### The address map -/

/-- The ranges of R11. -/
theorem Params.bounds_of_legal {p : Params} (hp : p.legal = true) : p.textCap ≤ 32768 ∧ p.outCap ≤ 65536 := by
  simp only [Params.legal, Bool.and_eq_true, decide_eq_true_eq] at hp
  obtain ⟨⟨⟨⟨⟨-, -⟩, ht⟩, -⟩, -⟩, ho⟩ := hp
  exact ⟨ht, ho⟩

theorem Params.bitCap_div_eight (p : Params) : p.bitCap / 8 = p.textCap := by
  rw [Params.bitCap, Nat.mul_div_cancel_left p.textCap (by decide)]

theorem Params.blkCap_div_eight (p : Params) : p.blkCap / 8 = p.textCap / 4 := by
  rw [Params.blkCap]
  omega

theorem lowAt_eq_none {a : Nat} (h : 0x1400 ≤ a ∧ a < 0x4000 ∨ 0x8000 ≤ a) : lowAt a = none := by
  unfold lowAt
  rw [if_neg (by omega), if_neg (by omega)]
  rcases h with ⟨-, h⟩ | h
  · rw [if_pos h]
  · rw [if_neg (by omega), if_neg (by omega)]

theorem locate_freq (p : Params) {k : Nat} (hk : k < 256) : locate p (0x1000 + 4 * k) = some (.freq k) := by
  rw [locate_low p (by omega), lowAt_freq hk]

theorem locate_ct (p : Params) {o : Nat} (ho : o < 0x4000) : locate p (0x4000 + o) = ctAt o := by
  rw [locate_low p (by omega), lowAt_ct ho]

theorem locate_ctLen (p : Params) {x : Nat} (hx : x < 256) : locate p (0x4000 + 64 * x) = some (.ctLen x) := by
  rw [locate_ct p (by omega), ctAt_len]

theorem locate_ctBits (p : Params) {x k : Nat} (hx : x < 256) (hk : k < 8) :
    locate p (0x4000 + 64 * x + 4 + 4 * k) = some (.ctBits x k) := by
  rw [show 0x4000 + 64 * x + 4 + 4 * k = 0x4000 + (64 * x + 4 + 4 * k) by omega, locate_ct p (by omega), ctAt_bits x hk]

theorem locate_ctGap (p : Params) {x o : Nat} (hx : x < 256) (h1 : 0x24 ≤ o) (h2 : o < 0x40) :
    locate p (0x4000 + 64 * x + o) = none := by
  rw [Nat.add_assoc, locate_ct p (by omega), ctAt_none x h1 h2]

/-- Settles O40: the first 64 KiB by R20, R82 and R83, the seven windows by `locate_block`. -/
theorem addressMap : Obligations.AddressMap := by
  intro p _
  refine ⟨locate_regAddr p, fun a ha hr => ?_, fun k => locate_freq p, fun a h1 h2 => ?_, fun k => locate_ctLen p,
    fun k hk j => locate_ctBits p hk, fun k hk o => locate_ctGap p hk, fun a h1 h2 => ?_, fun o ho _ => ?_⟩
  · rw [locate_low p (by omega), lowAt, if_pos ha, regAt_eq_none hr, Option.map_none]
  · rw [locate_low p (by omega), lowAt_eq_none (.inl ⟨h1, h2⟩)]
  · rw [locate_low p h2, lowAt_eq_none (.inr h1)]
  · have hhuf := locate_block p 3 ho
    have hdat := locate_block p 4 ho
    have heflag := locate_block p 7 ho
    rw [Params.bitCap_div_eight p] at hhuf hdat
    rw [Params.blkCap_div_eight p] at heflag
    exact ⟨locate_block p 1 ho, locate_block p 2 ho, hhuf, hdat, locate_block p 5 ho, locate_block p 6 ho, heflag⟩

theorem regAt_eq_some {a : Nat} {r : Reg} (h : regAt a = some r) : a = (regAddr r).toNat := by
  by_contra hne
  have hnone : regAt a = none := regAt_eq_none fun q hq => by
    rw [hq, regAt_regAddr] at h
    exact hne (Option.some.inj h ▸ hq)
  rw [hnone] at h
  cases h

theorem ctAt_ne_reg (o : Nat) (r : Reg) : ctAt o ≠ some (.reg r) := by
  simp only [ctAt]
  split_ifs <;> simp

theorem windowAt_ne_reg {used o : Nat} {loc : Nat → Location} (r : Reg) (h : ∀ k, loc k ≠ .reg r) :
    windowAt used o loc ≠ some (.reg r) := by
  unfold windowAt
  split_ifs
  · exact fun he => h _ (Option.some.inj he)
  · simp

/-- Only a register's own address reaches it (R20). -/
theorem locate_eq_reg {p : Params} {a : Addr} {r : Reg} (h : locate p a.toNat = some (.reg r)) : a = regAddr r := by
  by_cases hlow : a.toNat < 0x10000
  · rw [locate_low p hlow, lowAt] at h
    split_ifs at h
    · obtain ⟨q, hq, he⟩ := Option.map_eq_some_iff.1 h
      cases he
      exact BitVec.eq_of_toNat_eq (regAt_eq_some hq)
    · simp at h
    · exact absurd h (ctAt_ne_reg _ r)
  · unfold locate at h
    split at h
    on_goal 1 => omega
    on_goal 8 => cases h
    all_goals exact absurd h (windowAt_ne_reg r (by simp))

/-! ### The location an access reaches -/

theorem reaches_ofNat {s : State} {a : Nat} {l : Location} (ha : a < 0x80000) (h4 : a % 4 = 0)
    (hl : locate s.params a = some l) : reaches (BitVec.ofNat 19 a) 4 s = some l := by
  have hn : (BitVec.ofNat 19 a).toNat = a := by rw [BitVec.toNat_ofNat, Nat.mod_eq_of_lt ha]
  exact reaches_eq_some.2 ⟨rfl, by rw [hn, h4], by rw [hn, hl]⟩

/-- Word `k` of a window of which `used` bytes are mapped. -/
theorem reaches_window {s : State} {n k used : Nat} {loc : Nat → Location} (hn : n < 8) (hk : 4 * k < used)
    (hused : used ≤ 0x10000)
    (hmap : ∀ o < 0x10000, locate s.params (0x10000 * n + o) = windowAt used o loc) :
    reaches (BitVec.ofNat 19 (0x10000 * n + 4 * k)) 4 s = some (loc k) := by
  refine reaches_ofNat (by omega) (by omega) ?_
  rw [hmap _ (by omega), windowAt_of_lt loc hk, Nat.mul_div_cancel_left k (by decide)]

theorem reaches_freq (s : State) {k : Nat} (hk : k < 256) :
    reaches (BitVec.ofNat 19 (0x1000 + 4 * k)) 4 s = some (.freq k) :=
  reaches_ofNat (by omega) (by omega) (locate_freq s.params hk)

theorem reaches_ctLen (s : State) (x : Symbol) :
    reaches (BitVec.ofNat 19 (0x4000 + 64 * x.toNat)) 4 s = some (.ctLen x.toNat) :=
  reaches_ofNat (by omega) (by omega) (locate_ctLen s.params x.isLt)

theorem reaches_ctBits (s : State) (x : Symbol) {k : Nat} (hk : k < 8) :
    reaches (BitVec.ofNat 19 (0x4000 + 64 * x.toNat + 4 + 4 * k)) 4 s = some (.ctBits x.toNat k) :=
  reaches_ofNat (by omega) (by omega) (locate_ctBits s.params x.isLt hk)

section
variable {s : State} {i : Nat} (hp : s.params.legal = true)
include hp

theorem reaches_sym (hi : i < s.params.textCap) :
    reaches (BitVec.ofNat 19 (0x10000 + 4 * (i / 4))) 4 s = some (.sym (i / 4)) := by
  have := Params.bounds_of_legal hp
  exact reaches_window (n := 1) (by decide) (by omega) (by omega) fun o ho => locate_block s.params 1 ho

theorem reaches_out (hi : i < s.params.outCap) :
    reaches (BitVec.ofNat 19 (0x20000 + 4 * (i / 4))) 4 s = some (.out (i / 4)) := by
  have := Params.bounds_of_legal hp
  exact reaches_window (n := 2) (by decide) (by omega) (by omega) fun o ho => locate_block s.params 2 ho

/-- A bit element's word lies in the mapped part of the window of HUF_BUF and of DAT_BUF. -/
theorem bitWord_mapped (hi : i < s.params.bitCap) :
    4 * (i / 32) < s.params.bitCap / 8 ∧ s.params.bitCap / 8 ≤ 0x10000 := by
  have := Params.bounds_of_legal hp
  have hcap : s.params.bitCap = 8 * s.params.textCap := rfl
  omega

theorem reaches_huf (hi : i < s.params.bitCap) :
    reaches (BitVec.ofNat 19 (0x30000 + 4 * (i / 32))) 4 s = some (.huf (i / 32)) := by
  obtain ⟨hk, hused⟩ := bitWord_mapped hp hi
  exact reaches_window (n := 3) (by decide) hk hused fun o ho => locate_block s.params 3 ho

theorem reaches_dat (hi : i < s.params.bitCap) :
    reaches (BitVec.ofNat 19 (0x40000 + 4 * (i / 32))) 4 s = some (.dat (i / 32)) := by
  obtain ⟨hk, hused⟩ := bitWord_mapped hp hi
  exact reaches_window (n := 4) (by decide) hk hused fun o ho => locate_block s.params 4 ho

/-- A codeword's word lies in the mapped part of the window of CW_BUF and of RX_BUF. -/
theorem codewordWord_mapped (hi : i < s.params.blkCap) :
    4 * (i / 4) < s.params.blkCap ∧ s.params.blkCap ≤ 0x10000 := by
  have := Params.bounds_of_legal hp
  have hcap : s.params.blkCap = 2 * s.params.textCap := rfl
  omega

theorem reaches_cw (hi : i < s.params.blkCap) :
    reaches (BitVec.ofNat 19 (0x50000 + 4 * (i / 4))) 4 s = some (.cw (i / 4)) := by
  obtain ⟨hk, hused⟩ := codewordWord_mapped hp hi
  exact reaches_window (n := 5) (by decide) hk hused fun o ho => locate_block s.params 5 ho

theorem reaches_rx (hi : i < s.params.blkCap) :
    reaches (BitVec.ofNat 19 (0x60000 + 4 * (i / 4))) 4 s = some (.rx (i / 4)) := by
  obtain ⟨hk, hused⟩ := codewordWord_mapped hp hi
  exact reaches_window (n := 6) (by decide) hk hused fun o ho => locate_block s.params 6 ho

theorem reaches_eflag (hi : i < s.params.blkCap) :
    reaches (BitVec.ofNat 19 (0x70000 + 4 * (i / 32))) 4 s = some (.eflag (i / 32)) := by
  have := Params.bounds_of_legal hp
  have := Params.caps_of_legal hp
  have hcap : s.params.blkCap = 2 * s.params.textCap := rfl
  exact reaches_window (n := 7) (by decide) (by omega) (by omega) fun o ho => locate_block s.params 7 ho

end

/-! ### The step of a host access -/

theorem readLocation_turn (l : Location) (s : State) (rest : List Event) (reply : Option Reply) (draws : Nat) :
    readLocation l { s with agenda := rest, reply := reply, draws := draws } = readLocation l s := by
  cases l with
  | reg r => cases r <;> rfl
  | _ => rfl

theorem writeLocation_turn (l : Location) (v : Word) (s : State) (rest : List Event) :
    writeLocation l v { s with agenda := rest } = { writeLocation l v s with agenda := rest } := by
  cases l with
  | reg r => exact writeReg_agenda r v s rest
  | _ => rfl

section
variable {s : State} {a : Addr} {n : Nat} {v : Word} {l : Location} {rest : List Event}

theorem step_read_refused (h : s.agenda = .memRead a n :: rest) (hl : reaches a n s = none) :
    step s = .next { s with agenda := rest, reply := some ⟨.error, some 0#32⟩ } := by
  change reaches a n { s with agenda := rest } = none at hl
  rw [step_memRead h, hostRead, hl]
  rfl

theorem step_write_refused (h : s.agenda = .memWrite a n v :: rest) (hl : reaches a n s = none) :
    step s = .next { s with agenda := rest, reply := some ⟨.error, none⟩ } := by
  change reaches a n { s with agenda := rest } = none at hl
  rw [step_memWrite h, hostWrite, hl]
  rfl

theorem step_read (h : s.agenda = .memRead a n :: rest) (hl : reaches a n s = some l)
    (hb : s.status.busy = false ∨ readableWhileBusy l = true) :
    step s = .next { s with agenda := rest, reply := some ⟨.okay, some (readLocation l s)⟩ } := by
  have hgo : (s.status.busy && !readableWhileBusy l) = false := by rcases hb with hb | hb <;> simp [hb]
  change reaches a n { s with agenda := rest } = some l at hl
  simp only [step_memRead h, hostRead, hl, hgo, readLocation_turn, Bool.false_eq_true, if_false, State.answer]

theorem step_read_unspecified (h : s.agenda = .memRead a n :: rest) (hl : reaches a n s = some l)
    (hb : s.status.busy = true) (hr : readableWhileBusy l = false) :
    step s = .next { s with agenda := rest, reply := some ⟨.okay, some (Config.free s.draws 0)⟩,
                            draws := s.draws + 1 } := by
  change reaches a n { s with agenda := rest } = some l at hl
  simp only [step_memRead h, hostRead, hl, hb, hr, Bool.not_false, Bool.and_true, if_true, State.answer]

theorem step_write (h : s.agenda = .memWrite a n v :: rest) (hl : reaches a n s = some l)
    (hb : s.status.busy = false ∨ writableWhileBusy l = true) :
    step s = .next { writeLocation l v s with agenda := rest, reply := some ⟨.okay, none⟩ } := by
  have hgo : (s.status.busy && !writableWhileBusy l) = false := by rcases hb with hb | hb <;> simp [hb]
  change reaches a n { s with agenda := rest } = some l at hl
  simp only [step_memWrite h, hostWrite, hl, hgo, writeLocation_turn, Bool.false_eq_true, if_false, State.answer]

theorem step_write_dropped (h : s.agenda = .memWrite a n v :: rest) (hl : reaches a n s = some l)
    (hb : s.status.busy = true) (hw : writableWhileBusy l = false) :
    step s = .next { s with irqStatus := s.irqStatus ||| 4#3, agenda := rest, reply := some ⟨.okay, none⟩ } := by
  change reaches a n { s with agenda := rest } = some l at hl
  simp only [step_memWrite h, hostWrite, hl, hb, hw, Bool.not_false, Bool.and_true, if_true]
  rfl

end

/-! ### What an access changes -/

/-- Settles O41: such an access reaches no location. -/
theorem refusedAccessChangesNothing : Obligations.RefusedAccessChangesNothing := by
  intro s a n rest hrefused
  have hl : reaches a n s = none := reaches_eq_none.2 hrefused
  exact ⟨fun h => step_read_refused h hl, fun v h => step_write_refused h hl⟩

/-- Settles O42: the location reached is one of the two interrupt registers exactly at their two addresses. -/
theorem writesWhileBusyAreDropped : Obligations.WritesWhileBusyAreDropped := by
  intro s a v rest hbusy hagenda halign hmapped
  obtain ⟨l, hl⟩ := Option.ne_none_iff_exists'.1 hmapped
  have hreach : reaches a 4 s = some l := reaches_eq_some.2 ⟨rfl, halign, hl⟩
  refine ⟨fun henable hstatus => step_write_dropped hagenda hreach hbusy ?_, ?_, ?_⟩
  · refine Bool.eq_false_iff.2 fun hw => ?_
    rcases writableWhileBusy_iff.1 hw with rfl | rfl
    · exact henable (locate_eq_reg hl)
    · exact hstatus (locate_eq_reg hl)
  · rintro rfl
    exact step_write hagenda (reaches_regAddr .irqEnable s) (.inr rfl)
  · rintro rfl
    exact step_write hagenda (reaches_regAddr .irqStatus s) (.inr rfl)

/-- The registers of R72 are those a read reaches while a command runs. -/
theorem readableWhileBusy_iff {l : Location} : readableWhileBusy l = true ↔ ∃ r ∈ controlRegs, l = .reg r := by
  cases l with
  | reg r => cases r <;> simp [readableWhileBusy, controlRegs]
  | _ => simp [readableWhileBusy]

theorem controlTable_eq (s : State) : controlTable s = controlRegs.map fun r => (regAddr r, readReg r s) := rfl

/-- Settles O43: a read while BUSY = 1 gives the location's word exactly for the registers of R72. -/
theorem readsWhileBusy : Obligations.ReadsWhileBusy := by
  intro s rest hbusy
  refine ⟨fun q hq hagenda => ?_, fun a l hagenda halign hl => ?_⟩
  · rw [controlTable_eq] at hq
    obtain ⟨r, hr, rfl⟩ := List.mem_map.1 hq
    exact step_read hagenda (reaches_regAddr r s) (.inr (readableWhileBusy_iff.2 ⟨r, hr, rfl⟩))
  · have hreach : reaches a 4 s = some l := reaches_eq_some.2 ⟨rfl, halign, hl⟩
    refine ⟨?_, fun hother => step_read_unspecified hagenda hreach hbusy (Bool.eq_false_iff.2 fun hread => ?_)⟩
    · rintro r hr rfl
      exact step_read hagenda hreach (.inr (readableWhileBusy_iff.2 ⟨r, hr, rfl⟩))
    · obtain ⟨r, hr, he⟩ := readableWhileBusy_iff.1 hread
      exact hother r hr he

/-- While no command runs the answer to a read depends on neither the turns to come, the last answer nor the draws. -/
theorem hostRead_reply_turn (a : Addr) (n : Nat) {s : State} (hb : s.status.busy = false) (rest : List Event)
    (reply : Option Reply) (draws : Nat) :
    (hostRead a n { s with agenda := rest, reply := reply, draws := draws }).reply = (hostRead a n s).reply := by
  have hreach : reaches a n { s with agenda := rest, reply := reply, draws := draws } = reaches a n s := rfl
  cases hl : reaches a n s with
  | none => simp only [hostRead, hreach, hl, State.answer_reply]
  | some l =>
    simp only [hostRead, hreach, hl, hb, Bool.false_and, Bool.false_eq_true, if_false, State.answer_reply,
      readLocation_turn]

/-- Settles O44: the second read sees the first one's state, apart from what its answer does not depend on. -/
theorem readsHaveNoSideEffect : Obligations.ReadsHaveNoSideEffect := by
  intro s t a n rest hagenda h
  cases (step_memRead hagenda).symm.trans h
  have hframe := hostRead_frame a n { s with agenda := rest }
  refine ⟨hframe, ?_⟩
  rintro hidle rest' u rfl hu
  rw [hframe] at hu
  cases (step_memRead rfl).symm.trans hu
  exact (hostRead_reply_turn a n hidle _ _ _).trans (hostRead_reply_turn a n hidle _ s.reply s.draws).symm

/-- The locations R67 makes read-only. -/
def Location.ReadOnly (l : Location) : Prop :=
  (∃ r ∈ readOnlyRegs, l = .reg r) ∨ (∃ k, l = .freq k) ∨ (∃ k, l = .out k) ∨ (∃ k, l = .eflag k)

/-- A write of a read-only location stores nothing, and none of them takes a write while a command runs (R67, R71). -/
theorem Location.ReadOnly.write_ignored {l : Location} (h : l.ReadOnly) (v : Word) (s : State) :
    writeLocation l v s = s ∧ writableWhileBusy l = false := by
  rcases h with ⟨r, hr, rfl⟩ | ⟨k, rfl⟩ | ⟨k, rfl⟩ | ⟨k, rfl⟩
  · simp only [readOnlyRegs, List.mem_cons, List.not_mem_nil, or_false] at hr
    rcases hr with rfl | rfl | rfl | rfl | rfl | rfl | rfl | rfl | rfl <;> exact ⟨rfl, rfl⟩
  all_goals exact ⟨rfl, rfl⟩

/-- Settles O45: while idle the write stores nothing, while busy it is dropped. -/
theorem readOnlyWritesAreIgnored : Obligations.ReadOnlyWritesAreIgnored := by
  intro s a v l rest hagenda halign hl hreadOnly
  have hreach : reaches a 4 s = some l := reaches_eq_some.2 ⟨rfl, halign, hl⟩
  obtain ⟨hsame, hdrop⟩ := Location.ReadOnly.write_ignored hreadOnly v s
  refine ⟨fun hidle => ?_, fun hbusy => step_write_dropped hagenda hreach hbusy hdrop⟩
  rw [step_write hagenda hreach (.inl hidle), hsame]

/-! ### The windows of FREQ_BUF and CT -/

/-- Settles O52: the word at the element's address is the element. -/
theorem frequencyWindow : Obligations.FrequencyWindow :=
  fun s _ _ hidle hk hagenda => step_read hagenda (reaches_freq s hk) (.inl hidle)

/-- LEN of an entry after the LEN word of an entry is written (R83). -/
theorem codeLen_setCtLen (b : Buffers) (x y : Symbol) (v : Word) :
    codeLen { b with ctLen := b.ctLen.set x.toNat (v.setWidth 8) } y =
      if y = x then v.toNat % 256 else codeLen b y := by
  simp only [codeLen, Memory.get_set, ← BitVec.toNat_inj]
  split_ifs
  · exact BitVec.toNat_setWidth 8 v
  · rfl

/-- A bit of BITS after BITS word k of an entry is written (R83). -/
theorem codeBit_setCtBits (b : Buffers) (x y : Symbol) {k j : Nat} (hk : k < 8) (hj : j < 256) (v : Word) :
    Buffers.codeBit { b with ctBits := b.ctBits.set (8 * x.toNat + k) v } y j =
      if y = x ∧ j / 32 = k then v.getLsbD (j % 32) else b.codeBit y j := by
  have hword : 8 * y.toNat + j / 32 = 8 * x.toNat + k ↔ y = x ∧ j / 32 = k := by
    rw [← BitVec.toNat_inj]
    omega
  simp only [Buffers.codeBit, Memory.get_set, hword]
  split_ifs <;> rfl

/-- Settles O48: the words of an entry are its LEN and the eight words of its BITS. -/
theorem codeTableWindow : Obligations.CodeTableWindow := by
  intro s x rest hidle _
  refine ⟨fun o => locate_ctGap s.params x.isLt, fun hagenda => ?_, fun k hk hagenda => ?_, fun v hagenda => ?_,
    fun k hk v hagenda => ?_⟩
  · rw [step_read hagenda (reaches_ctLen s x) (.inl hidle), codeLen, BitVec.ofNat_toNat, readLocation]
  · refine ⟨_, step_read hagenda (reaches_ctBits s x hk) (.inl hidle), fun j hj => ?_⟩
    rw [readLocation, Buffers.codeBit, show (32 * k + j) / 32 = k by omega, show (32 * k + j) % 32 = j by omega]
  · refine ⟨_, step_write hagenda (reaches_ctLen s x) (.inl hidle), ?_, fun y hy => ?_, rfl⟩
    · exact (codeLen_setCtLen s.bufs x x v).trans (if_pos rfl)
    · exact (codeLen_setCtLen s.bufs x y v).trans (if_neg hy)
  · refine ⟨_, step_write hagenda (reaches_ctBits s x hk) (.inl hidle), fun j hj => ?_, fun y j hj hne => ?_, rfl⟩
    · refine (codeBit_setCtBits s.bufs x x hk (by omega) v).trans ?_
      rw [if_pos ⟨rfl, by omega⟩, show (32 * k + j) % 32 = j by omega]
    · exact (codeBit_setCtBits s.bufs x y hk hj v).trans (if_neg (by tauto))

/-! ### The windows of symbols, bits and codewords -/

/-- Settles O49: byte i mod 4 of the word at the element's address is the element. -/
theorem symbolWindows : Obligations.SymbolWindows := by
  intro s i rest hidle hp
  refine ⟨fun hi hagenda => ?_, fun hi hagenda => ?_, fun v hi hagenda => ?_⟩
  · exact ⟨_, step_read hagenda (reaches_sym hp hi) (.inl hidle), symbolWord_byte s.bufs.symBuf i⟩
  · exact ⟨_, step_read hagenda (reaches_out hp hi) (.inl hidle), symbolWord_byte s.bufs.outBuf i⟩
  · exact ⟨_, step_write hagenda (reaches_sym hp hi) (.inl hidle), fun j => setSymbolWord_get s.bufs.symBuf _ j v, rfl⟩

theorem bitWord_element (m : Memory Bool) (i : Nat) : (bitWord m (i / 32)).getLsbD (i % 32) = m.get i := by
  rw [bitWord_getLsbD m _ _ (Nat.mod_lt i (by decide)), Nat.div_add_mod]

/-- Settles O50: bit i mod 32 of the word at the element's address is the element. -/
theorem bitWindows : Obligations.BitWindows := by
  intro s i rest hidle hp
  refine ⟨fun hi hagenda => ?_, fun hi hagenda => ?_, fun hi hagenda => ?_, fun v hi hagenda => ?_,
    fun v hi hagenda => ?_⟩
  · exact ⟨_, step_read hagenda (reaches_huf hp hi) (.inl hidle), bitWord_element s.bufs.hufBuf i⟩
  · exact ⟨_, step_read hagenda (reaches_dat hp hi) (.inl hidle), bitWord_element s.bufs.datBuf i⟩
  · exact ⟨_, step_read hagenda (reaches_eflag hp hi) (.inl hidle), bitWord_element s.bufs.eflagBuf i⟩
  · exact ⟨_, step_write hagenda (reaches_huf hp hi) (.inl hidle), fun j => setBitWord_get s.bufs.hufBuf _ j v,
      by simp only [writeLocation]⟩
  · exact ⟨_, step_write hagenda (reaches_dat hp hi) (.inl hidle), fun j => setBitWord_get s.bufs.datBuf _ j v,
      by simp only [writeLocation]⟩

/-- A codeword in its word: bits [6:0] of its byte, whose bit 7 is 0 (R70, R80). -/
theorem codewordWord_element (m : Memory Codeword) (i : Nat) :
    (codewordWord m (i / 4)).extractLsb' (8 * (i % 4)) 7 = m.get i ∧
      (codewordWord m (i / 4)).getLsbD (8 * (i % 4) + 7) = false := by
  have hbyte := codewordWord_byte m i
  have hbit (j : Nat) (hj : j < 8) :
      (codewordWord m (i / 4)).getLsbD (8 * (i % 4) + j) = (codewordByte (m.get i)).getLsbD j := by
    rw [← hbyte]
    simp [hj]
  refine ⟨BitVec.eq_of_getLsbD_eq fun j hj => ?_, (hbit 7 (by decide)).trans ?_⟩
  · rw [BitVec.getLsbD_extractLsb', hbit j (by omega), codewordByte, BitVec.getLsbD_append]
    simp [hj]
  · rw [codewordByte, BitVec.getLsbD_append]
    simp

theorem setCodewordWord_element (m : Memory Codeword) (k j : Nat) (v : Word) :
    (setCodewordWord m k v).get j = if j / 4 = k then v.extractLsb' (8 * (j % 4)) 7 else m.get j := by
  rw [setCodewordWord_get, codewordByte_setWidth]

/-- Settles O51: bits [6:0] of byte i mod 4 of the word at the element's address are the element. -/
theorem codewordWindows : Obligations.CodewordWindows := by
  intro s i rest hidle hp hi
  refine ⟨fun hagenda => ?_, fun hagenda => ?_, fun v hagenda => ?_, fun v hagenda => ?_⟩
  · exact ⟨_, step_read hagenda (reaches_cw hp hi) (.inl hidle), codewordWord_element s.bufs.cwBuf i⟩
  · exact ⟨_, step_read hagenda (reaches_rx hp hi) (.inl hidle), codewordWord_element s.bufs.rxBuf i⟩
  · exact ⟨_, step_write hagenda (reaches_cw hp hi) (.inl hidle), fun j => setCodewordWord_element s.bufs.cwBuf _ j v,
      rfl⟩
  · exact ⟨_, step_write hagenda (reaches_rx hp hi) (.inl hidle), fun j => setCodewordWord_element s.bufs.rxBuf _ j v,
      rfl⟩

end Sys2Proof.Machine
end

section
/-! SUPPORT. The command word (30_encoding.md R87 to R90): the legal words are the eight words of R88. -/

namespace Sys2Proof.Machine

/-! ### Legal words -/

/-- The fields of R89 in plain arithmetic. -/
theorem legalWord_iff_arithmetic (w : Word) :
    legalWord w = true ↔
      w.toNat % 16 ≤ 6 ∧ w.toNat / 16 % 16 = 0 ∧ w.toNat / 512 = 0 ∧
        (w.toNat / 256 % 2 = 0 ∨ w.toNat % 16 = 3) := by
  have hw := w.isLt
  have hsrc : w.getLsbD 8 = false ↔ w.toNat / 256 % 2 = 0 := by
    simp [BitVec.getLsbD, Nat.testBit_eq_decide_div_mod_eq]
  simp only [legalWord, Bool.and_eq_true, Bool.or_eq_true, beq_iff_eq, decide_eq_true_eq, hsrc, ← BitVec.toNat_inj,
    BitVec.extractLsb'_toNat, BitVec.toNat_ofNat, Nat.shiftRight_eq_div_pow]
  omega

/-- An opcode of R88 with a SRC bit it allows is some command's. -/
theorem exists_decodeOp_eq_ok {n : Nat} {b : Bool} (hn : n ≤ 6) (hb : b = false ∨ n = 3) :
    ∃ i, decodeOp n b = .ok i := by
  rcases hb with rfl | rfl
  · interval_cases n <;> exact ⟨_, rfl⟩
  · cases b <;> exact ⟨_, rfl⟩

theorem exists_decode_eq_ok_of_legalWord {w : Word} (h : legalWord w = true) : ∃ i, decode w = .ok i := by
  simp only [legalWord, Bool.and_eq_true, Bool.or_eq_true, beq_iff_eq, decide_eq_true_eq] at h
  obtain ⟨⟨⟨hop, hlow⟩, hhigh⟩, hsrc⟩ := h
  obtain ⟨i, hi⟩ := exists_decodeOp_eq_ok hop (hsrc.imp_right (congrArg BitVec.toNat))
  have hzero : reservedFieldsZero w = true := by simp [reservedFieldsZero, hlow, hhigh]
  have hdefined : ¬ 7 ≤ (opField w).toNat := Nat.not_le.2 (Nat.lt_succ_of_le hop)
  exact ⟨i, by rwa [decode, if_neg hdefined, if_pos hzero]⟩

theorem decode_eq_ok_iff {w : Word} {i : Instr} : decode w = .ok i ↔ w = encode i :=
  ⟨eq_encode_of_decode, fun h => h ▸ decode_encode i⟩

theorem legalWord_encode (i : Instr) : legalWord (encode i) = true := by cases i <;> rfl

theorem legalWord_iff_exists_encode (w : Word) : legalWord w = true ↔ ∃ i, w = encode i := by
  refine ⟨fun h => ?_, fun ⟨i, hi⟩ => hi ▸ legalWord_encode i⟩
  obtain ⟨i, hi⟩ := exists_decode_eq_ok_of_legalWord h
  exact ⟨i, eq_encode_of_decode hi⟩

/-- The command in CMD being illegal, the engine's step is the BAD_COMMAND completion (R89, R149). -/
theorem runCommand_of_illegal {s : State} (h : legalWord s.cmd = false) :
    runCommand s = .next (s.complete (some .badCommand)) := by
  cases hd : decode s.cmd with
  | ok i => simp [(legalWord_iff_exists_encode s.cmd).2 ⟨i, eq_encode_of_decode hd⟩] at h
  | error e => simp only [runCommand, hd, badCommand, finish_eq, CommandResult.completed_error]

/-- Settles O3: a legal word decodes, only the word of a command decodes to it, and the engine completes every other
word with BAD_COMMAND. -/
theorem legalWordsAreTheEightWords : Obligations.LegalWordsAreTheEightWords :=
  ⟨legalWord_iff_arithmetic, legalWord_iff_exists_encode, fun _ _ => decode_eq_ok_iff, fun w s h =>
    ⟨_, (step_launch w s).trans (runCommand_of_illegal h), completedUnchanged_complete _ _⟩⟩

/-! ### Decoding -/

/-- Settles O2: the fields `decode` reads are the ones `encode` places, for each of the eight commands. -/
theorem decodeOfEncode : Obligations.DecodeOfEncode := decode_encode

/-- Settles O1: the first eight words are the encodings of the commands; each of the others is read off its fields. -/
theorem tableWordsDecode : Obligations.TableWordsDecode :=
  ⟨decode_encode .nop, decode_encode .buildCodes, decode_encode .hufEncode, decode_encode .decompressSrc0,
    decode_encode .decompressSrc1, decode_encode .hamEncode, decode_encode .injectNoise, decode_encode .hamDecode,
    rfl, rfl, rfl, rfl⟩

end Sys2Proof.Machine
end

section
/-! SUPPORT. Host programs (30_encoding.md R96 to R99): what the turns of a program do whatever is listed after them, a
rule for each statement, and RUN. -/

namespace Sys2Proof.Machine

/-! ### The turns to come and the last answer -/

/-- `s` with `rest` still to come and `reply` given last (log 5, log 7). -/
def State.onTurn (s : State) (rest : List Event) (reply : Option Reply) : State :=
  { s with agenda := rest, reply := reply }

theorem writeLocation_onTurn (l : Location) (v : Word) (s : State) (rest : List Event) (reply : Option Reply) :
    writeLocation l v (s.onTurn rest reply) = (writeLocation l v s).onTurn rest reply := by
  cases l with
  | reg r => cases r <;> rfl
  | _ => rfl

theorem readLocation_onTurn (l : Location) (s : State) (rest : List Event) (reply : Option Reply) :
    readLocation l (s.onTurn rest reply) = readLocation l s := readLocation_turn l s rest reply s.draws

section
variable (s : State) (rest : List Event) (reply : Option Reply)

theorem buildCodes_onTurn :
    (buildCodes (s.onTurn rest reply)).completed = (buildCodes s).completed.onTurn rest reply := by
  by_cases hcap : s.params.textCap < s.regs.symLen.toNat <;> by_cases hempty : s.regs.symLen.toNat = 0 <;>
    simp only [buildCodes, State.onTurn, hcap, hempty, if_true, if_false] <;> rfl

theorem hufEncode_onTurn :
    (hufEncode (s.onTurn rest reply)).completed = (hufEncode s).completed.onTurn rest reply := by
  by_cases hcap : s.params.textCap < s.regs.symLen.toNat
  · simp only [hufEncode, State.onTurn, hcap, if_true]; rfl
  · have htext : (s.onTurn rest reply).text = s.text := rfl
    simp only [hufEncode, htext]
    cases hstream : encodeStream s.params.bitCap s.bufs.codeTable s.text <;>
      simp only [State.onTurn, hcap, hstream, if_false] <;> rfl

theorem decompress_onTurn (len : Word) (bits : Bits) :
    (decompress len bits (s.onTurn rest reply)).completed = (decompress len bits s).completed.onTurn rest reply := by
  by_cases hcap : s.params.bitCap < len.toNat
  · simp only [decompress, State.onTurn, hcap, if_true]; rfl
  · by_cases hfree : prefixFree s.bufs.codeTable = true
    · cases hstream : decodeStream s.params.outCap s.bufs.codeTable bits <;>
        simp only [decompress, State.onTurn, hcap, hfree, hstream, if_true, if_false] <;> rfl
    · simp only [decompress, State.onTurn, hcap, hfree, if_false]; rfl

theorem hamEncode_onTurn :
    (hamEncode (s.onTurn rest reply)).completed = (hamEncode s).completed.onTurn rest reply := by
  by_cases hcap : s.params.bitCap < s.regs.hufLen.toNat <;>
    simp only [hamEncode, State.onTurn, hcap, if_true, if_false] <;> rfl

theorem injectNoise_onTurn :
    (injectNoise (s.onTurn rest reply)).completed = (injectNoise s).completed.onTurn rest reply := by
  by_cases hcap : s.params.blkCap < s.regs.cwCnt.toNat <;>
    by_cases hcount : 7 * s.regs.cwCnt.toNat < s.regs.noiseCnt.toNat <;>
    simp only [injectNoise, State.onTurn, hcap, hcount, if_true, if_false] <;> rfl

theorem hamDecode_onTurn :
    (hamDecode (s.onTurn rest reply)).completed = (hamDecode s).completed.onTurn rest reply := by
  by_cases hcap : s.params.blkCap < s.regs.rxCnt.toNat <;>
    simp only [hamDecode, State.onTurn, hcap, if_true, if_false] <;> rfl

/-- No command reads the turns to come or the last answer, or changes them. -/
theorem resultOf_onTurn (i : Instr) :
    (resultOf i (s.onTurn rest reply)).completed = (resultOf i s).completed.onTurn rest reply := by
  cases i with
  | nop => rfl
  | buildCodes => exact buildCodes_onTurn s rest reply
  | hufEncode => exact hufEncode_onTurn s rest reply
  | decompressSrc0 => exact decompress_onTurn s rest reply s.regs.hufLen s.hufBits
  | decompressSrc1 => exact decompress_onTurn s rest reply s.regs.datLen s.datBits
  | hamEncode => exact hamEncode_onTurn s rest reply
  | injectNoise => exact injectNoise_onTurn s rest reply
  | hamDecode => exact hamDecode_onTurn s rest reply

end

theorem engineTurn_onTurn {s t : State} (h : engineTurn s = .next t) (rest : List Event) (reply : Option Reply) :
    engineTurn (s.onTurn rest reply) = .next (t.onTurn rest reply) := by
  change (if s.status.busy then runCommand (s.onTurn rest reply) else _) = _
  rcases engineTurn_cases s with ⟨hb, hr⟩ | ⟨hb, i, hd, hr⟩ | ⟨hb, ⟨e, hd⟩, hr⟩
  · cases hr.symm.trans h
    rw [hb]; rfl
  · cases (hr.trans (exec_eq i s)).symm.trans h
    rw [if_pos hb, runCommand_of_decode (s := s.onTurn rest reply) hd, exec_eq, resultOf_onTurn]
  · cases hr.symm.trans h
    change decode (s.onTurn rest reply).cmd = _ at hd
    rw [if_pos hb, runCommand, hd]
    rfl

/-! ### Programs -/

theorem run_add {m : Nat} {s t : State} (n : Nat) (h : core.run m s = .next t) :
    core.run (m + n) s = core.run n t := by
  induction m generalizing s with
  | zero => cases h; rw [Nat.zero_add]
  | succ m ih =>
    rw [Nat.add_right_comm]
    simp only [Host.Core.run] at h ⊢
    cases hs : core.step s with
    | next u => rw [hs] at h; exact ih h
    | fault r => rw [hs] at h; cases h
    | refused r => rw [hs] at h; cases h

/-- The turns `p`, whatever is listed after them, take the block from `s`, where `r` was answered last, to `t`, where
`r'` was. -/
def RunsTo (p : List Event) (s : State) (r : Option Reply) (t : State) (r' : Option Reply) : Prop :=
  ∀ rest, core.run p.length (s.onTurn (p ++ rest) r) = .next (t.onTurn rest r')

namespace RunsTo
variable {p q : List Event} {s t u : State} {r r' r'' : Option Reply}

/-- What a program listed in the state does. -/
theorem run (h : RunsTo p s s.reply t r') {rest : List Event} (ha : s.agenda = p ++ rest) :
    core.run p.length s = .next (t.onTurn rest r') := by
  rw [← h rest, ← ha]; rfl

theorem nil (s : State) (r : Option Reply) : RunsTo [] s r s r := fun _ => rfl

theorem append (hp : RunsTo p s r t r') (hq : RunsTo q t r' u r'') : RunsTo (p ++ q) s r u r'' := by
  intro rest
  rw [List.length_append, List.append_assoc, run_add _ (hp (q ++ rest)), hq rest]

theorem of_step {e : Event} (h : ∀ rest, step (s.onTurn (e :: rest) r) = .next (t.onTurn rest r')) :
    RunsTo [e] s r t r' := by
  intro rest
  simp only [List.length_singleton, Host.Core.run, core, List.singleton_append, h rest]

/-- The engine's turn. -/
theorem complete (h : engineTurn s = .next t) : RunsTo [.complete] s r t r :=
  of_step fun rest => (step_engineNext (.inl rfl)).trans (engineTurn_onTurn h rest r)

/-- `RD a` (R96). -/
theorem rd {a : Addr} {l : Location} (hl : reaches a 4 s = some l)
    (hb : s.status.busy = false ∨ readableWhileBusy l = true) :
    RunsTo (progRd a) s r s (some ⟨.okay, some (readLocation l s)⟩) :=
  of_step fun rest => by
    rw [step_read (s := s.onTurn _ r) rfl hl hb, readLocation_onTurn]; rfl

/-- `WR a, v` while no command runs (R96). -/
theorem wr {a : Addr} {l : Location} {v : Word} (hl : reaches a 4 s = some l) (hb : s.status.busy = false) :
    RunsTo (progWr a v) s r (writeLocation l v s) (some ⟨.okay, none⟩) :=
  of_step fun rest => by
    rw [step_write (s := s.onTurn _ r) rfl hl (.inl hb), writeLocation_onTurn]; rfl

/-! ### POLL and RUN -/

/-- `POLL` (R97): the reads before the engine's turn change nothing, the one after it sees the STATUS it leaves. -/
theorem poll (n : Nat) (h : engineTurn s = .next t) :
    RunsTo (progPoll n) s r t (some ⟨.okay, some t.status.word⟩) := by
  have hread (s : State) (r : Option Reply) := rd (r := r) (reaches_regAddr .status s) (.inr rfl)
  induction n generalizing r with
  | zero => exact (complete h).append (hread t r)
  | succ n ih => exact (hread s r).append ih

end RunsTo

theorem engineTurn_of_idle {s : State} (h : s.status.busy = false) : engineTurn s = .next s := by
  rw [engineTurn, h]; rfl

/-- The engine's turn after `CMD i` is accepted (R100, R102). -/
theorem engineTurn_accept (i : Instr) (s : State) :
    engineTurn (s.accept (encode i)) = .next (resultOf i (s.accept (encode i))).completed := by
  rw [engineTurn_of_busy rfl, runCommand_of_decode (decode_encode i), exec_eq]

/-- Settles O53: the first POLL leaves the block idle, so CMD is accepted, and the second takes its completion. -/
theorem runEndsWithTheOutcome : Obligations.RunEndsWithTheOutcome := by
  intro s i n k rest hidle hagenda
  have hrun : RunsTo (progRun n k i) s s.reply _ _ :=
    ((RunsTo.poll n (engineTurn_of_idle hidle)).append (.wr (reaches_regAddr .cmd s) hidle)).append
      (.poll k (engineTurn_accept i s))
  obtain ⟨e, hdone⟩ := (CommandEffect.resultOf i (s.accept (encode i))).completed
  have hexec := exec_eq i ((s.accept (encode i)).onTurn rest s.reply)
  rw [resultOf_onTurn] at hexec
  exact ⟨_, hexec, hdone.busy, hrun.run hagenda⟩

end Sys2Proof.Machine
end

section
/-! SUPPORT. TEXT and BITS (30_encoding.md R99): word writes of a window from its base on, then the length register. -/

namespace Sys2Proof.Machine

/-! ### Words stored in order -/

section
variable {α : Type} [Inhabited α] {store : Memory α → Nat → Word → Memory α} {w : Nat → Word} {c : Nat}
  {elem : Word → Nat → α}

/-- Words 0 to n − 1 of a window stored in order. -/
def Memory.storeWords (store : Memory α → Nat → Word → Memory α) (w : Nat → Word) : Nat → Memory α → Memory α
  | 0, m => m
  | n + 1, m => store (m.storeWords store w n) n (w n)

variable (hstore : ∀ m k j v, (store m k v).get j = if j / c = k then elem v (j % c) else m.get j)
include hstore

theorem Memory.get_storeWords (n j : Nat) (m : Memory α) :
    (m.storeWords store w n).get j = if j / c < n then elem (w (j / c)) (j % c) else m.get j := by
  induction n with
  | zero => rw [storeWords, if_neg (Nat.not_lt_zero _)]
  | succ n ih =>
    rw [storeWords, hstore, ih]
    by_cases hlast : j / c = n
    · simp [hlast]
    · simp [hlast, show j / c < n + 1 ↔ j / c < n by omega]

/-- Words of `c` elements that hold a list, padded with `d`, store it from element 0 on and touch no later word. -/
theorem Memory.storeWords_of_list {xs : List α} {d : α} {n : Nat} (m : Memory α) (hc : 0 < c) (hn : xs.length ≤ c * n)
    (hw : ∀ k i, i < c → elem (w k) i = xs.getD (c * k + i) d) :
    (m.storeWords store w n).getSeq 0 xs.length = xs ∧
      (∀ j < c * n, (m.storeWords store w n).get j = xs.getD j d) ∧
      ∀ j, c * n ≤ j → (m.storeWords store w n).get j = m.get j := by
  rw [Nat.mul_comm c n] at hn ⊢
  have hin (j : Nat) (hj : j < n * c) : (m.storeWords store w n).get j = xs.getD j d := by
    rw [get_storeWords hstore, if_pos ((Nat.div_lt_iff_lt_mul hc).2 hj), hw _ _ (Nat.mod_lt j hc), Nat.div_add_mod]
  refine ⟨List.ext_getElem (getSeq_length _ _ _) fun j _ hj => ?_, hin, fun j hj => ?_⟩
  · rw [getElem_getSeq, Nat.zero_add, hin j (by omega), List.getD_eq_getElem _ _ hj]
  · rw [get_storeWords hstore, if_neg (Nat.not_lt.2 ((Nat.le_div_iff_mul_le hc).2 hj))]

end

/-- Word `k` of `TEXT` (R99). -/
def textWord (text : List Symbol) (k : Nat) : Word :=
  packBytes (textByte text (4 * k)) (textByte text (4 * k + 1)) (textByte text (4 * k + 2)) (textByte text (4 * k + 3))

/-- Word `k` of `BITS` (R99). -/
def bitsWord (bits : Bits) (k : Nat) : Word := packBits ((bits.drop (32 * k)).take 32)

theorem textWord_byte (text : List Symbol) (k : Nat) {i : Nat} (hi : i < 4) :
    (textWord text k).extractLsb' (8 * i) 8 = text.getD (4 * k + i) 0#8 :=
  byteOf_packBytes (fun i => textByte text (4 * k + i)) hi

theorem bitsWord_getLsbD (bits : Bits) (k : Nat) {i : Nat} (hi : i < 32) :
    (bitsWord bits k).getLsbD i = bits.getD (32 * k + i) false := by
  rw [bitsWord, packBits_getLsbD _ _ (List.length_take_le _ _), List.getD_eq_getElem?_getD, List.getElem?_take_of_lt hi,
    List.getElem?_drop, List.getD_eq_getElem?_getD]

/-- A buffer of symbols after the word writes of `TEXT`. -/
def Memory.storeText (m : Memory Symbol) (text : List Symbol) : Memory Symbol :=
  m.storeWords setSymbolWord (textWord text) ((text.length + 3) / 4)

/-- A buffer of bits after the word writes of `BITS`. -/
def Memory.storeBits (m : Memory Bool) (bits : Bits) : Memory Bool :=
  m.storeWords setBitWord (bitsWord bits) ((bits.length + 31) / 32)

theorem Memory.storeText_spec (m : Memory Symbol) (text : List Symbol) :
    (m.storeText text).getSeq 0 text.length = text ∧
      (∀ k < 4 * ((text.length + 3) / 4), (m.storeText text).get k = text.getD k 0#8) ∧
      ∀ k, 4 * ((text.length + 3) / 4) ≤ k → (m.storeText text).get k = m.get k :=
  storeWords_of_list (elem := fun v i => v.extractLsb' (8 * i) 8) setSymbolWord_get m (by decide) (by omega)
    fun k _ => textWord_byte text k

theorem Memory.storeBits_spec (m : Memory Bool) (bits : Bits) :
    (m.storeBits bits).getSeq 0 bits.length = bits ∧
      (∀ k < 32 * ((bits.length + 31) / 32), (m.storeBits bits).get k = bits.getD k false) ∧
      ∀ k, 32 * ((bits.length + 31) / 32) ≤ k → (m.storeBits bits).get k = m.get k :=
  storeWords_of_list (elem := BitVec.getLsbD) setBitWord_get m (by decide) (by omega)
    fun k _ => bitsWord_getLsbD bits k

/-! ### The program of a load -/

/-- Word writes of a window, then the write of a register: `put m` is the state in which the window's buffer is `m`,
and `store` what a write of a word does to it. -/
theorem RunsTo.load {α : Type} {put : Memory α → State} {store : Memory α → Nat → Word → Memory α}
    {loc : Nat → Location} {base n : Nat} (w : Nat → Word) (q : Reg) (v : Word) (m : Memory α) (r : Option Reply)
    (hidle : ∀ m, (put m).status.busy = false)
    (hreach : ∀ m, ∀ k < n, reaches (BitVec.ofNat 19 (base + 4 * k)) 4 (put m) = some (loc k))
    (hwrite : ∀ m k v, writeLocation (loc k) v (put m) = put (store m k v)) :
    RunsTo (((List.range n).flatMap fun k => progWr (BitVec.ofNat 19 (base + 4 * k)) (w k)) ++ progWr (regAddr q) v)
      (put m) r (writeReg q v (put (m.storeWords store w n))) (some ⟨.okay, none⟩) := by
  have hwords : ∃ r', RunsTo ((List.range n).flatMap fun k => progWr (BitVec.ofNat 19 (base + 4 * k)) (w k))
      (put m) r (put (m.storeWords store w n)) r' := by
    induction n with
    | zero => exact ⟨r, .nil _ r⟩
    | succ n ih =>
      obtain ⟨r', hfirst⟩ := ih fun m k hk => hreach m k (by omega)
      have hlast := wr (r := r') (v := w n) (hreach (m.storeWords store w n) n (by omega)) (hidle _)
      rw [hwrite] at hlast
      rw [List.range_succ, List.flatMap_append, List.flatMap_singleton]
      exact ⟨_, hfirst.append hlast⟩
  obtain ⟨r', hwords⟩ := hwords
  exact hwords.append (wr (reaches_regAddr q _) (hidle _))

/-! ### TEXT and BITS -/

/-- `s` with the contents `m` in SYM_BUF. -/
def State.withSymBuf (s : State) (m : Memory Symbol) : State := { s with bufs := { s.bufs with symBuf := m } }

/-- `s` with the contents `m` in HUF_BUF. -/
def State.withHufBuf (s : State) (m : Memory Bool) : State := { s with bufs := { s.bufs with hufBuf := m } }

/-- `s` with the contents `m` in DAT_BUF. -/
def State.withDatBuf (s : State) (m : Memory Bool) : State := { s with bufs := { s.bufs with datBuf := m } }

section
variable {s : State} {k : Nat} (hp : s.params.legal = true)
include hp

theorem reaches_symWord (hk : 4 * k < s.params.textCap) :
    reaches (BitVec.ofNat 19 (0x10000 + 4 * k)) 4 s = some (.sym k) := by
  simpa using reaches_sym hp hk

theorem reaches_hufWord (hk : 32 * k < s.params.bitCap) :
    reaches (BitVec.ofNat 19 (0x30000 + 4 * k)) 4 s = some (.huf k) := by
  simpa using reaches_huf hp hk

theorem reaches_datWord (hk : 32 * k < s.params.bitCap) :
    reaches (BitVec.ofNat 19 (0x40000 + 4 * k)) 4 s = some (.dat k) := by
  simpa using reaches_dat hp hk

end

section
variable {s : State} (hidle : s.status.busy = false) (hp : s.params.legal = true) (r : Option Reply)
include hidle hp

/-- `TEXT` (R99). -/
theorem RunsTo.text {text : List Symbol} (hfit : text.length ≤ s.params.textCap) :
    RunsTo (progText text) s r
      (writeReg .symLen (BitVec.ofNat 32 text.length) (s.withSymBuf (s.bufs.symBuf.storeText text)))
      (some ⟨.okay, none⟩) :=
  load (put := s.withSymBuf) (store := setSymbolWord) (textWord text) .symLen _ s.bufs.symBuf r (fun _ => hidle)
    (fun m k hk => reaches_symWord (s := s.withSymBuf m) hp (Nat.lt_of_lt_of_le (by omega) hfit)) fun _ _ _ => rfl

/-- `BITS HUF` (R99). -/
theorem RunsTo.bitsHuf {bits : Bits} (hfit : bits.length ≤ s.params.bitCap) :
    RunsTo (progBitsHuf bits) s r
      (writeReg .hufLen (BitVec.ofNat 32 bits.length) (s.withHufBuf (s.bufs.hufBuf.storeBits bits)))
      (some ⟨.okay, none⟩) :=
  load (put := s.withHufBuf) (store := setBitWord) (bitsWord bits) .hufLen _ s.bufs.hufBuf r (fun _ => hidle)
    (fun m k hk => reaches_hufWord (s := s.withHufBuf m) hp (Nat.lt_of_lt_of_le (by omega) hfit)) fun _ _ _ => rfl

/-- `BITS DAT` (R99). -/
theorem RunsTo.bitsDat {bits : Bits} (hfit : bits.length ≤ s.params.bitCap) :
    RunsTo (progBitsDat bits) s r
      (writeReg .datLen (BitVec.ofNat 32 bits.length) (s.withDatBuf (s.bufs.datBuf.storeBits bits)))
      (some ⟨.okay, none⟩) :=
  load (put := s.withDatBuf) (store := setBitWord) (bitsWord bits) .datLen _ s.bufs.datBuf r (fun _ => hidle)
    (fun m k hk => reaches_datWord (s := s.withDatBuf m) hp (Nat.lt_of_lt_of_le (by omega) hfit)) fun _ _ _ => rfl

end

/-- A length inside a legal capacity fits its register (R11). -/
theorem toNat_length_of_legal {p : Params} (hp : p.legal = true) {n : Nat} (hn : n ≤ p.bitCap) :
    (BitVec.ofNat 32 n).toNat = n := by
  have hcap := (Params.bounds_of_legal hp).1
  rw [Params.bitCap] at hn
  rw [BitVec.toNat_ofNat, Nat.mod_eq_of_lt (by omega)]

/-- Settles O54: the word writes of TEXT store its symbols four by four, none of them touching another word. -/
theorem textFillsSymBuf : Obligations.TextFillsSymBuf := by
  intro s text rest hidle hp hfit hagenda
  obtain ⟨hseq, hin, hout⟩ := s.bufs.symBuf.storeText_spec text
  have hlen := toNat_length_of_legal hp (n := text.length) (by rw [Params.bitCap]; omega)
  exact ⟨_, (RunsTo.text hidle hp s.reply hfit).run hagenda, (congrArg _ hlen).trans hseq, hlen, hin, hout, rfl⟩

/-- Settles O55: the word writes of BITS store its bits 32 by 32, none of them touching another word. -/
theorem bitsFillHufAndDat : Obligations.BitsFillHufAndDat := by
  intro s bits rest hidle hp hfit
  have hlen := toNat_length_of_legal hp hfit
  refine ⟨fun hagenda => ?_, fun hagenda => ?_⟩
  · obtain ⟨hseq, hin, hout⟩ := s.bufs.hufBuf.storeBits_spec bits
    exact ⟨_, (RunsTo.bitsHuf hidle hp s.reply hfit).run hagenda, (congrArg _ hlen).trans hseq, hlen, hin, hout, rfl⟩
  · obtain ⟨hseq, hin, hout⟩ := s.bufs.datBuf.storeBits_spec bits
    exact ⟨_, (RunsTo.bitsDat hidle hp s.reply hfit).run hagenda, (congrArg _ hlen).trans hseq, hlen, hin, hout, rfl⟩

end Sys2Proof.Machine
end

section
/-! SUPPORT. The command lifecycle (40_command.md R100 to R106; 30_encoding.md R91): a write of CMD, NOP, what a command
leaves unchanged, and what its outcome depends on. -/

namespace Sys2Proof.Machine

/-! ### What a command leaves unchanged -/

/-- From `s` to `t` only registers and buffers of the writes column of command `i` change (R91, R105). -/
structure WritesOutputsOnly (i : Instr) (s t : State) : Prop where
  symLen : t.regs.symLen = s.regs.symLen
  noiseCnt : t.regs.noiseCnt = s.regs.noiseCnt
  noiseSeed : t.regs.noiseSeed = s.regs.noiseSeed
  symBuf : t.bufs.symBuf = s.bufs.symBuf
  codes : i ≠ .buildCodes → t.bufs.freqBuf = s.bufs.freqBuf ∧ t.bufs.ctLen = s.bufs.ctLen ∧
    t.bufs.ctBits = s.bufs.ctBits ∧ t.regs.nSymbols = s.regs.nSymbols ∧ t.status.codesValid = s.status.codesValid
  huf : i ≠ .buildCodes → i ≠ .hufEncode → t.bufs.hufBuf = s.bufs.hufBuf ∧ t.regs.hufLen = s.regs.hufLen
  out : i ≠ .decompressSrc0 → i ≠ .decompressSrc1 → t.bufs.outBuf = s.bufs.outBuf ∧ t.regs.outLen = s.regs.outLen
  cw : i ≠ .hamEncode → t.bufs.cwBuf = s.bufs.cwBuf ∧ t.regs.cwCnt = s.regs.cwCnt
  rx : i ≠ .injectNoise → t.bufs.rxBuf = s.bufs.rxBuf ∧ t.regs.rxCnt = s.regs.rxCnt
  dat : i ≠ .hamDecode → t.bufs.datBuf = s.bufs.datBuf ∧ t.regs.datLen = s.regs.datLen ∧
    t.bufs.eflagBuf = s.bufs.eflagBuf ∧ t.regs.errCount = s.regs.errCount

namespace WritesOutputsOnly

/-- NOP, and a check-phase error (R106, R151). -/
theorem complete (i : Instr) (s : State) (e : Option ErrorCode) : WritesOutputsOnly i s (s.complete e) := by
  constructor <;> simp

theorem buildCodes (s : State) : WritesOutputsOnly .buildCodes s (buildCodes s).completed := by
  rcases buildCodes_cases s with ⟨-, hr⟩ | ⟨-, -, hr⟩ | ⟨-, -, hr⟩ <;> rw [hr]
  · exact complete _ s _
  · exact complete _ s _
  · constructor <;> simp [writeTable]

theorem hufEncode (s : State) : WritesOutputsOnly .hufEncode s (hufEncode s).completed := by
  rcases hufEncode_cases s with ⟨-, hr⟩ | ⟨-, e, -, hr⟩ | ⟨-, bits, -, hr⟩ <;> rw [hr]
  · exact complete _ s _
  · constructor <;> simp
  · constructor <;> simp

theorem decompress {i : Instr} (hi : i = .decompressSrc0 ∨ i = .decompressSrc1) (len : Word) (bits : Bits)
    (s : State) : WritesOutputsOnly i s (decompress len bits s).completed := by
  rcases decompress_cases len bits s with ⟨-, hr⟩ | ⟨-, -, hr⟩ | ⟨-, -, e, -, hr⟩ | ⟨-, -, text, -, hr⟩ <;> rw [hr]
  · exact complete i s _
  · exact complete i s _
  · rcases hi with rfl | rfl <;> constructor <;> simp
  · rcases hi with rfl | rfl <;> constructor <;> simp

theorem hamEncode (s : State) : WritesOutputsOnly .hamEncode s (hamEncode s).completed := by
  rcases hamEncode_cases s with ⟨-, hr⟩ | ⟨-, hr⟩ <;> rw [hr]
  · exact complete _ s _
  · constructor <;> simp

theorem injectNoise (s : State) : WritesOutputsOnly .injectNoise s (injectNoise s).completed := by
  rcases injectNoise_cases s with ⟨-, hr⟩ | ⟨-, -, hr⟩ | ⟨-, -, hr⟩ <;> rw [hr]
  · exact complete _ s _
  · exact complete _ s _
  · constructor <;> simp

theorem hamDecode (s : State) : WritesOutputsOnly .hamDecode s (hamDecode s).completed := by
  rcases hamDecode_cases s with ⟨-, hr⟩ | ⟨-, hr⟩ <;> rw [hr]
  · exact complete _ s _
  · constructor <;> simp

theorem resultOf (i : Instr) (s : State) : WritesOutputsOnly i s (resultOf i s).completed := by
  cases i with
  | nop => exact complete _ s none
  | buildCodes => exact buildCodes s
  | hufEncode => exact hufEncode s
  | decompressSrc0 => exact decompress (.inl rfl) _ _ s
  | decompressSrc1 => exact decompress (.inr rfl) _ _ s
  | hamEncode => exact hamEncode s
  | injectNoise => exact injectNoise s
  | hamDecode => exact hamDecode s

end WritesOutputsOnly

/-- Settles O9: each outcome of each command is the state it started from with outputs of its own written, completed. -/
theorem commandsWriteOnlyTheirOutputs : Obligations.CommandsWriteOnlyTheirOutputs := by
  intro i s t h
  cases (exec_eq i s).symm.trans h
  have hw := WritesOutputsOnly.resultOf i s
  exact ⟨(CommandEffect.resultOf i s).completed, hw.symLen, hw.noiseCnt, hw.noiseSeed, hw.symBuf, hw.codes, hw.huf,
    hw.out, hw.cw, hw.rx, hw.dat⟩

/-! ### What a sequence or a table read back depends on -/

/-- Inside a sequence just written an element does not depend on what the buffer held before. -/
theorem Memory.get_setSeq_congr {α : Type} [Inhabited α] (m m' : Memory α) {vs : List α} {k : Nat}
    (h : k < vs.length) : (m.setSeq 0 vs).get k = (m'.setSeq 0 vs).get k := by
  rw [Memory.get_setSeq_inside m (Nat.zero_le k) (by omega), Memory.get_setSeq_inside m' (Nat.zero_le k) (by omega)]

theorem Memory.getSeq_setSeq_congr {α : Type} [Inhabited α] (m m' : Memory α) {vs : List α} {n : Nat}
    (h : n ≤ vs.length) : (m.setSeq 0 vs).getSeq 0 n = (m'.setSeq 0 vs).getSeq 0 n :=
  Memory.getSeq_congr fun _ _ hk => Memory.get_setSeq_congr m m' (by omega)

theorem Memory.get_setAll_congr {α : Type} [Inhabited α] (m m' : Memory α) {n k : Nat} (f : Nat → α) (h : k < n) :
    (m.setAll n f).get k = (m'.setAll n f).get k := by
  rw [Memory.get_setAll, Memory.get_setAll, if_pos h, if_pos h]

/-- A length register holds at most the length written to it. -/
theorem toNat_ofNat_le (n : Nat) : (BitVec.ofNat 32 n).toNat ≤ n := by
  rw [BitVec.toNat_ofNat]
  exact Nat.mod_le n _

/-- A command sees of CT only the lengths and the codes (R51). -/
theorem Buffers.codeTable_eq_of_codes {b b' : Buffers} (hlen : ∀ x, codeLen b x = codeLen b' x)
    (hcode : ∀ x, b.code x = b'.code x) : b.codeTable = b'.codeTable := by
  have hget : ∀ k ∈ List.range alphabet, b.ctLen.get k = b'.ctLen.get k := fun k hk => by
    have hk' : (BitVec.ofNat 8 k).toNat = k := Nat.mod_eq_of_lt (List.mem_range.1 hk)
    have hk_len := hlen (BitVec.ofNat 8 k)
    rw [codeLen, codeLen, hk'] at hk_len
    exact BitVec.eq_of_toNat_eq hk_len
  refine List.filterMap_congr fun k hk => ?_
  rw [hget k hk, hcode]

/-- The codes of a text fit CT (R124), so what CT held before does not show in them. -/
theorem code_writeTable_codesOfText (text : List Symbol) (b : Buffers) (x : Symbol) :
    (writeTable (codesOfText text) b).code x = (codeOf (codesOfText text) x).getD [] := by
  refine code_writeTable _ b x ?_
  cases hc : codeOf (codesOfText text) x with
  | none => exact Nat.zero_le _
  | some c => exact (length_of_codeOf_codesOfText hc).2

theorem codeLen_writeTable (t : CodeTable) (b : Buffers) (x : Symbol) :
    codeLen (writeTable t b) x = (BitVec.ofNat 8 ((codeOf t x).getD []).length).toNat := by
  rw [codeLen, ctLen_writeTable]

/-! ### What an outcome depends on -/

/-- Two outcomes of command `i` have the same error code and, without one, the same results (R101). -/
def SameOutcome (i : Instr) (r r' : CommandResult) : Prop :=
  r.completed.status.errCode = r'.completed.status.errCode ∧
    (r.completed.status.errCode = none → SameResults i r.completed r'.completed)

theorem SameOutcome.error (i : Instr) (e : ErrorCode) (s s' : State) : SameOutcome i (.error e s) (.error e s') :=
  ⟨rfl, nofun⟩

theorem SameOutcome.success {i : Instr} {s s' : State} (h : SameResults i (s.complete none) (s'.complete none)) :
    SameOutcome i (.success s) (.success s') :=
  ⟨rfl, fun _ => h⟩

section
variable {s s' : State} (hp : s.params = s'.params)
include hp

theorem buildCodes_sameOutcome (hlen : s.regs.symLen = s'.regs.symLen) (htext : s.text = s'.text) :
    SameOutcome .buildCodes (buildCodes s) (buildCodes s') := by
  simp only [buildCodes, hp, hlen, htext]
  split_ifs
  · exact .error _ _ _ _
  · exact .error _ _ _ _
  · refine .success ⟨rfl, ?_, rfl, fun k hk => ?_, fun x => ?_, fun x => ?_⟩
    · exact Memory.getSeq_setSeq_congr _ _ (toNat_ofNat_le _)
    · exact Memory.get_setAll_congr _ _ _ hk
    · exact (codeLen_writeTable _ s.bufs x).trans (codeLen_writeTable _ s'.bufs x).symm
    · exact (code_writeTable_codesOfText _ s.bufs x).trans (code_writeTable_codesOfText _ s'.bufs x).symm

theorem hufEncode_sameOutcome (hlen : s.regs.symLen = s'.regs.symLen) (htext : s.text = s'.text)
    (htable : s.bufs.codeTable = s'.bufs.codeTable) : SameOutcome .hufEncode (hufEncode s) (hufEncode s') := by
  simp only [hufEncode, hp, hlen, htext, htable]
  split_ifs
  · exact .error _ _ _ _
  · cases encodeStream s'.params.bitCap s'.bufs.codeTable s'.text with
    | error e => exact .error _ _ _ _
    | ok bits => exact .success ⟨rfl, Memory.getSeq_setSeq_congr _ _ (toNat_ofNat_le _)⟩

/-- For either source: `SameResults` compares the same register and elements for both. -/
theorem decompress_sameOutcome (htable : s.bufs.codeTable = s'.bufs.codeTable) (len : Word) (bits : Bits) :
    SameOutcome .decompressSrc0 (decompress len bits s) (decompress len bits s') := by
  simp only [decompress, hp, htable]
  split_ifs
  · exact .error _ _ _ _
  · cases decodeStream s'.params.outCap s'.bufs.codeTable bits with
    | error e => exact .error _ _ _ _
    | ok text =>
      exact .success ⟨rfl, fun k hk => Memory.get_setSeq_congr _ _ (hk.trans_le (toNat_ofNat_le _))⟩
  · exact .error _ _ _ _

theorem hamEncode_sameOutcome (hlen : s.regs.hufLen = s'.regs.hufLen) (hbits : s.hufBits = s'.hufBits) :
    SameOutcome .hamEncode (hamEncode s) (hamEncode s') := by
  simp only [hamEncode, hp, hlen, hbits]
  split_ifs
  · exact .error _ _ _ _
  · exact .success ⟨rfl, Memory.getSeq_setSeq_congr _ _ (by simpa using toNat_ofNat_le _)⟩

theorem injectNoise_sameOutcome (hcnt : s.regs.cwCnt = s'.regs.cwCnt) (hwords : s.codewords = s'.codewords)
    (hcount : s.regs.noiseCnt = s'.regs.noiseCnt) (hseed : s.regs.noiseSeed = s'.regs.noiseSeed) :
    SameOutcome .injectNoise (injectNoise s) (injectNoise s') := by
  simp only [injectNoise, hp, hcnt, hwords, hcount, hseed]
  split_ifs
  · exact .error _ _ _ _
  · exact .error _ _ _ _
  · exact .success ⟨rfl, Memory.getSeq_setSeq_congr _ _
      ((foldl_flipFlat_length _ _).trans s'.codewords_length).ge⟩

theorem hamDecode_sameOutcome (hcnt : s.regs.rxCnt = s'.regs.rxCnt) (hwords : s.received = s'.received) :
    SameOutcome .hamDecode (hamDecode s) (hamDecode s') := by
  have hblocks : (s'.received.map hdec7).length = s'.regs.rxCnt.toNat := by
    rw [List.length_map, State.received_length]
  simp only [hamDecode, hp, hcnt, hwords]
  split_ifs
  · exact .error _ _ _ _
  · refine .success ⟨rfl, Memory.getSeq_setSeq_congr _ _ ?_, rfl, fun k hk => Memory.get_setSeq_congr _ _ ?_⟩
    · rw [flatMap_nibbleBits_length, hblocks]
      exact toNat_ofNat_le _
    · rw [List.length_map, hblocks]
      exact hk

end

theorem resultOf_sameOutcome {i : Instr} {s s' : State} (h : SameOperands i s s') :
    SameOutcome i (resultOf i s) (resultOf i s') := by
  obtain ⟨hp, h⟩ := h
  cases i with
  | nop => exact .success trivial
  | buildCodes =>
    obtain ⟨hlen, htext⟩ := h
    exact buildCodes_sameOutcome hp hlen htext
  | hufEncode =>
    obtain ⟨hlen, htext, hct, hcode⟩ := h
    exact hufEncode_sameOutcome hp hlen htext (Buffers.codeTable_eq_of_codes hct hcode)
  | decompressSrc0 =>
    obtain ⟨hlen, hbits, hct, hcode⟩ := h
    rw [resultOf, resultOf, hlen, hbits]
    exact decompress_sameOutcome hp (Buffers.codeTable_eq_of_codes hct hcode) _ _
  | decompressSrc1 =>
    obtain ⟨hlen, hbits, hct, hcode⟩ := h
    rw [resultOf, resultOf, hlen, hbits]
    exact decompress_sameOutcome hp (Buffers.codeTable_eq_of_codes hct hcode) _ _
  | hamEncode =>
    obtain ⟨hlen, hbits⟩ := h
    exact hamEncode_sameOutcome hp hlen hbits
  | injectNoise =>
    obtain ⟨hcnt, hwords, hcount, hseed⟩ := h
    exact injectNoise_sameOutcome hp hcnt hwords hcount hseed
  | hamDecode =>
    obtain ⟨hcnt, hwords⟩ := h
    exact hamDecode_sameOutcome hp hcnt hwords

/-- Settles O10: each command computes its error and the sequences it writes from its operands, and what is read back
lies inside the sequences written. -/
theorem outcomeDependsOnlyOnOperands : Obligations.OutcomeDependsOnlyOnOperands := by
  intro i s s' t t' _ hsame h h'
  cases (exec_eq i s).symm.trans h
  cases (exec_eq i s').symm.trans h'
  exact resultOf_sameOutcome hsame

/-! ### A write of CMD -/

/-- Settles O4: the address is CMD's, which takes a write only while BUSY = 0, and then by `State.accept`. -/
theorem commandWriteIsAcceptedOrDropped : Obligations.CommandWriteIsAcceptedOrDropped :=
  fun s _ _ hagenda => ⟨fun hidle => step_writeReg (r := .cmd) hidle hagenda,
    fun hbusy => step_write_dropped hagenda (reaches_regAddr .cmd s) hbusy rfl⟩

/-! ### NOP -/

theorem legalWord_eq_false_of_op_zero {w : Word} (hop : w.toNat % 16 = 0) (hw : w ≠ 0#32) : legalWord w = false := by
  refine Bool.eq_false_iff.2 fun hlegal => hw (BitVec.eq_of_toNat_eq ?_)
  obtain ⟨-, hlow, hhigh, hsrc⟩ := (legalWord_iff_arithmetic w).1 hlegal
  rw [BitVec.toNat_ofNat]
  omega

/-- STATUS after a completion without an error of a command with opcode 0 (R27, R102). -/
theorem State.complete_status_word {s : State} (hop : s.status.lastOp = 0#4) :
    (s.complete none).status.word = if s.status.codesValid then 0x0000000A#32 else 0x00000002#32 := by
  simp only [State.complete, hop]
  cases s.status.codesValid <;> rfl

/-- Settles O6: the meaning of NOP is a completion without writes. -/
theorem nopOnlyCompletes : Obligations.NopOnlyCompletes :=
  ⟨decode_encode .nop, fun _ => legalWord_eq_false_of_op_zero, fun s =>
    ⟨_, exec_eq .nop s, completedUnchanged_complete s none, State.complete_status_word⟩⟩

end Sys2Proof.Machine
end

section
/-! SUPPORT. The code table as the commands see it, and the streams coded with it (10_state.md R51; 41_huffman.md R115
to R121): the table check of R116, the outcomes of HUF_ENCODE and DECOMPRESS, and the statements on them. -/

namespace Sys2Proof.Machine

/-! ### The code table by lengths and codes -/

theorem codeLen_eq_zero {b : Buffers} {x : Symbol} : codeLen b x = 0 ↔ b.ctLen.get x.toNat = 0#8 :=
  (BitVec.toNat_eq (y := 0#8)).symm

theorem length_code (b : Buffers) (x : Symbol) : (b.code x).length = codeLen b x := b.code_length x

theorem mem_codeTable_iff {b : Buffers} {x : Symbol} {c : Bits} :
    (x, c) ∈ b.codeTable ↔ 1 ≤ codeLen b x ∧ c = b.code x := by
  rw [mem_codeTable, Nat.one_le_iff_ne_zero, ne_eq, ne_eq, codeLen_eq_zero]

theorem codeTable_keys_nodup (b : Buffers) : (b.codeTable.map Prod.fst).Nodup := by
  rw [Buffers.codeTable, List.map_filterMap]
  refine List.pairwise_filterMap.2 (List.nodup_range.imp_of_mem fun {j k} hj hk hne x hx y hy hxy => hne ?_)
  have key_eq {i : Nat} {z : Symbol} (hi : i ∈ List.range alphabet)
      (hz : (if b.ctLen.get i = 0#8 then none else some (BitVec.ofNat 8 i, b.code (BitVec.ofNat 8 i))).map Prod.fst =
        some z) : z.toNat = i := by
    split at hz
    · cases hz
    · cases hz
      exact Nat.mod_eq_of_lt (List.mem_range.1 hi)
  rw [← key_eq hj hx, ← key_eq hk hy, hxy]

theorem codeOf_codeTable_of_pos {b : Buffers} {x : Symbol} (h : 1 ≤ codeLen b x) :
    codeOf b.codeTable x = some (b.code x) := by
  rw [codeOf_codeTable, if_neg fun h0 => by rw [codeLen_eq_zero.2 h0] at h; omega]

theorem codeOf_codeTable_of_zero {b : Buffers} {x : Symbol} (h : codeLen b x = 0) : codeOf b.codeTable x = none := by
  rw [codeOf_codeTable, if_pos (codeLen_eq_zero.1 h)]

theorem getD_codeOf_codeTable (b : Buffers) (x : Symbol) : (codeOf b.codeTable x).getD [] = b.code x := by
  rcases Nat.eq_zero_or_pos (codeLen b x) with h | h
  · rw [codeOf_codeTable_of_zero h, Option.getD_none, List.length_eq_zero_iff.1 ((length_code b x).trans h)]
  · rw [codeOf_codeTable_of_pos h, Option.getD_some]

theorem concatCodes_codeTable (b : Buffers) (text : List Symbol) :
    concatCodes b.codeTable text = text.flatMap b.code :=
  List.flatMap_congr fun x _ => getD_codeOf_codeTable b x

theorem length_flatMap_code (b : Buffers) (text : List Symbol) :
    (text.flatMap b.code).length = (text.map (codeLen b)).sum := by
  simp only [List.length_flatMap, length_code]

theorem codeOf_codeTable_ne_none {b : Buffers} {text : List Symbol} (h : ∀ x ∈ text, 1 ≤ codeLen b x) :
    ∀ x ∈ text, codeOf b.codeTable x ≠ none := fun x hx => by
  rw [codeOf_codeTable_of_pos (h x hx)]
  exact Option.some_ne_none _

/-- Settles O29: the entries of the table are the symbols with LEN ≥ 1 and their codes. -/
theorem tableCheckIsPrefixFree : Obligations.TableCheckIsPrefixFree := by
  intro b
  rw [prefixFree_iff]
  constructor
  · intro h x y hne hx hy
    exact h _ (mem_codeTable_iff.2 ⟨hx, rfl⟩) _ (mem_codeTable_iff.2 ⟨hy, rfl⟩) hne
  · rintro h ⟨x, c⟩ hc ⟨y, d⟩ hd hne
    obtain ⟨hx, rfl⟩ := mem_codeTable_iff.1 hc
    obtain ⟨hy, rfl⟩ := mem_codeTable_iff.1 hd
    exact h x y hne hx hy

/-! ### Outcomes, and lengths in registers -/

theorem exec_of_resultOf {i : Instr} {s : State} {r : CommandResult} (h : resultOf i s = r) :
    exec i s = .next r.completed := h ▸ exec_eq i s

/-- A length below 2^32 is held by its register. -/
theorem toNat_lengthWord {n : Nat} (h : n < 2 ^ 32) : (BitVec.ofNat 32 n).toNat = n := by
  rw [BitVec.toNat_ofNat, Nat.mod_eq_of_lt h]

/-- Bits of a legal capacity fit the length registers (R11). -/
theorem Params.lt_of_le_bitCap {p : Params} (hp : p.legal = true) {n : Nat} (h : n ≤ p.bitCap) : n < 2 ^ 32 := by
  have hcap := (Params.bounds_of_legal hp).1
  rw [Params.bitCap] at h
  omega

/-! ### HUF_ENCODE -/

theorem encodeStream_ok {b : Buffers} {text : List Symbol} {cap : Nat} (hc : ∀ x ∈ text, 1 ≤ codeLen b x)
    (hfit : (text.map (codeLen b)).sum ≤ cap) :
    encodeStream cap b.codeTable text = .ok (text.flatMap b.code) := by
  rw [← length_flatMap_code, ← concatCodes_codeTable] at hfit
  rw [encodeStream, encodeFrom_ok cap _ text [] (codeOf_codeTable_ne_none hc) (by simpa using hfit), List.nil_append,
    concatCodes_codeTable]

theorem encodeStream_error {b : Buffers} {done later : List Symbol} {x : Symbol} {cap : Nat}
    (hc : ∀ y ∈ done, 1 ≤ codeLen b y) (hfit : (done.map (codeLen b)).sum ≤ cap)
    (hx : codeLen b x = 0 ∨ cap < (done.map (codeLen b)).sum + codeLen b x) :
    encodeStream cap b.codeTable (done ++ x :: later) =
      .error (if codeLen b x = 0 then .unknownSymbol else .capacity) := by
  have hlen : (concatCodes b.codeTable done).length = (done.map (codeLen b)).sum := by
    rw [concatCodes_codeTable, length_flatMap_code]
  rw [encodeStream, encodeFrom_append cap _ done _ [] (codeOf_codeTable_ne_none hc) (by simpa [hlen] using hfit),
    List.nil_append, encodeFrom]
  by_cases h0 : codeLen b x = 0
  · simp only [codeOf_codeTable_of_zero h0, if_pos h0]
  · have hover : cap < (concatCodes b.codeTable done).length + (b.code x).length := by
      rw [hlen, length_code]
      exact hx.resolve_left h0
    simp only [codeOf_codeTable_of_pos (Nat.one_le_iff_ne_zero.2 h0), if_pos hover, if_neg h0]

theorem hufEncode_of_ok {s : State} {bits : Bits} (hcap : s.regs.symLen.toNat ≤ s.params.textCap)
    (h : encodeStream s.params.bitCap s.bufs.codeTable s.text = .ok bits) :
    hufEncode s = .success { s with
      regs := { s.regs with hufLen := BitVec.ofNat 32 bits.length }
      bufs := { s.bufs with hufBuf := s.bufs.hufBuf.setSeq 0 bits } } := by
  rw [hufEncode, if_neg hcap.not_gt, h]

theorem hufEncode_of_error {s : State} {e : ErrorCode} (hcap : s.regs.symLen.toNat ≤ s.params.textCap)
    (h : encodeStream s.params.bitCap s.bufs.codeTable s.text = .error e) : hufEncode s = .error e s.spoilHuf := by
  rw [hufEncode, if_neg hcap.not_gt, h]

/-- Settles O20: ENCODE_STREAM succeeds, and its stream is written from element 0 on. -/
theorem hufEncodeResult : Obligations.HufEncodeResult := by
  intro s hp hcap hc hfit
  have hlen := toNat_lengthWord (Params.lt_of_le_bitCap hp ((length_flatMap_code _ _).trans_le hfit))
  refine ⟨_, exec_of_resultOf (i := .hufEncode) (hufEncode_of_ok hcap (encodeStream_ok hc hfit)),
    completed_complete none rfl rfl rfl rfl rfl rfl rfl, rfl, hlen.trans (length_flatMap_code _ _), ?_,
    fun k hk => ?_, rfl, rfl, rfl⟩
  · exact (congrArg _ hlen).trans (Memory.getSeq_setSeq _ 0 _)
  · exact Memory.get_setSeq_outside _ (.inr (by rw [Nat.zero_add]; exact hlen.symm.trans_le hk))

/-- Settles O21: ENCODE_STREAM codes the first symbols and fails at the next one. -/
theorem hufEncodeErrors : Obligations.HufEncodeErrors := by
  intro s done x later _ hcap htext hc hfit hx
  have herr := encodeStream_error (later := later) hc hfit hx
  rw [← htext] at herr
  exact ⟨_, exec_of_resultOf (i := .hufEncode) (hufEncode_of_error hcap herr),
    completed_complete _ rfl rfl rfl rfl rfl rfl rfl, rfl, fun k => Memory.get_drawn _ k, rfl, rfl, rfl⟩

/-! ### DECOMPRESS -/

/-- Either source (R92, R121). -/
theorem resultOf_decompress {s : State} {i : Instr} {len : Word} {bits : Bits}
    (hi : i = .decompressSrc0 ∧ len = s.regs.hufLen ∧ bits = s.hufBits ∨
      i = .decompressSrc1 ∧ len = s.regs.datLen ∧ bits = s.datBits) :
    resultOf i s = decompress len bits s := by
  obtain ⟨rfl, rfl, rfl⟩ | ⟨rfl, rfl, rfl⟩ := hi <;> rfl

theorem decompress_of_ok {s : State} {len : Word} {bits : Bits} {text : List Symbol}
    (hcap : len.toNat ≤ s.params.bitCap) (hfree : CtPrefixFree s.bufs)
    (h : decodeStream s.params.outCap s.bufs.codeTable bits = .ok text) :
    decompress len bits s = .success { s with
      regs := { s.regs with outLen := BitVec.ofNat 32 text.length }
      bufs := { s.bufs with outBuf := s.bufs.outBuf.setSeq 0 text } } := by
  rw [decompress, if_neg hcap.not_gt, if_pos ((tableCheckIsPrefixFree _).2 hfree), h]

theorem decompress_of_error {s : State} {len : Word} {bits : Bits} {e : ErrorCode}
    (hcap : len.toNat ≤ s.params.bitCap) (hfree : CtPrefixFree s.bufs)
    (h : decodeStream s.params.outCap s.bufs.codeTable bits = .error e) :
    decompress len bits s = .error e s.spoilOut := by
  rw [decompress, if_neg hcap.not_gt, if_pos ((tableCheckIsPrefixFree _).2 hfree), h]

/-- Scanning the codes of a text that fits emits it (R117). -/
theorem decodeStream_append {b : Buffers} {text : List Symbol} {cap : Nat} (left : Bits) (hp : CtPrefixFree b)
    (hc : ∀ x ∈ text, 1 ≤ codeLen b x) (hfit : text.length ≤ cap) :
    decodeStream cap b.codeTable (text.flatMap b.code ++ left) = decodeFrom cap b.codeTable left [] text := by
  have hne : ∀ e ∈ b.codeTable, e.2 ≠ [] := by
    rintro ⟨x, c⟩ he
    obtain ⟨hx, rfl⟩ := mem_codeTable_iff.1 he
    exact List.ne_nil_of_length_pos (by rw [length_code]; exact hx)
  rw [decodeStream, ← concatCodes_codeTable, decodeFrom_text ((tableCheckIsPrefixFree b).2 hp) (codeTable_keys_nodup b)
    hne text (codeOf_codeTable_ne_none hc) left [] (by simpa using hfit), List.nil_append]

theorem decodeFrom_full {b : Buffers} {text : List Symbol} {left : Bits} {x : Symbol} (hp : CtPrefixFree b)
    (hx : 1 ≤ codeLen b x) (hleft : b.code x <+: left) :
    decodeFrom text.length b.codeTable left [] text = .error .capacity := by
  obtain ⟨rest, rfl⟩ := hleft
  rw [decodeFrom_code (d := b.code x) ((tableCheckIsPrefixFree b).2 hp) (codeTable_keys_nodup b) [] rest text
    (mem_codeTable_iff.2 ⟨hx, rfl⟩) (List.ne_nil_of_length_pos (by rw [length_code]; exact hx)), if_pos rfl]

theorem decodeFrom_noCode {b : Buffers} {text : List Symbol} {left : Bits} {cap : Nat} (hne : left ≠ [])
    (hleft : ∀ x, 1 ≤ codeLen b x → ¬ b.code x <+: left) :
    decodeFrom cap b.codeTable left [] text = .error .corruptStream := by
  refine decodeFrom_stuck [] left text ?_ hne
  rintro ⟨x, c⟩ hc - -
  obtain ⟨hx, rfl⟩ := mem_codeTable_iff.1 hc
  exact hleft x hx

/-- Settles O22: DECODE_STREAM emits the text and ends with no bits left. -/
theorem decompressResult : Obligations.DecompressResult := by
  intro s text i len bits hp hi hcap hfree hc hbits hfit
  have hok : decodeStream s.params.outCap s.bufs.codeTable bits = .ok text := by
    rw [hbits, ← List.append_nil (text.flatMap _), decodeStream_append [] hfree hc hfit, decodeFrom, if_pos rfl]
  have hlen : (BitVec.ofNat 32 text.length).toNat = text.length := by
    have hout := (Params.bounds_of_legal hp).2
    exact toNat_lengthWord (by omega)
  exact ⟨_, exec_of_resultOf ((resultOf_decompress hi).trans (decompress_of_ok hcap hfree hok)),
    completed_complete none rfl rfl rfl rfl rfl rfl rfl, rfl, hlen, Memory.getSeq_setSeq _ 0 text,
    fun k hk => Memory.get_setSeq_outside _ (.inr (by rwa [Nat.zero_add])), rfl, rfl, rfl⟩

/-- Settles O23: DECODE_STREAM emits the text, and what is left ends it with the error. -/
theorem decompressErrors : Obligations.DecompressErrors := by
  intro s text left i len bits e _ hi hcap hfree hc hbits hfit he
  have herr : decodeStream s.params.outCap s.bufs.codeTable bits = .error e := by
    rw [hbits, decodeStream_append left hfree hc hfit]
    obtain ⟨rfl, hfull, x, hx, hleft⟩ | ⟨rfl, hne, hleft⟩ := he
    · rw [← hfull, decodeFrom_full hfree hx hleft]
    · exact decodeFrom_noCode hne hleft
  exact ⟨_, exec_of_resultOf ((resultOf_decompress hi).trans (decompress_of_error hcap hfree herr)),
    completed_complete _ rfl rfl rfl rfl rfl rfl rfl, rfl, fun k => Memory.get_drawn _ k, rfl, rfl, rfl⟩

/-- Settles O30: no code is as long as the buffer, so none can begin with it. -/
theorem longBufferIsCorrupt : Obligations.LongBufferIsCorrupt := by
  intro cap t buf rest out hlong hne
  refine decodeFrom_stuck buf rest out (fun a ha _ hlt => ?_) (List.append_ne_nil_of_left_ne_nil hne rest)
  exact absurd (hlong a ha) hlt.asymm

end Sys2Proof.Machine
end

section
/-! SUPPORT. Counting the symbols of a text, and the pool of R112 in any order (41_huffman.md R110 to R112): the loops
as their pseudocode has them compute what the model computes. -/

namespace Sys2Proof.Machine

/-! ### Counting -/

/-- The loop of R110, from any counts on. -/
theorem foldl_count (text : List Symbol) (f : Nat → Nat) {k : Nat} (hk : k < 256) :
    text.foldl (fun f x => Function.update f x.toNat (f x.toNat + 1)) f k = f k + text.count (BitVec.ofNat 8 k) := by
  induction text generalizing f with
  | nil => rfl
  | cons x text ih =>
    rw [List.foldl_cons, ih, List.count_cons, Function.update_apply]
    by_cases hx : k = x.toNat
    · subst hx
      simp only [BitVec.ofNat_toNat, BitVec.setWidth_eq, beq_self_eq_true, if_true]
      omega
    · have hne : x ≠ BitVec.ofNat 8 k := fun h => hx (by rw [h, BitVec.toNat_ofNat, Nat.mod_eq_of_lt hk])
      rw [if_neg hx, if_neg (by simpa using hne), Nat.add_zero]

/-- Settles O27: each round of the loop adds 1 at the symbol it reads. -/
theorem freqIsTheLoopAsWritten : Obligations.FreqIsTheLoopAsWritten := by
  intro text k hk
  have hloop : freqAsWritten text k = text.count (BitVec.ofNat 8 k) := (foldl_count text _ hk).trans (Nat.zero_add _)
  exact ⟨hloop.symm, hloop, hloop ▸ List.count_le_length⟩

/-! ### The order of R112 -/

theorem HuffTree.precedes_iff {x y : HuffTree} :
    x.precedes y = true ↔ x.weight < y.weight ∨ x.weight = y.weight ∧ x.seq < y.seq := by
  simp [HuffTree.precedes]

theorem HuffTree.precedes_asymm {x y : HuffTree} (h : x.precedes y = true) : y.precedes x = false := by
  rw [Bool.eq_false_iff, ne_eq, HuffTree.precedes_iff]
  rw [HuffTree.precedes_iff] at h
  omega

theorem HuffTree.precedes_trans {x y z : HuffTree} (h : x.precedes y = true) (h' : y.precedes z = true) :
    x.precedes z = true := by
  rw [HuffTree.precedes_iff] at *
  omega

/-- Nodes of different sequence numbers are ordered. -/
theorem HuffTree.precedes_of_not_precedes {x y : HuffTree} (hne : x.seq ≠ y.seq) (h : ¬ x.precedes y = true) :
    y.precedes x = true := by
  rw [HuffTree.precedes_iff] at *
  omega

/-- A pool in the order of R112. -/
def InPoolOrder (pool : List HuffTree) : Prop := pool.Pairwise fun x y => x.precedes y = true

theorem insertNode_inPoolOrder {c : HuffTree} {pool : List HuffTree} (hc : ∀ x ∈ pool, x.seq ≠ c.seq)
    (h : InPoolOrder pool) : InPoolOrder (insertNode c pool) := by
  induction pool with
  | nil => exact List.pairwise_singleton _ c
  | cons x xs ih =>
    obtain ⟨hx, hxs⟩ := List.pairwise_cons.1 h
    rw [insertNode]
    split
    · rename_i hcx
      refine List.pairwise_cons.2 ⟨fun y hy => ?_, h⟩
      obtain rfl | hy := List.mem_cons.1 hy
      · exact hcx
      · exact HuffTree.precedes_trans hcx (hx y hy)
    · rename_i hcx
      refine List.pairwise_cons.2 ⟨fun y hy => ?_, ih (fun y hy => hc y (List.mem_cons_of_mem x hy)) hxs⟩
      obtain rfl | hy := List.mem_cons.1 ((insertNode_perm c xs).mem_iff.1 hy)
      · exact HuffTree.precedes_of_not_precedes (hc x List.mem_cons_self).symm hcx
      · exact hx y hy

/-- The leaves are numbered from n on (R111). -/
theorem leavesFrom_seq (f : Nat → Nat) (l : List Nat) (n : Nat) :
    (leavesFrom f l n).Pairwise (fun x y => x.seq < y.seq) ∧
      ∀ x ∈ leavesFrom f l n, n ≤ x.seq ∧ x.seq < n + (leavesFrom f l n).length := by
  induction l generalizing n with
  | nil => exact ⟨List.Pairwise.nil, nofun⟩
  | cons k l ih =>
    rw [leavesFrom]
    split
    · obtain ⟨hlt, hbound⟩ := ih (n + 1)
      refine ⟨List.pairwise_cons.2 ⟨fun y hy => (hbound y hy).1, hlt⟩, fun x hx => ?_⟩
      rw [List.length_cons]
      obtain rfl | hx := List.mem_cons.1 hx
      · exact ⟨le_rfl, by rw [HuffTree.seq]; omega⟩
      · have := hbound x hx
        omega
    · exact ih n

theorem foldr_insertNode_inPoolOrder {l : List HuffTree} (h : l.Pairwise fun x y => x.seq < y.seq) :
    InPoolOrder (l.foldr insertNode []) := by
  induction l with
  | nil => exact List.Pairwise.nil
  | cons c l ih =>
    obtain ⟨hc, hl⟩ := List.pairwise_cons.1 h
    exact insertNode_inPoolOrder (fun x hx => (hc x ((foldr_insertNode_perm l).mem_iff.1 hx)).ne') (ih hl)

/-! ### The first node of a pool -/

theorem firstNode_mem {pool : List HuffTree} {x : HuffTree} (h : firstNode pool = some x) : x ∈ pool := by
  induction pool with
  | nil => cases h
  | cons y ys ih =>
    rw [firstNode] at h
    split at h
    · cases h
      exact List.mem_cons_self
    · rename_i z hz
      split at h <;> cases h
      · exact List.mem_cons_self
      · exact List.mem_cons_of_mem y (ih hz)

/-- The node that precedes all others is taken. -/
theorem firstNode_eq {pool : List HuffTree} {a : HuffTree} (ha : a ∈ pool)
    (hfirst : ∀ x ∈ pool, x = a ∨ a.precedes x = true) : firstNode pool = some a := by
  induction pool with
  | nil => cases ha
  | cons y ys ih =>
    rw [firstNode]
    by_cases hys : a ∈ ys
    · rw [ih hys fun x hx => hfirst x (List.mem_cons_of_mem y hx)]
      obtain rfl | hay := hfirst y List.mem_cons_self
      · exact ite_self _
      · simp only [HuffTree.precedes_asymm hay, Bool.false_eq_true, if_false]
    · obtain rfl := (List.mem_cons.1 ha).resolve_right hys
      cases hf : firstNode ys with
      | none => rfl
      | some z =>
        have hz := firstNode_mem hf
        have haz := (hfirst z (List.mem_cons_of_mem a hz)).resolve_left fun h => hys (h ▸ hz)
        simp only [haz, if_true]

theorem firstNode_of_perm {pool rest : List HuffTree} {a : HuffTree} (h : pool.Perm (a :: rest))
    (ho : InPoolOrder (a :: rest)) : firstNode pool = some a :=
  firstNode_eq (h.mem_iff.2 List.mem_cons_self) fun x hx =>
    (List.mem_cons.1 (h.mem_iff.1 hx)).imp_right fun hx => (List.pairwise_cons.1 ho).1 x hx

theorem erase_perm_of_perm_cons {pool rest : List HuffTree} {a : HuffTree} (h : pool.Perm (a :: rest)) :
    (pool.erase a).Perm rest := by
  simpa using h.erase a

/-! ### The loop -/

/-- On a pool in any order the loop of R112 does what it does on the same pool in order, as long as every node's
sequence number is below the next one. -/
theorem mergeAsWritten_perm {steps next : Nat} {pool sorted : List HuffTree} (hp : pool.Perm sorted)
    (ho : InPoolOrder sorted) (hseq : ∀ x ∈ sorted, x.seq < next) :
    (mergeAsWritten steps next pool).Perm (mergePool steps next sorted) := by
  induction steps generalizing next pool sorted with
  | zero => rwa [mergeAsWritten, mergePool.eq_def]
  | succ steps ih =>
    match sorted with
    | [] =>
      rw [List.perm_nil.1 hp]
      exact List.Perm.refl _
    | [a] =>
      rw [List.perm_singleton.1 hp, mergeAsWritten]
      simp [firstNode, mergePool]
    | a :: b :: rest =>
      have hrest := erase_perm_of_perm_cons hp
      have ho' := (List.pairwise_cons.1 ho).2
      have hnew : ∀ x ∈ rest, x.seq < next := fun x hx => hseq x (List.mem_cons_of_mem a (List.mem_cons_of_mem b hx))
      rw [mergeAsWritten, mergePool]
      simp only [firstNode_of_perm hp ho, firstNode_of_perm hrest ho']
      refine ih ?_ (insertNode_inPoolOrder (fun x hx => (hnew x hx).ne) (List.pairwise_cons.1 ho').2) fun x hx => ?_
      · exact (List.perm_append_singleton _ _).trans
          (((erase_perm_of_perm_cons hrest).cons _).trans (insertNode_perm _ rest).symm)
      · obtain rfl | hx := List.mem_cons.1 ((insertNode_perm _ rest).mem_iff.1 hx)
        · exact Nat.lt_succ_self next
        · exact Nat.lt_succ_of_lt (hnew x hx)

/-- Settles O28: from the leaves the two pools hold the same nodes after every round, and one node is left. -/
theorem treeIsTheLoopAsWritten : Obligations.TreeIsTheLoopAsWritten := by
  intro f hne
  obtain ⟨hlt, hbound⟩ := leavesFrom_seq f (List.range alphabet) 0
  have hperm := foldr_insertNode_perm (leaves f)
  have hpos := List.length_pos_iff.2 hne
  obtain ⟨tree, htree, -⟩ := mergePool_spec ((leaves f).length - 1) (leaves f).length ((leaves f).foldr insertNode [])
    (by rw [hperm.length_eq]; omega) (foldr_insertNode_sorted _)
    fun x hx => (leavesFrom_weighed f _ 0 x (hperm.mem_iff.1 hx)).1
  have hmerge := mergeAsWritten_perm (steps := (leaves f).length - 1) (next := (leaves f).length) hperm.symm
    (foldr_insertNode_inPoolOrder hlt) fun x hx => (hbound x (hperm.mem_iff.1 hx)).2.trans_eq (Nat.zero_add _)
  rw [htree] at hmerge
  exact ⟨tree, List.perm_singleton.1 hmerge, by simp only [buildTree, htree, List.head?_cons]⟩

end Sys2Proof.Machine
end

section
/-! SUPPORT. What BUILD_CODES leaves (41_huffman.md R110 to R114, R119, R122 to R125): its table, its stream and its
counts, and the commands run after it. -/

namespace Sys2Proof.Machine

/-! ### The codes of a text -/

/-- The symbols that occur are the distinct symbols of the text (R110, R111). -/
theorem occurring_keys_perm_dedup (text : List Symbol) : ((occurring (freq text)).map Prod.fst).Perm text.dedup :=
  (List.perm_ext_iff_of_nodup (occurring_keys_nodup _) text.nodup_dedup).2 fun x => by
    rw [mem_occurring_text, List.mem_dedup]

theorem occurring_length_text (text : List Symbol) : (occurring (freq text)).length = text.dedup.length := by
  rw [← (occurring_keys_perm_dedup text).length_eq, List.length_map]

/-- The codes of a text are those of its tree, whose leaves are the symbols that occur (R112, R113). -/
theorem codesOfText_tree {text : List Symbol} (h : text ≠ []) :
    ∃ tree, buildTree (freq text) = some tree ∧ codesOfText text = deriveCodes tree ∧
      tree.leafList.Perm (occurring (freq text)) := by
  obtain ⟨tree, -, htree, -, hleaves, -⟩ := buildTree_spec (occurring_text_ne_nil h)
  exact ⟨tree, htree, by simp only [codesOfText, htree], hleaves⟩

/-- A code is the one bit of a lone leaf, or has fewer bits than there are symbols (R114, R124). -/
theorem length_codeOf_codesOfText_lt {text : List Symbol} (h : text ≠ []) {x : Symbol} {c : Bits}
    (hc : codeOf (codesOfText text) x = some c) : c.length = 1 ∨ c.length + 1 ≤ text.dedup.length := by
  obtain ⟨tree, -, hcodes, hleaves⟩ := codesOfText_tree h
  rw [hcodes] at hc
  rw [← occurring_length_text, ← hleaves.length_eq]
  exact (deriveCodes_length (mem_of_codeOf hc)).2

theorem HuffTree.eq_leaf_of_leafList_length {t : HuffTree} (h : t.leafList.length = 1) : ∃ w n x, t = .leaf w n x := by
  cases t with
  | leaf w n x => exact ⟨w, n, x, rfl⟩
  | node w n l r =>
    have hl := List.length_pos_iff.2 l.leafList_ne_nil
    have hr := List.length_pos_iff.2 r.leafList_ne_nil
    rw [HuffTree.leafList, List.length_append] at h
    omega

/-- The tree of a text of one distinct symbol is its leaf (R114). -/
theorem buildTree_of_single {text : List Symbol} {x : Symbol} (hne : text ≠ []) (h : ∀ y ∈ text, y = x) :
    ∃ w n, buildTree (freq text) = some (.leaf w n x) ∧ codesOfText text = [(x, [false])] := by
  obtain ⟨tree, htree, hcodes, hleaves⟩ := codesOfText_tree hne
  have hdedup : text.dedup = [x] := by
    rw [List.eq_replicate_of_mem h]
    exact List.replicate_dedup (List.length_pos_iff.2 hne).ne'
  obtain ⟨w, n, y, rfl⟩ := HuffTree.eq_leaf_of_leafList_length (t := tree)
    (by rw [hleaves.length_eq, occurring_length_text, hdedup, List.length_singleton])
  have hy : y ∈ text := mem_occurring_text.1 ((hleaves.map Prod.fst).mem_iff.1 List.mem_cons_self)
  obtain rfl := h y hy
  exact ⟨w, n, htree, hcodes⟩

/-! ### The state BUILD_CODES leaves -/

/-- The writes of BUILD_CODES when it succeeds (R119). -/
def State.withCodes (s : State) : State :=
  { s with
    regs := { s.regs with
      hufLen := BitVec.ofNat 32 (concatCodes (codesOfText s.text) s.text).length
      nSymbols := BitVec.ofNat 32 (leaves (freq s.text)).length }
    bufs := { writeTable (codesOfText s.text) s.bufs with
      freqBuf := s.bufs.freqBuf.setAll 256 fun k => BitVec.ofNat 32 (freq s.text k)
      hufBuf := s.bufs.hufBuf.setSeq 0 (concatCodes (codesOfText s.text) s.text) }
    status := { s.status with codesValid := true } }

theorem State.withCodes_code (s : State) (x : Symbol) :
    s.withCodes.bufs.code x = (codeOf (codesOfText s.text) x).getD [] :=
  code_writeTable_codesOfText s.text s.bufs x

theorem State.withCodes_codeLen (s : State) (x : Symbol) :
    codeLen s.withCodes.bufs x = ((codeOf (codesOfText s.text) x).getD []).length := by
  rw [← length_code, withCodes_code]

theorem State.withCodes_codeBit (s : State) {x : Symbol} {j : Nat} (hlen : codeLen s.withCodes.bufs x ≤ j)
    (hj : j < 256) : s.withCodes.bufs.codeBit x j = false := by
  rw [withCodes_codeLen] at hlen
  exact (codeBit_writeTable _ s.bufs x j hj).trans (List.getD_eq_default _ _ hlen)

theorem State.withCodes_stream (s : State) :
    s.text.flatMap s.withCodes.bufs.code = concatCodes (codesOfText s.text) s.text :=
  List.flatMap_congr fun x _ => s.withCodes_code x

theorem State.withCodes_stream_length (s : State) :
    (concatCodes (codesOfText s.text) s.text).length = (s.text.map (codeLen s.withCodes.bufs)).sum := by
  rw [← withCodes_stream, length_flatMap_code]

theorem State.withCodes_freqBuf (s : State) (x : Symbol) :
    (s.withCodes.bufs.freqBuf.get x.toNat).toNat = s.text.count x := by
  have hcount : s.text.count x < 2 ^ 32 :=
    (List.count_le_length.trans_eq s.text_length).trans_lt s.regs.symLen.isLt
  have hget : s.withCodes.bufs.freqBuf.get x.toNat = BitVec.ofNat 32 (freq s.text x.toNat) :=
    (Memory.get_setAll _ _ _ _).trans (if_pos x.isLt)
  rw [hget, freq, BitVec.ofNat_toNat, BitVec.setWidth_eq, toNat_lengthWord hcount]

theorem State.withCodes_nSymbols (s : State) : s.withCodes.regs.nSymbols.toNat = s.text.dedup.length := by
  have hlen : (leaves (freq s.text)).length = s.text.dedup.length := (leaves_length _).trans (occurring_length_text _)
  have hle := occurring_length_le (freq s.text)
  rw [occurring_length_text] at hle
  exact (congrArg _ (congrArg _ hlen)).trans (toNat_lengthWord (by omega))

theorem State.withCodes_codeLen_of_mem {s : State} {x : Symbol} (hx : x ∈ s.text) :
    1 ≤ codeLen s.withCodes.bufs x ∧ codeLen s.withCodes.bufs x ≤ 255 := by
  obtain ⟨c, hc, hlen⟩ := codeOf_codesOfText hx
  rwa [withCodes_codeLen, hc, Option.getD_some]

section
variable {s : State} (hpos : 1 ≤ s.regs.symLen.toNat) (hcap : s.regs.symLen.toNat ≤ s.params.textCap)

include hpos in
theorem State.text_ne_nil : s.text ≠ [] := List.ne_nil_of_length_pos (by rw [text_length]; exact hpos)

include hpos in
theorem State.withCodes_codeLen_lt (x : Symbol) :
    codeLen s.withCodes.bufs x ≤ 1 ∨ codeLen s.withCodes.bufs x + 1 ≤ s.text.dedup.length := by
  rw [withCodes_codeLen]
  cases hc : codeOf (codesOfText s.text) x with
  | none => exact .inl (Nat.zero_le 1)
  | some c => exact (length_codeOf_codesOfText_lt (s.text_ne_nil hpos) hc).imp_left le_of_eq

include hpos in
theorem State.withCodes_prefixFree : CtPrefixFree s.withCodes.bufs := by
  obtain ⟨-, -, -, hfree⟩ := codesOfText_spec (s.text_ne_nil hpos)
  exact (tableCheckIsPrefixFree _).1
    (prefixFree_codeTable_writeTable s.bufs hfree fun _ _ => length_of_codeOf_codesOfText)

include hpos hcap

theorem exec_buildCodes : exec .buildCodes s = .next (s.withCodes.complete none) := by
  refine exec_of_resultOf (r := .success s.withCodes) ?_
  rw [resultOf, buildCodes, if_neg hcap.not_gt, if_neg (Nat.one_le_iff_ne_zero.1 hpos)]
  rfl

theorem State.withCodes_stream_fits : (s.text.map (codeLen s.withCodes.bufs)).sum ≤ s.params.bitCap :=
  s.withCodes_stream_length.symm.trans_le (buildCodes_stream_fits hpos hcap)

theorem State.withCodes_hufLen (hp : s.params.legal = true) :
    s.withCodes.regs.hufLen.toNat = (concatCodes (codesOfText s.text) s.text).length :=
  toNat_lengthWord (Params.lt_of_le_bitCap hp (buildCodes_stream_fits hpos hcap))

theorem State.withCodes_hufBits (hp : s.params.legal = true) :
    s.withCodes.hufBits = s.text.flatMap s.withCodes.bufs.code := by
  rw [withCodes_stream]
  exact (congrArg _ (withCodes_hufLen hpos hcap hp)).trans (Memory.getSeq_setSeq _ 0 _)

end

/-! ### The statements on BUILD_CODES -/

/-- Settles O18: the table holds the codes of the tree, the stream is the codes in order, nothing else is written. -/
theorem buildCodesResult : Obligations.BuildCodesResult := by
  intro s hp hpos hcap
  obtain ⟨tree, htree, hcodes, -⟩ := codesOfText_tree (s.text_ne_nil hpos)
  have hlen := State.withCodes_hufLen hpos hcap hp
  refine ⟨_, tree, exec_buildCodes hpos hcap, completed_complete none rfl rfl rfl rfl rfl rfl rfl, rfl,
    s.withCodes_freqBuf, htree, fun x => ?_, fun x j => s.withCodes_codeBit, s.withCodes_nSymbols,
    State.withCodes_hufBits hpos hcap hp, hlen.trans s.withCodes_stream_length, fun k hk => ?_, rfl, rfl, rfl⟩
  · exact (s.withCodes_code x).trans (by rw [hcodes, codeOf])
  · exact Memory.get_setSeq_outside _ (.inr (by rw [Nat.zero_add]; exact hlen.symm.trans_le hk))

/-- Settles O19: the table has one entry, of one bit. -/
theorem singleSymbolCodeIsZero : Obligations.SingleSymbolCodeIsZero := by
  intro s t x hp hpos hcap hx h
  cases (exec_buildCodes hpos hcap).symm.trans h
  obtain ⟨w, n, htree, hcodes⟩ := buildTree_of_single (s.text_ne_nil hpos) hx
  have hcode : ∀ y, s.withCodes.bufs.code y = ([(x, [false])].lookup y).getD [] := fun y => by
    rw [s.withCodes_code, hcodes, codeOf]
  have hcode_x : s.withCodes.bufs.code x = [false] := by rw [hcode, List.lookup_cons_self, Option.getD_some]
  have hlen : ∀ y ∈ s.text, codeLen s.withCodes.bufs y = 1 := fun y hy => by
    rw [hx y hy, ← length_code, hcode_x, List.length_singleton]
  refine ⟨⟨w, n, htree⟩, hcode_x, fun y hy => ?_, BitVec.eq_of_toNat_eq ?_⟩
  · exact (length_code s.withCodes.bufs y).symm.trans (by rw [hcode, List.lookup_cons, beq_false_of_ne hy]; rfl)
  · calc s.withCodes.regs.hufLen.toNat
      _ = (s.text.map (codeLen s.withCodes.bufs)).sum :=
        (State.withCodes_hufLen hpos hcap hp).trans s.withCodes_stream_length
      _ = s.regs.symLen.toNat := by
        rw [List.map_congr_left hlen, List.map_const', List.sum_replicate, smul_eq_mul, mul_one, s.text_length]

/-- DECODE_STREAM raises CAPACITY and CORRUPT_STREAM only (R117). -/
theorem decodeFrom_ne_ambiguousCode (cap : Nat) (t : CodeTable) (bits buf : Bits) (out : List Symbol) :
    decodeFrom cap t bits buf out ≠ .error .ambiguousCode := by
  induction bits generalizing buf out with
  | nil =>
    rw [decodeFrom]
    split <;> exact nofun
  | cons b bits ih =>
    rw [decodeFrom]
    split
    · exact ih _ _
    · split
      · exact nofun
      · exact ih _ _

theorem decompress_ne_ambiguousCode {s : State} (hfree : prefixFree s.bufs.codeTable = true) (len : Word)
    (bits : Bits) : (decompress len bits s).completed.status.errCode ≠ some .ambiguousCode := by
  obtain ⟨-, hr⟩ | ⟨-, hamb, -⟩ | ⟨-, -, e, he, hr⟩ | ⟨-, -, text, -, hr⟩ := decompress_cases len bits s
  · rw [hr]
    exact nofun
  · cases hfree.symm.trans hamb
  · rw [hr]
    rintro ⟨⟩
    exact decodeFrom_ne_ambiguousCode _ _ _ _ _ he
  · rw [hr]
    exact nofun

/-- Settles O31: the codes of a tree part at its nodes, and DECOMPRESS reports AMBIGUOUS_CODE by the check only. -/
theorem builtTableIsPrefixFree : Obligations.BuiltTableIsPrefixFree := by
  refine ⟨fun s t hpos hcap h => ?_, fun s t hsound hvalid i hi h => ?_⟩
  · cases (exec_buildCodes hpos hcap).symm.trans h
    exact State.withCodes_prefixFree hpos
  · cases (exec_eq i s).symm.trans h
    obtain rfl | hi := List.mem_cons.1 hi
    · exact decompress_ne_ambiguousCode (hsound hvalid) _ _
    · obtain rfl := List.mem_singleton.1 hi
      exact decompress_ne_ambiguousCode (hsound hvalid) _ _

/-- Settles O32: a leaf is at most as deep as there are other leaves, and eight bits a symbol always suffice. -/
theorem buildCodesCannotOverflow : Obligations.BuildCodesCannotOverflow := by
  intro s t hp hpos hcap h
  cases (exec_buildCodes hpos hcap).symm.trans h
  have hlen := State.withCodes_hufLen hpos hcap hp
  have hn := s.withCodes_nSymbols
  refine ⟨fun x => State.withCodes_codeLen_of_mem, fun (h2 : 2 ≤ s.withCodes.regs.nSymbols.toNat) x => ?_,
    fun (h1 : s.withCodes.regs.nSymbols.toNat = 1) x => ?_, ?_, hlen.trans_le (buildCodes_stream_fits hpos hcap), ?_⟩
  · show codeLen s.withCodes.bufs x + 1 ≤ s.withCodes.regs.nSymbols.toNat
    have hx := State.withCodes_codeLen_lt hpos x
    omega
  · show codeLen s.withCodes.bufs x ≤ 1
    have hx := State.withCodes_codeLen_lt hpos x
    omega
  · calc s.withCodes.regs.hufLen.toNat
      _ ≤ 8 * s.text.length := hlen.trans_le (stream_le_eight (s.text_ne_nil hpos))
      _ = 8 * s.regs.symLen.toNat := by rw [s.text_length]
  · rw [show (s.withCodes.complete none).hufBits = _ from State.withCodes_hufBits hpos hcap hp]
    exact encodeStream_ok (fun x hx => (State.withCodes_codeLen_of_mem hx).1) (State.withCodes_stream_fits hpos hcap)

/-! ### The commands after BUILD_CODES -/

/-- Settles O35: the text and the table are the ones BUILD_CODES coded with. -/
theorem hufEncodeRepeatsBuildCodes : Obligations.HufEncodeRepeatsBuildCodes := by
  intro s t t' hp hpos hcap h hregs hbufs hparams
  cases (exec_buildCodes hpos hcap).symm.trans h
  have htext : t'.text = s.text := by
    rw [State.text, hregs, hbufs]
    rfl
  obtain ⟨u, hu, hcompleted, -, hlen, hbits, -⟩ := hufEncodeResult t' (hparams ▸ hp)
    (by rw [hregs, hparams]; exact hcap)
    (by rw [htext, hbufs]; exact fun x hx => (State.withCodes_codeLen_of_mem hx).1)
    (by rw [htext, hbufs, hparams]; exact State.withCodes_stream_fits hpos hcap)
  rw [htext, hbufs] at hlen hbits
  refine ⟨u, hu, hcompleted, BitVec.eq_of_toNat_eq ?_, hbits.trans (State.withCodes_hufBits hpos hcap hp).symm⟩
  exact hlen.trans ((State.withCodes_hufLen hpos hcap hp).trans s.withCodes_stream_length).symm

theorem Memory.get_eq_of_getSeq_eq {α : Type} [Inhabited α] {m m' : Memory α} {n k : Nat}
    (h : m.getSeq 0 n = m'.getSeq 0 n) (hk : k < n) : m.get k = m'.get k := by
  have hget := congrArg (·[k]?) h
  simpa [Memory.getSeq, hk] using hget

/-- The codes of a text that does not fit OUT_BUF: when OUT_BUF is full a further code is complete (R117). -/
theorem decompressSrc0_of_long_text {s : State} {text : List Symbol} (hp : s.params.legal = true)
    (hfit : s.regs.hufLen.toNat ≤ s.params.bitCap) (hfree : CtPrefixFree s.bufs)
    (hcodes : ∀ x ∈ text, 1 ≤ codeLen s.bufs x) (hbits : s.hufBits = text.flatMap s.bufs.code)
    (hlong : s.params.outCap < text.length) :
    ∃ u, exec .decompressSrc0 s = .next u ∧ Completed s u (some .capacity) := by
  obtain ⟨x, later, hlater⟩ := List.exists_cons_of_ne_nil (l := text.drop s.params.outCap)
    (List.ne_nil_of_length_pos (by rw [List.length_drop]; omega))
  have hx : x ∈ text := List.mem_of_mem_drop (by rw [hlater]; exact List.mem_cons_self)
  have hsplit : s.hufBits = (text.take s.params.outCap).flatMap s.bufs.code ++ (x :: later).flatMap s.bufs.code := by
    rw [hbits, ← hlater, ← List.flatMap_append, List.take_append_drop]
  have hfull : (text.take s.params.outCap).length = s.params.outCap := by
    rw [List.length_take, Nat.min_eq_left hlong.le]
  obtain ⟨u, hu, hcompleted, -⟩ := decompressErrors s _ _ _ _ _ .capacity hp (.inl ⟨rfl, rfl, rfl⟩) hfit hfree
    (fun y hy => hcodes y (List.mem_of_mem_take hy)) hsplit hfull.le
    (.inl ⟨rfl, hfull, x, hcodes x hx, List.prefix_append _ _⟩)
  exact ⟨u, hu, hcompleted⟩

/-- Settles O34: the stream is the codes of the text, so DECOMPRESS gives the text where it fits. -/
theorem huffmanRoundTrip : Obligations.HuffmanRoundTrip := by
  intro s t t' hp hpos hcap h hregs hbufs hparams
  cases (exec_buildCodes hpos hcap).symm.trans h
  have hp' : t'.params.legal = true := hparams ▸ hp
  have hbits : t'.hufBits = s.text.flatMap t'.bufs.code := by
    rw [State.hufBits, hregs, hbufs]
    exact State.withCodes_hufBits hpos hcap hp
  have hfit : t'.regs.hufLen.toNat ≤ t'.params.bitCap := by
    rw [hregs, hparams]
    exact (State.withCodes_hufLen hpos hcap hp).trans_le (buildCodes_stream_fits hpos hcap)
  have hfree : CtPrefixFree t'.bufs := by
    rw [hbufs]
    exact State.withCodes_prefixFree hpos
  have hcodes : ∀ x ∈ s.text, 1 ≤ codeLen t'.bufs x := by
    rw [hbufs]
    exact fun x hx => (State.withCodes_codeLen_of_mem hx).1
  have hout : t'.params.outCap = s.params.outCap := by rw [hparams]; rfl
  refine ⟨_, exec_eq .decompressSrc0 t', fun hle => ?_, fun hlt => ?_⟩
  · obtain ⟨u, hu, hcompleted, -, hlen, hseq, -⟩ := decompressResult t' s.text _ _ _ hp' (.inl ⟨rfl, rfl, rfl⟩) hfit
      hfree hcodes hbits (by rw [s.text_length, hout]; exact hle)
    cases (exec_eq .decompressSrc0 t').symm.trans hu
    rw [s.text_length] at hlen hseq
    exact ⟨hcompleted, BitVec.eq_of_toNat_eq hlen, fun k => Memory.get_eq_of_getSeq_eq hseq⟩
  · obtain ⟨u, hu, hcompleted⟩ := decompressSrc0_of_long_text hp' hfit hfree hcodes hbits
      (by rw [s.text_length, hout]; exact hlt)
    cases (exec_eq .decompressSrc0 t').symm.trans hu
    exact hcompleted

end Sys2Proof.Machine
end

section
/-! SUPPORT. Optimality of the code BUILD_CODES writes (41_huffman.md R123): a code of which no word begins another
satisfies Kraft's inequality, and still does after the codes of two symbols are exchanged. -/

namespace Sys2Proof.Machine

/-! ### Sums over a text -/

/-- A sum over the symbols that occur. -/
theorem sum_occurring (text : List Symbol) (g : Symbol → Nat) :
    ((occurring (freq text)).map fun e => g e.1).sum = ∑ x ∈ text.toFinset, g x := by
  rw [← Function.comp_def, ← List.map_map, ((occurring_keys_perm_dedup text).map g).sum_eq]
  rfl

/-- What exchanging two symbols does to a sum over a text. -/
theorem sum_map_swap (text : List Symbol) (g : Symbol → Nat) {x y : Symbol} (hne : x ≠ y) :
    (text.map (g ∘ Equiv.swap x y)).sum + (text.count x * g x + text.count y * g y) =
      (text.map g).sum + (text.count x * g y + text.count y * g x) := by
  induction text with
  | nil => simp
  | cons z text ih =>
    simp only [List.map_cons, List.sum_cons, List.count_cons, Function.comp_apply, beq_iff_eq]
    obtain rfl | hx := eq_or_ne z x
    · simp only [Equiv.swap_apply_left, if_true, if_neg hne]
      linarith
    · obtain rfl | hy := eq_or_ne z y
      · simp only [Equiv.swap_apply_right, if_true, if_neg hx]
        linarith
      · simp only [Equiv.swap_apply_of_ne_of_ne hx hy, if_neg hx, if_neg hy]
        linarith

/-! ### Codes of which no word begins another -/

/-- The codes of the symbols of a text, none empty and none the beginning of another (R123). -/
structure IsPrefixCode (text : List Symbol) (c : Symbol → Bits) : Prop where
  ne_nil : ∀ x ∈ text, c x ≠ []
  not_begins : ∀ x ∈ text, ∀ y ∈ text, x ≠ y → ¬ c x <+: c y

namespace IsPrefixCode

variable {text : List Symbol} {c : Symbol → Bits}

theorem eq_of_begins (h : IsPrefixCode text c) {x y : Symbol} (hx : x ∈ text) (hy : y ∈ text) (hp : c x <+: c y) :
    x = y :=
  by_contra fun hne => h.not_begins x hx y hy hne hp

/-- Two sequences of codes with one concatenation begin with the same code, and so on. -/
theorem uniquelyDecodable (h : IsPrefixCode text c) : InformationTheory.UniquelyDecodable (c '' {x | x ∈ text}) := by
  intro us
  induction us with
  | nil =>
    intro vs _ hvs hflat
    cases vs with
    | nil => rfl
    | cons v vs =>
      obtain ⟨x, hx, rfl⟩ := hvs v List.mem_cons_self
      exact absurd (List.append_eq_nil_iff.1 hflat.symm).1 (h.ne_nil x hx)
  | cons u us ih =>
    intro vs hus hvs hflat
    obtain ⟨x, hx, rfl⟩ := hus u List.mem_cons_self
    cases vs with
    | nil => exact absurd (List.append_eq_nil_iff.1 hflat).1 (h.ne_nil x hx)
    | cons v vs =>
      obtain ⟨y, hy, rfl⟩ := hvs v List.mem_cons_self
      rw [List.flatten_cons, List.flatten_cons] at hflat
      have hxy : x = y := by
        obtain hp | hp := List.prefix_or_prefix_of_prefix (List.prefix_append (c x) us.flatten)
          (hflat ▸ List.prefix_append (c y) vs.flatten)
        · exact h.eq_of_begins hx hy hp
        · exact (h.eq_of_begins hy hx hp).symm
      subst hxy
      rw [ih vs (fun w hw => hus w (List.mem_cons_of_mem _ hw)) (fun w hw => hvs w (List.mem_cons_of_mem _ hw))
        (List.append_cancel_left hflat)]

/-- Kraft's inequality over the symbols of a text. -/
theorem sum_half_pow_le (h : IsPrefixCode text c) : ∑ x ∈ text.toFinset, (1 / 2 : ℝ) ^ (c x).length ≤ 1 := by
  have hinj : Set.InjOn c text.toFinset := fun x hx y hy hxy =>
    h.eq_of_begins (List.mem_toFinset.1 hx) (List.mem_toFinset.1 hy) (hxy ▸ List.prefix_refl _)
  have hset : ((text.toFinset.image c : Finset Bits) : Set Bits) = c '' {x | x ∈ text} := by
    rw [Finset.coe_image, List.coe_toFinset]
  have hkraft := InformationTheory.kraft_mcmillan_inequality (hset ▸ h.uniquelyDecodable)
  rw [Finset.sum_image hinj] at hkraft
  simpa using hkraft

theorem kraft (h : IsPrefixCode text c) :
    ∃ n, Kraft n ((occurring (freq text)).map fun e => (e.2, (c e.1).length)) := by
  refine ⟨text.toFinset.sup fun x => (c x).length, ?_, ?_⟩
  · intro p hp
    obtain ⟨⟨x, w⟩, he, rfl⟩ := List.mem_map.1 hp
    have hx : x ∈ text := mem_occurring_text.1 (List.mem_map_of_mem he)
    exact Finset.le_sup (f := fun x => (c x).length) (List.mem_toFinset.2 hx)
  · generalize hn : (text.toFinset.sup fun x => (c x).length) = n
    rw [List.map_map]
    refine (sum_occurring text fun x => 2 ^ (n - (c x).length)).trans_le ?_
    have hterm : ∀ x ∈ text.toFinset, (2 : ℝ) ^ (n - (c x).length) = 2 ^ n * (1 / 2) ^ (c x).length := fun x hx => by
      rw [pow_sub₀ 2 two_ne_zero (hn ▸ Finset.le_sup (f := fun x => (c x).length) hx), one_div, inv_pow]
    have hreal : ∑ x ∈ text.toFinset, (2 : ℝ) ^ (n - (c x).length) ≤ 2 ^ n := by
      rw [Finset.sum_congr rfl hterm, ← Finset.mul_sum]
      exact mul_le_of_le_one_right (by positivity) h.sum_half_pow_le
    exact_mod_cast hreal

/-- Exchanging the codes of two symbols of the text. -/
theorem swap (h : IsPrefixCode text c) {x y : Symbol} (hx : x ∈ text) (hy : y ∈ text) :
    IsPrefixCode text (c ∘ Equiv.swap x y) := by
  have hmem : ∀ z ∈ text, Equiv.swap x y z ∈ text := fun z hz => by
    rw [Equiv.swap_apply_def]
    split_ifs
    · exact hy
    · exact hx
    · exact hz
  exact ⟨fun z hz => h.ne_nil _ (hmem z hz), fun z hz w hw hne =>
    h.not_begins _ (hmem z hz) _ (hmem w hw) ((Equiv.swap x y).injective.ne hne)⟩

/-- In a code of least total length a symbol that occurs more often has no longer code: otherwise exchanging the two
codes would save bits. -/
theorem length_le_of_optimal (h : IsPrefixCode text c)
    (hopt : ∀ d, IsPrefixCode text d → (text.map fun z => (c z).length).sum ≤ (text.map fun z => (d z).length).sum)
    {x y : Symbol} (hx : x ∈ text) (hy : y ∈ text) (hlt : text.count y < text.count x) :
    (c x).length ≤ (c y).length := by
  have hne : x ≠ y := fun hxy => hlt.ne' (by rw [hxy])
  have hle := hopt _ (h.swap hx hy)
  have hswap := sum_map_swap text (fun z => (c z).length) hne
  simp only [Function.comp_def] at hle hswap
  by_contra! hlong
  nlinarith

end IsPrefixCode

/-! ### The statement -/

/-- The codes of a text have the least total length (R123). -/
theorem codesOfText_optimal {text : List Symbol} {c : Symbol → Bits} (hne : text ≠ []) (h : IsPrefixCode text c) :
    (concatCodes (codesOfText text) text).length ≤ (text.map fun x => (c x).length).sum := by
  obtain ⟨n, hkraft⟩ := h.kraft
  exact stream_le_of_kraft hne _ n (fun x hx => List.length_pos_iff.2 (h.ne_nil x hx)) hkraft

theorem State.withCodes_isPrefixCode {s : State} (hpos : 1 ≤ s.regs.symLen.toNat) :
    IsPrefixCode s.text s.withCodes.bufs.code where
  ne_nil x hx := List.ne_nil_of_length_pos (by rw [length_code]; exact (withCodes_codeLen_of_mem hx).1)
  not_begins x hx y hy hne :=
    withCodes_prefixFree hpos x y hne (withCodes_codeLen_of_mem hx).1 (withCodes_codeLen_of_mem hy).1

/-- Settles O33: merging the two lightest nodes costs least among the lengths Kraft's inequality admits, and in a
code of least cost no two codes can be exchanged to a gain. -/
theorem builtCodeIsOptimal : Obligations.BuiltCodeIsOptimal := by
  intro s t _ hpos hcap h
  cases (exec_buildCodes hpos hcap).symm.trans h
  have hopt : ∀ c, IsPrefixCode s.text c →
      (s.text.map (codeLen s.withCodes.bufs)).sum ≤ (s.text.map fun x => (c x).length).sum := fun c hc =>
    s.withCodes_stream_length.symm.trans_le (codesOfText_optimal (s.text_ne_nil hpos) hc)
  refine ⟨fun c hne hp => hopt c ⟨hne, hp⟩, fun x hx y hy hlt => ?_⟩
  have hle := (State.withCodes_isPrefixCode hpos).length_le_of_optimal
    (by simpa only [length_code] using hopt) hx hy hlt
  rwa [length_code, length_code] at hle

end Sys2Proof.Machine
end

section
/-! SUPPORT. The Hamming code (42_hamming.md R127 to R130, R139, R140): the syndrome of a word with a flipped bit, the
word a block is corrected to, and the statements on one and on two flipped bits. -/

namespace Sys2Proof.Machine

/-! ### The syndrome -/

theorem threeBits_xor (a b c a' b' c' : Bool) :
    (a ^^ a').toNat + 2 * (b ^^ b').toNat + 4 * (c ^^ c').toNat =
      (a.toNat + 2 * b.toNat + 4 * c.toNat) ^^^ (a'.toNat + 2 * b'.toNat + 4 * c'.toNat) := by
  revert a b c a' b' c'
  decide

theorem threeBits_lt (a b c : Bool) : a.toNat + 2 * b.toNat + 4 * c.toNat < 8 := by
  revert a b c
  decide

theorem synd_lt (r : Codeword) : synd r < 8 := threeBits_lt _ _ _

/-- The syndrome is linear (R128). -/
theorem synd_xor (r e : Codeword) : synd (r ^^^ e) = synd r ^^^ synd e := by
  simp only [synd, ← threeBits_xor, BitVec.getLsbD_xor, Bool.xor_assoc, Bool.xor_left_comm]

/-- The bit at position j is read by the checks of the bits of j + 1 (R128, R129). -/
theorem synd_flipBit (r : Codeword) (j : Fin 7) : synd (flipBit r j) = synd r ^^^ (j.val + 1) := by
  have hpos : ∀ i : Fin 7, synd (1#7 <<< i.val) = i.val + 1 := by decide
  rw [flipBit, synd_xor, hpos]

theorem flipBit_flipBit (r : Codeword) (j : Nat) : flipBit (flipBit r j) j = r := by
  rw [flipBit, flipBit, BitVec.xor_assoc, BitVec.xor_self, BitVec.xor_zero]

/-! ### Codewords -/

theorem henc4_getLsbD (d : Nibble) (j : Nat) : (henc4 d).getLsbD j =
    [d.getLsbD 0 ^^ d.getLsbD 1 ^^ d.getLsbD 3, d.getLsbD 0 ^^ d.getLsbD 2 ^^ d.getLsbD 3, d.getLsbD 0,
      d.getLsbD 1 ^^ d.getLsbD 2 ^^ d.getLsbD 3, d.getLsbD 1, d.getLsbD 2, d.getLsbD 3].getD j false :=
  BitVec.getLsbD_ofBoolListLE

theorem synd_henc4 (d : Nibble) : synd (henc4 d) = 0 := by
  revert d
  decide

/-- The data bits of a word, at the positions that hold no parity (R127). -/
def dataBits (r : Codeword) : Nibble := BitVec.ofBoolListLE [r.getLsbD 2, r.getLsbD 4, r.getLsbD 5, r.getLsbD 6]

theorem dataBits_getLsbD (r : Codeword) (j : Nat) :
    (dataBits r).getLsbD j = [r.getLsbD 2, r.getLsbD 4, r.getLsbD 5, r.getLsbD 6].getD j false :=
  BitVec.getLsbD_ofBoolListLE

theorem dataBits_henc4 (d : Nibble) : dataBits (henc4 d) = d := by
  revert d
  decide

/-- A word with syndrome 0 is the codeword of its data bits. -/
theorem henc4_dataBits {r : Codeword} (h : synd r = 0) : henc4 (dataBits r) = r := by
  revert r
  decide

/-! ### Correction -/

/-- The word HDEC7 takes the data bits from: the position the syndrome names is flipped (R130). -/
def corrected (r : Codeword) : Codeword := if synd r ≠ 0 then flipBit r (synd r - 1) else r

theorem hdec7_eq (r : Codeword) : hdec7 r = (dataBits (corrected r), decide (synd r ≠ 0)) := rfl

theorem hdec7_snd (r : Codeword) : (hdec7 r).2 = decide (synd r ≠ 0) := rfl

theorem corrected_getLsbD (r : Codeword) {j : Nat} (hj : j < 7) :
    (corrected r).getLsbD j = (r.getLsbD j ^^ decide (synd r = j + 1)) := by
  have hlt := synd_lt r
  rw [corrected]
  split
  · rw [flipBit_getLsbD r (by omega) hj]
    congr 2
    rw [eq_iff_iff]
    omega
  · rw [decide_eq_false (by omega), Bool.xor_false]

theorem synd_corrected (r : Codeword) : synd (corrected r) = 0 := by
  have hlt := synd_lt r
  rw [corrected]
  split
  · have hflip := synd_flipBit r ⟨synd r - 1, by omega⟩
    rw [Nat.sub_add_cancel (by omega), Nat.xor_self] at hflip
    exact hflip
  · omega

theorem henc4_hdec7 (r : Codeword) : henc4 (hdec7 r).1 = corrected r := henc4_dataBits (synd_corrected r)

theorem hdec7_henc4 (d : Nibble) : hdec7 (henc4 d) = (d, false) := by
  rw [hdec7_eq, corrected, synd_henc4, if_neg (not_not.2 rfl), dataBits_henc4]
  rfl

theorem synd_flipBit_henc4 (d : Nibble) (j : Fin 7) : synd (flipBit (henc4 d) j) = j.val + 1 := by
  rw [synd_flipBit, synd_henc4, Nat.zero_xor]

theorem hdec7_flipBit_henc4 (d : Nibble) (j : Fin 7) : hdec7 (flipBit (henc4 d) j) = (d, true) := by
  rw [hdec7_eq, corrected, synd_flipBit_henc4, if_pos j.val.succ_ne_zero, Nat.add_sub_cancel, flipBit_flipBit,
    dataBits_henc4, decide_eq_true j.val.succ_ne_zero]

/-- Settles O36: the syndrome is linear, so a flip at j adds j + 1 to a codeword's syndrome 0. -/
theorem syndromeNamesTheFlippedBit : Obligations.SyndromeNamesTheFlippedBit := by
  refine ⟨fun d => ?_, fun r => rfl, fun r i j => ?_, fun r => ?_, fun d => ?_⟩
  · simp only [henc4_getLsbD]
    exact ⟨rfl, rfl, rfl, rfl, rfl, rfl, rfl⟩
  · simp only [flipBit_getLsbD r j.isLt i.isLt, Fin.ext_iff]
  · simp only [hdec7_eq, dataBits_getLsbD]
    exact ⟨corrected_getLsbD r (by decide), corrected_getLsbD r (by decide), corrected_getLsbD r (by decide),
      corrected_getLsbD r (by decide), trivial⟩
  · exact ⟨synd_henc4 d, hdec7_henc4 d, fun j => ⟨synd_flipBit_henc4 d j, hdec7_flipBit_henc4 d j⟩⟩

/-! ### Two flipped bits -/

theorem synd_flipBit_flipBit_henc4 (d : Nibble) (i j : Fin 7) :
    synd (flipBit (flipBit (henc4 d) i) j) = (i.val + 1) ^^^ (j.val + 1) := by
  rw [synd_flipBit, synd_flipBit_henc4]

/-- Settles O37: the position the syndrome names is a third one, so the corrected word is not the codeword of d. -/
theorem doubleErrorsAreMiscorrected : Obligations.DoubleErrorsAreMiscorrected := by
  intro d i j hne
  have hsynd := synd_flipBit_flipBit_henc4 d i j
  have hpos : synd (flipBit (flipBit (henc4 d) i) j) ≠ 0 := by
    rw [hsynd, Nat.xor_ne_zero_iff]
    omega
  refine ⟨hsynd, hpos, decide_eq_true hpos, fun hd => ?_⟩
  have hbit : (corrected (flipBit (flipBit (henc4 d) i) j)).getLsbD i = (henc4 d).getLsbD i := by
    rw [← henc4_hdec7, hd]
  have hthird : (i.val + 1) ^^^ (j.val + 1) ≠ i.val + 1 := by
    simp
  rw [corrected_getLsbD _ i.isLt, flipBit_getLsbD _ j.isLt i.isLt, flipBit_getLsbD _ i.isLt i.isLt, hsynd,
    decide_eq_false hthird, decide_eq_false (Fin.val_ne_of_ne hne), decide_eq_true rfl] at hbit
  simp at hbit

end Sys2Proof.Machine
end

section
/-! SUPPORT. Noise (42_hamming.md R131 to R136): the loop of NOISE_SELECT against its pseudocode, the positions it
takes, what flipping them leaves in the codewords, and the statements on NOISE_SELECT and INJECT_NOISE. -/

namespace Sys2Proof.Machine

/-! ### The loop of NOISE_SELECT -/

theorem xorshift32_toNat (x : Word) : (xorshift32 x).toNat = xorshiftAsWritten x.toNat := by
  simp only [xorshift32, xorshiftAsWritten, BitVec.toNat_xor, BitVec.toNat_shiftLeft, BitVec.toNat_ushiftRight]

/-- The number drawn at a step with n positions left, from the generator's value before it (R132). -/
def noiseDraw (x : Word) (n : Nat) : Nat := ((xorshift32 x).toNat * n) >>> 32

theorem noiseDraw_lt (x : Word) (n : Nat) : noiseDraw x (n + 1) < n + 1 := noise_draw_lt _ n.succ_pos

theorem noiseFrom_take {left need : Nat} {x : Word} (p : Nat) (h : noiseDraw x (left + 1) < need) :
    noiseFrom (left + 1) p x need = p :: noiseFrom left (p + 1) (xorshift32 x) (need - 1) := if_pos h

theorem noiseFrom_skip {left need : Nat} {x : Word} (p : Nat) (h : ¬ noiseDraw x (left + 1) < need) :
    noiseFrom (left + 1) p x need = noiseFrom left (p + 1) (xorshift32 x) need := if_neg h

/-- The loop of R132 from any position on adds the positions the model takes. -/
theorem foldl_noiseBody {total left p : Nat} (h : p + left = total) (x : Word) (need : Nat) (P : Finset Nat) :
    ((List.range' p left).foldl (noiseBody total) (x.toNat, need, P)).2.2 = P ∪ (noiseFrom left p x need).toFinset := by
  induction left generalizing p x need P with
  | zero => exact (Finset.union_empty P).symm
  | succ left ih =>
    have hbody : noiseBody total (x.toNat, need, P) p =
        if noiseDraw x (left + 1) < need then ((xorshift32 x).toNat, need - 1, P ∪ {p})
        else ((xorshift32 x).toNat, need, P) := by
      simp only [noiseBody, noiseDraw, xorshift32_toNat, ← h, Nat.add_sub_cancel_left]
    rw [List.range'_succ, List.foldl_cons, hbody]
    split
    next htake =>
      rw [ih (by omega), noiseFrom_take p htake, List.toFinset_cons, Finset.insert_eq, Finset.union_assoc]
    next hskip => rw [ih (by omega), noiseFrom_skip p hskip]

/-- Positions are taken in rising order, each at most once, from those left (R133). -/
theorem noiseFrom_sublist (left p : Nat) (x : Word) (need : Nat) :
    (noiseFrom left p x need).Sublist (List.range' p left) := by
  induction left generalizing p x need with
  | zero => exact List.Sublist.slnil
  | succ left ih =>
    rw [List.range'_succ]
    by_cases h : noiseDraw x (left + 1) < need
    · rw [noiseFrom_take p h]
      exact (ih _ _ _).cons_cons _
    · rw [noiseFrom_skip p h]
      exact (ih _ _ _).cons _

/-- The draw is below the number of positions left, so `need` never exceeds it (R133). -/
theorem noiseFrom_length {left need : Nat} (p : Nat) (x : Word) (h : need ≤ left) :
    (noiseFrom left p x need).length = need := by
  induction left generalizing p x need with
  | zero => exact (Nat.le_zero.1 h).symm
  | succ left ih =>
    have hlt := noiseDraw_lt x left
    by_cases hd : noiseDraw x (left + 1) < need
    · rw [noiseFrom_take p hd, List.length_cons, ih _ _ (by omega)]
      omega
    · rw [noiseFrom_skip p hd, ih _ _ (by omega)]

theorem noiseSelect_sublist (seed : Word) (total count : Nat) :
    (noiseSelect seed total count).Sublist (List.range total) := by
  rw [List.range_eq_range']
  exact noiseFrom_sublist _ _ _ _

theorem noiseSelect_length (seed : Word) {total count : Nat} (h : count ≤ total) :
    (noiseSelect seed total count).length = count := noiseFrom_length _ _ h

/-- From 0 the generator draws 0 at every step, so the first positions are taken. -/
theorem noiseFrom_zero_seed {left need : Nat} (p : Nat) (h : need ≤ left) :
    noiseFrom left p 0#32 need = List.range' p need := by
  induction need generalizing left p with
  | zero => exact List.length_eq_zero_iff.1 (noiseFrom_length p _ h)
  | succ need ih =>
    obtain ⟨left, rfl⟩ : ∃ n, left = n + 1 := ⟨left - 1, by omega⟩
    have hdraw : noiseDraw 0#32 (left + 1) = 0 := by simp [noiseDraw, xorshift32_zero]
    rw [noiseFrom_take p (by omega), xorshift32_zero, List.range'_succ, Nat.add_sub_cancel, ih _ (by omega)]

/-- Settles O38: by induction on the positions left; the draw is below their number. -/
theorem noiseSelectTakesExactlyCount : Obligations.NoiseSelectTakesExactlyCount := by
  refine ⟨xorshift32_toNat, xorshift32_zero, fun x n hn => Nat.le_sub_one_of_lt (noise_draw_lt x hn),
    fun seed total count => ?_, fun seed total count h => ⟨?_, noiseSelect_length seed h, fun p hp => ?_⟩,
    fun seed total => ?_, fun seed total => ?_, fun total count h => ?_⟩
  · rw [noiseAsWritten, List.range_eq_range', foldl_noiseBody (Nat.zero_add total), Finset.empty_union, noiseSelect]
  · exact List.pairwise_lt_range.sublist (noiseSelect_sublist seed total count)
  · exact List.mem_range.1 ((noiseSelect_sublist seed total count).subset hp)
  · exact (noiseSelect_sublist seed total total).eq_of_length (by rw [noiseSelect_length seed le_rfl, List.length_range])
  · exact List.length_eq_zero_iff.1 (noiseSelect_length seed total.zero_le)
  · rw [noiseSelect, noiseFrom_zero_seed 0 h, List.range_eq_range']

/-! ### Flipped positions -/

theorem flipFlat_getElem {cs : List Codeword} {b j : Nat} (p : Nat) (hb : b < (flipFlat cs p).length) (hj : j < 7) :
    (flipFlat cs p)[b].getLsbD j =
      ((cs[b]'(by simpa [flipFlat] using hb)).getLsbD j ^^ decide (7 * b + j = p)) := by
  simp only [flipFlat, List.getElem_modify]
  split
  · rw [flipBit_getLsbD _ (Nat.mod_lt p (by decide)) hj]
    congr 2
    rw [eq_iff_iff]
    omega
  · rw [decide_eq_false (by omega), Bool.xor_false]

theorem foldl_flipFlat_getElem {ps : List Nat} {cs : List Codeword} {b j : Nat} (hps : ps.Nodup)
    (hb : b < (ps.foldl flipFlat cs).length) (hj : j < 7) :
    (ps.foldl flipFlat cs)[b].getLsbD j =
      ((cs[b]'(by simpa [foldl_flipFlat_length] using hb)).getLsbD j ^^ decide (7 * b + j ∈ ps)) := by
  induction ps generalizing cs with
  | nil => simp
  | cons p ps ih =>
    obtain ⟨hp, hps⟩ := List.nodup_cons.1 hps
    simp only [List.foldl_cons]
    rw [ih hps, flipFlat_getElem p _ hj, Bool.xor_assoc]
    congr 1
    by_cases h : 7 * b + j = p
    · simp [h, hp]
    · simp [h]

/-! ### INJECT_NOISE -/

theorem injectNoise_of_le {s : State} (hcap : s.regs.cwCnt.toNat ≤ s.params.blkCap)
    (hcnt : s.regs.noiseCnt.toNat ≤ 7 * s.regs.cwCnt.toNat) :
    injectNoise s = .success { s with
      regs := { s.regs with rxCnt := s.regs.cwCnt }
      bufs := { s.bufs with
        rxBuf := (s.bufs.rxBuf.setSeq 0 <|
          (noiseSelect s.regs.noiseSeed (7 * s.regs.cwCnt.toNat) s.regs.noiseCnt.toNat).foldl flipFlat
            s.codewords) } } := by
  obtain ⟨h, -⟩ | ⟨-, h, -⟩ | ⟨-, -, h⟩ := injectNoise_cases s
  · omega
  · omega
  · exact h

/-- Settles O25: the positions are distinct, so each is flipped once. -/
theorem injectNoiseResult : Obligations.InjectNoiseResult := by
  intro s hcap hcnt
  have hlen := (foldl_flipFlat_length (noiseSelect s.regs.noiseSeed (7 * s.regs.cwCnt.toNat) s.regs.noiseCnt.toNat)
    s.codewords).trans s.codewords_length
  refine ⟨_, exec_of_resultOf (i := .injectNoise) (injectNoise_of_le hcap hcnt),
    completed_complete none rfl rfl rfl rfl rfl rfl rfl, rfl, rfl, fun b hb j hj => ?_, fun b hb => ?_, rfl, rfl, rfl⟩
  · have hnodup := List.nodup_range.sublist
      (noiseSelect_sublist s.regs.noiseSeed (7 * s.regs.cwCnt.toNat) s.regs.noiseCnt.toNat)
    simp only [CommandResult.completed_success, State.complete_bufs]
    rw [Memory.get_setSeq_inside _ b.zero_le (by omega)]
    simp only [Nat.sub_zero, foldl_flipFlat_getElem hnodup _ hj, State.codewords, Memory.getElem_getSeq, Nat.zero_add]
  · exact Memory.get_setSeq_outside _ (.inr (by rw [Nat.zero_add, hlen]; exact hb))

end Sys2Proof.Machine
end

section
/-! SUPPORT. HAM_ENCODE and HAM_DECODE (42_hamming.md R135, R137 to R139): the bits of a group and of a decoded block in
their buffers, and the statements on the two commands and on the round trip. -/

namespace Sys2Proof.Machine

/-! ### HAM_ENCODE -/

theorem Memory.getD_getSeq (m : Memory Bool) (n k : Nat) :
    (m.getSeq 0 n).getD k false = (decide (k < n) && m.get k) := by
  by_cases h : k < n
  · rw [List.getD_eq_getElem _ _ (by rwa [getSeq_length]), getElem_getSeq, Nat.zero_add, decide_eq_true h,
      Bool.true_and]
  · rw [List.getD_eq_default _ _ (by rw [getSeq_length]; omega), decide_eq_false h, Bool.false_and]

theorem hamEncode_of_le {s : State} (hcap : s.regs.hufLen.toNat ≤ s.params.bitCap) :
    hamEncode s = .success { s with
      regs := { s.regs with cwCnt := BitVec.ofNat 32 ((s.regs.hufLen.toNat + 3) / 4) }
      bufs := { s.bufs with
        cwBuf := (s.bufs.cwBuf.setSeq 0 <|
          (List.range ((s.regs.hufLen.toNat + 3) / 4)).map fun g => henc4 (groupOf s.hufBits g)) } } :=
  ((hamEncode_cases s).resolve_left fun h => hcap.not_gt h.1).2

/-- Settles O24: the codewords are written from element 0 on, and their number fits CW_CNT. -/
theorem hamEncodeResult : Obligations.HamEncodeResult := by
  intro s hp hcap
  have hcnt := toNat_lengthWord (Params.lt_of_le_bitCap hp (n := (s.regs.hufLen.toNat + 3) / 4) (by omega))
  refine ⟨_, exec_of_resultOf (i := .hamEncode) (hamEncode_of_le hcap),
    completed_complete none rfl rfl rfl rfl rfl rfl rfl, rfl, hcnt, fun g hg => ⟨groupOf s.hufBits g, ?_, fun j hj => ?_⟩,
    fun g hg => ?_, rfl, rfl, rfl⟩
  · have hg : g < (s.regs.hufLen.toNat + 3) / 4 := hg.trans_eq hcnt
    simp only [CommandResult.completed_success, State.complete_bufs]
    rw [Memory.get_setSeq_inside _ g.zero_le (by simpa using hg)]
    simp only [List.getElem_map, List.getElem_range, Nat.sub_zero]
  · rw [groupOf_getLsbD _ _ _ hj, State.hufBits, Memory.getD_getSeq]
  · exact Memory.get_setSeq_outside _ (.inr (by simpa using hcnt.symm.trans_le hg))

/-! ### HAM_DECODE -/

theorem hamDecode_of_le {s : State} (hcap : s.regs.rxCnt.toNat ≤ s.params.blkCap) :
    hamDecode s = .success { s with
      regs := { s.regs with
        datLen := BitVec.ofNat 32 (4 * s.regs.rxCnt.toNat)
        errCount := BitVec.ofNat 32 ((s.received.map hdec7).countP Prod.snd) }
      bufs := { s.bufs with
        datBuf := s.bufs.datBuf.setSeq 0 ((s.received.map hdec7).flatMap fun b => nibbleBits b.1)
        eflagBuf := s.bufs.eflagBuf.setSeq 0 ((s.received.map hdec7).map Prod.snd) } } :=
  ((hamDecode_cases s).resolve_left fun h => hcap.not_gt h.1).2

theorem Params.mul_four_le_bitCap {p : Params} {n : Nat} (h : n ≤ p.blkCap) : 4 * n ≤ p.bitCap := by
  rw [Params.blkCap] at h
  rw [Params.bitCap]
  omega

/-- The flags set are the blocks with a syndrome other than 0 (R137). -/
theorem State.countP_flags (s : State) : (s.received.map hdec7).countP Prod.snd =
    ((List.range s.regs.rxCnt.toNat).filter fun b => synd (s.bufs.rxBuf.get b) ≠ 0).length := by
  rw [← List.countP_eq_length_filter, List.countP_map, received, Memory.getSeq, List.countP_map]
  simp only [Nat.zero_add]
  rfl

/-- Settles O26: block b's bits are written from 4b on, its flag at b. -/
theorem hamDecodeResult : Obligations.HamDecodeResult := by
  intro s hp hcap
  have hbits := Params.mul_four_le_bitCap hcap
  have hblocks : (s.received.map hdec7).length = s.regs.rxCnt.toNat := by rw [List.length_map, s.received_length]
  have hblock : ∀ (b : Nat) (hb : b < (s.received.map hdec7).length),
      (s.received.map hdec7)[b] = hdec7 (s.bufs.rxBuf.get b) := fun b hb => by
    simp only [List.getElem_map, State.received, Memory.getElem_getSeq, Nat.zero_add]
  have hdata : ((s.received.map hdec7).flatMap fun b => nibbleBits b.1).length = 4 * s.regs.rxCnt.toNat := by
    rw [flatMap_nibbleBits_length, hblocks]
  have herr : ((List.range s.regs.rxCnt.toNat).filter fun b => synd (s.bufs.rxBuf.get b) ≠ 0).length ≤
      s.regs.rxCnt.toNat := (List.length_filter_le _ _).trans_eq List.length_range
  refine ⟨_, exec_of_resultOf (i := .hamDecode) (hamDecode_of_le hcap),
    completed_complete none rfl rfl rfl rfl rfl rfl rfl, rfl, toNat_lengthWord (Params.lt_of_le_bitCap hp hbits),
    fun b hb j hj => ?_, fun b hb => ?_, ?_, fun k hk => ?_, fun b hb => ?_, rfl, rfl, rfl⟩
  · have hb' := hb.trans_eq hblocks.symm
    simp only [CommandResult.completed_success, State.complete_bufs]
    rw [Memory.get_setSeq_inside _ (Nat.zero_le _) (by omega), ← List.getD_eq_getElem _ false, Nat.sub_zero,
      flatMap_nibbleBits_getD _ _ hj hb', hblock b hb']
  · simp only [CommandResult.completed_success, State.complete_bufs]
    rw [Memory.get_setSeq_inside _ b.zero_le (by rw [List.length_map, hblocks]; omega)]
    simp only [Nat.sub_zero, List.getElem_map, hblock, hdec7_snd]
  · exact (congrArg (fun n => (BitVec.ofNat 32 n).toNat) s.countP_flags).trans
      (toNat_lengthWord (Params.lt_of_le_bitCap hp (by omega)))
  · exact Memory.get_setSeq_outside _ (.inr (by rw [Nat.zero_add, hdata]; exact hk))
  · exact Memory.get_setSeq_outside _ (.inr (by rw [Nat.zero_add, List.length_map, hblocks]; exact hb))

/-! ### The round trip -/

/-- A word with the bit at a position flipped, if one is given. -/
def flipAt (c : Codeword) : Option (Fin 7) → Codeword
  | none => c
  | some j => flipBit c j

/-- A block with at most one flipped bit decodes to the data, and its flag says whether there was one (R139). -/
theorem hdec7_flipAt_henc4 (d : Nibble) (e : Option (Fin 7)) : hdec7 (flipAt (henc4 d) e) = (d, e.isSome) := by
  cases e with
  | none => exact hdec7_henc4 d
  | some j => exact hdec7_flipBit_henc4 d j

/-- Settles O39: each block decodes to its group, and the groups in order are the padded bits. -/
theorem hammingCorrectsOneErrorPerBlock : Obligations.HammingCorrectsOneErrorPerBlock := by
  intro s t t' err hp hcap h hparams hcnt hrx
  obtain ⟨v, hv, hcompleted, -, hgroups, hcw, -⟩ := hamEncodeResult s hp hcap
  cases hv.symm.trans h
  have hblk : t'.regs.rxCnt.toNat ≤ t'.params.blkCap := by
    rw [hcnt, hgroups, hparams, hcompleted.params, Params.blkCap]
    rw [Params.bitCap] at hcap
    omega
  obtain ⟨u, hu, hcompleted', -, hlen, hdat, hflag, hcount, -⟩ :=
    hamDecodeResult t' (by rw [hparams, hcompleted.params]; exact hp) hblk
  rw [hcnt] at hlen hdat hflag hcount
  have hword : ∀ b < t.regs.cwCnt.toNat, t'.bufs.rxBuf.get b = flipAt (t.bufs.cwBuf.get b) (err b) := fun b hb =>
    (hrx b hb).trans (by cases err b <;> rfl)
  have herr : ∀ b < t.regs.cwCnt.toNat, decide (synd (t'.bufs.rxBuf.get b) ≠ 0) = (err b).isSome := fun b hb => by
    obtain ⟨d, hd, -⟩ := hcw b hb
    rw [← hdec7_snd, hword b hb, hd, hdec7_flipAt_henc4]
  refine ⟨fun b hb => ?_, u, hu, hcompleted', hlen, fun k hk => ?_, fun b hb => (hflag b hb).trans (herr b hb), ?_⟩
  · obtain ⟨d, hd, -⟩ := hcw b hb
    rw [hword b hb, hd]
    cases err b with
    | none => exact synd_henc4 d
    | some j => exact synd_flipBit_henc4 d j
  · have hb : k / 4 < t.regs.cwCnt.toNat := by omega
    have hj : k % 4 < 4 := Nat.mod_lt k (by decide)
    obtain ⟨d, hd, hbits⟩ := hcw (k / 4) hb
    have hk := hdat (k / 4) hb (k % 4) hj
    rw [hword _ hb, hd, hdec7_flipAt_henc4, hbits _ hj, Nat.div_add_mod] at hk
    exact hk
  · rw [hcount, List.filter_congr fun b hb => herr b (List.mem_range.1 hb)]

end Sys2Proof.Machine
end

section
/-! SUPPORT. Errors and interrupt events (60_exceptions.md R143 to R156; 10_state.md R35): the check phase of each
command, the completion of an illegal word, that every step goes on, and what a step does to an event bit. -/

namespace Sys2Proof.Machine

/-! ### Check-phase errors -/

/-- An outcome that is an error in the state the command started from completes with that state unchanged (R151). -/
theorem exec_of_checkError {i : Instr} {s : State} {e : ErrorCode} (h : resultOf i s = .error e s) :
    ∃ t, exec i s = .next t ∧ CompletedUnchanged s t (some e) :=
  ⟨_, exec_of_resultOf h, completedUnchanged_complete s _⟩

section
variable {s : State}

theorem buildCodes_of_overlong (h : s.params.textCap < s.regs.symLen.toNat) : buildCodes s = .error .capacity s :=
  if_pos h

theorem buildCodes_of_empty (h : s.regs.symLen = 0#32) : buildCodes s = .error .invalidInput s := by
  have hlen : s.regs.symLen.toNat = 0 := congrArg BitVec.toNat h
  exact (if_neg (by omega)).trans (if_pos hlen)

theorem hufEncode_of_overlong (h : s.params.textCap < s.regs.symLen.toNat) : hufEncode s = .error .capacity s :=
  if_pos h

theorem decompress_of_overlong {len : Word} (bits : Bits) (h : s.params.bitCap < len.toNat) :
    decompress len bits s = .error .capacity s := if_pos h

/-- The table check of R116 comes before the stream is decoded (R121). -/
theorem decompress_of_ambiguous {len : Word} (bits : Bits) (hcap : len.toNat ≤ s.params.bitCap)
    (h : ¬ CtPrefixFree s.bufs) : decompress len bits s = .error .ambiguousCode s := by
  rw [decompress, if_neg hcap.not_gt, if_neg (mt (tableCheckIsPrefixFree s.bufs).1 h)]

theorem hamEncode_of_overlong (h : s.params.bitCap < s.regs.hufLen.toNat) : hamEncode s = .error .capacity s :=
  if_pos h

theorem injectNoise_of_overlong (h : s.params.blkCap < s.regs.cwCnt.toNat) : injectNoise s = .error .capacity s :=
  if_pos h

theorem injectNoise_of_excess (hcap : s.regs.cwCnt.toNat ≤ s.params.blkCap)
    (h : 7 * s.regs.cwCnt.toNat < s.regs.noiseCnt.toNat) : injectNoise s = .error .invalidInput s :=
  (if_neg hcap.not_gt).trans (if_pos h)

theorem hamDecode_of_overlong (h : s.params.blkCap < s.regs.rxCnt.toNat) : hamDecode s = .error .capacity s :=
  if_pos h

end

/-- Settles O8: each failed check gives an error in the state the command started from. -/
theorem checkPhaseErrorsChangeNothing : Obligations.CheckPhaseErrorsChangeNothing := by
  intro s
  refine ⟨fun h i hi => exec_of_checkError ?_, fun h => exec_of_checkError (buildCodes_of_empty h),
    fun h i hi => exec_of_checkError ?_, fun h => exec_of_checkError (decompress_of_overlong _ h),
    fun hcap h => exec_of_checkError (decompress_of_ambiguous _ hcap h),
    fun hcap h => exec_of_checkError (decompress_of_ambiguous _ hcap h),
    fun h => exec_of_checkError (injectNoise_of_overlong h),
    fun hcap h => exec_of_checkError (injectNoise_of_excess hcap h),
    fun h => exec_of_checkError (hamDecode_of_overlong h)⟩
  · rcases List.mem_pair.1 hi with rfl | rfl
    · exact buildCodes_of_overlong h
    · exact hufEncode_of_overlong h
  · rcases List.mem_pair.1 hi with rfl | rfl
    · exact decompress_of_overlong _ h
    · exact hamEncode_of_overlong h

/-! ### Illegal words -/

/-- Settles O7: the engine's turn is the BAD_COMMAND completion, and LAST_OP is that of the word in CMD. -/
theorem illegalWordCompletesWithBadCommand : Obligations.IllegalWordCompletesWithBadCommand := by
  rintro s w rest hnext hbusy rfl hillegal hcoherent
  refine ⟨_, ?_, completedUnchanged_complete { s with agenda := rest } _, rfl, hcoherent.lastOp⟩
  rw [step_engineNext hnext]
  exact (engineTurn_of_busy (s := { s with agenda := rest }) hbusy).trans (runCommand_of_illegal hillegal)

/-! ### No step stops -/

/-- The engine's turn: nothing while idle, the completion of the running command otherwise (R19, R102). -/
theorem exists_engineTurn_eq_next (s : State) :
    ∃ t, engineTurn s = .next t ∧ (t = s ∨ s.status.busy = true ∧ ∃ e, Completed s t e) := by
  rcases engineTurn_cases s with ⟨-, h⟩ | ⟨hbusy, i, -, h⟩ | ⟨hbusy, -, h⟩
  · exact ⟨s, h, .inl rfl⟩
  · exact ⟨_, h.trans (exec_eq i s), .inr ⟨hbusy, (CommandEffect.resultOf i s).completed⟩⟩
  · exact ⟨_, h, .inr ⟨hbusy, _, (completedUnchanged_complete s _).completed⟩⟩

theorem exists_takeTurn_eq_next (e : Event) (s : State) : ∃ t, takeTurn e s = .next t := by
  cases e with
  | memRead a n => exact ⟨_, rfl⟩
  | memWrite a n v => exact ⟨_, rfl⟩
  | complete => exact (exists_engineTurn_eq_next s).imp fun _ => And.left
  | reset => exact ⟨_, rfl⟩

/-- Settles O12: a step is a turn, and each turn, the engine's included, answers a next state. -/
theorem everyStepGoesOn : Obligations.EveryStepGoesOn := by
  intro s
  unfold step nextTurn
  cases s.agenda with
  | nil => exact (exists_engineTurn_eq_next s).imp fun _ => And.left
  | cons e rest => exact exists_takeTurn_eq_next e _

/-! ### Events -/

/-- What a step from `s` to `t` does to bit `k` of IRQ_STATUS (R35, R156): nothing, or one of the listed changes. -/
inductive EventEffect (s t : State) (k : Nat) : Prop
  | kept (hbit : t.irqStatus.getLsbD k = s.irqStatus.getLsbD k)
  | reset {rest : List Event} (hagenda : s.agenda = .reset :: rest) (hbit : t.irqStatus.getLsbD k = false)
  | cleared {v : Word} {rest : List Event} (hagenda : s.agenda = .memWrite 0x02C#19 4 v :: rest)
      (hv : v.getLsbD k = true) (hbit : t.irqStatus.getLsbD k = false)
  | dropped {a : Addr} {v : Word} {rest : List Event} (hagenda : s.agenda = .memWrite a 4 v :: rest)
      (hbusy : s.status.busy = true) (hk : k = 2) (hbit : t.irqStatus.getLsbD k = true)
  | completed (hbusy : s.status.busy = true) (hk : k ≠ 2) (hidle : t.status.busy = false)
      (hdone : t.status.done = true) (herr : k = 1 → t.status.err = true) (hbit : t.irqStatus.getLsbD k = true)

/-- A completion sets DONE_EV, and ERR_EV when it has an error (R102). -/
theorem Completed.eventEffect {s t : State} {e : Option ErrorCode} {k : Nat} {rest : List Event}
    (h : Completed { s with agenda := rest } t e) (hbusy : s.status.busy = true) (hk : k < 3) : EventEffect s t k := by
  match k with
  | 0 => exact .completed hbusy (by decide) h.busy h.done nofun h.doneEv
  | 1 =>
    have hbit := h.errEv
    cases he : e.isSome with
    | false => exact .kept (by rw [hbit, he, Bool.or_false])
    | true => exact .completed hbusy (by decide) h.busy h.done (fun _ => h.err.trans he) (by rw [hbit, he, Bool.or_true])
  | 2 => exact .kept h.dropEv

theorem engineTurn_eventEffect {s t : State} {k : Nat} {rest : List Event}
    (h : engineTurn { s with agenda := rest } = .next t) (hk : k < 3) : EventEffect s t k := by
  obtain ⟨u, hu, hcases⟩ := exists_engineTurn_eq_next { s with agenda := rest }
  cases hu.symm.trans h
  rcases hcases with rfl | ⟨hbusy, e, hcompleted⟩
  · exact .kept rfl
  · exact hcompleted.eventEffect hbusy hk

/-- Only a write of IRQ_STATUS itself touches it (R35). -/
theorem writeLocation_irqStatus {l : Location} (v : Word) (s : State) (h : l ≠ .reg .irqStatus) :
    (writeLocation l v s).irqStatus = s.irqStatus := by
  cases l with
  | reg r =>
    cases r with
    | irqStatus => exact absurd rfl h
    | _ => rfl
  | _ => simp only [writeLocation, State.clearCodesValid_irqStatus]

theorem noteDrop_getLsbD (s : State) {k : Nat} (hk : k < 3) :
    s.noteDrop.irqStatus.getLsbD k = (s.irqStatus.getLsbD k || decide (k = 2)) := by
  have hdrop : dropEv.getLsbD k = decide (k = 2) := by
    interval_cases k <;> rfl
  rw [State.noteDrop_irqStatus, BitVec.getLsbD_or, hdrop]

/-- A host write is refused, reaches IRQ_STATUS or another location, or is dropped (R65, R66, R71). -/
theorem hostWrite_eventEffect {s : State} {a : Addr} {n : Nat} {v : Word} {k : Nat} {rest : List Event}
    (hagenda : s.agenda = .memWrite a n v :: rest) (hk : k < 3) :
    EventEffect s (hostWrite a n v { s with agenda := rest }) k := by
  rcases hostWrite_cases a n v { s with agenda := rest } with ⟨-, h⟩ | ⟨l, hl, -, h⟩ | ⟨l, hl, hbusy, -, h⟩ <;> rw [h]
  · exact .kept rfl
  · obtain ⟨rfl, -, hl⟩ := reaches_eq_some.1 hl
    by_cases hirq : l = .reg .irqStatus
    · subst hirq
      obtain rfl : a = 0x02C#19 := locate_eq_reg hl
      have hbit := writeIrqStatus_getLsbD v s hk
      cases hv : v.getLsbD k with
      | false => exact .kept (hbit.trans (by rw [hv, Bool.not_false, Bool.and_true]))
      | true => exact .cleared hagenda hv (hbit.trans (by rw [hv, Bool.not_true, Bool.and_false]))
    · exact .kept (congrArg (·.getLsbD k) (writeLocation_irqStatus v _ hirq))
  · obtain ⟨rfl, -, -⟩ := reaches_eq_some.1 hl
    have hbit := noteDrop_getLsbD s hk
    by_cases h2 : k = 2
    · exact .dropped hagenda hbusy h2 (hbit.trans (by rw [decide_eq_true h2, Bool.or_true]))
    · exact .kept (hbit.trans (by rw [decide_eq_false h2, Bool.or_false]))

theorem step_eventEffect {s t : State} {k : Nat} (hk : k < 3) (h : step s = .next t) : EventEffect s t k := by
  rcases step_cases h with ⟨-, he⟩ | ⟨rest, -, he⟩ | ⟨a, n, rest, -, rfl⟩ | ⟨a, n, v, rest, hagenda, rfl⟩ |
    ⟨rest, hagenda, rfl⟩
  · exact engineTurn_eventEffect (rest := s.agenda) he hk
  · exact engineTurn_eventEffect he hk
  · exact .kept (by rw [hostRead_frame])
  · exact hostWrite_eventEffect hagenda hk
  · exact .reset hagenda BitVec.getLsbD_zero

theorem EventEffect.of_fallen {s t : State} {k : Nat} (h : EventEffect s t k) (hs : s.irqStatus.getLsbD k = true)
    (ht : t.irqStatus.getLsbD k = false) :
    (∃ rest, s.agenda = .reset :: rest) ∨
      ∃ v rest, s.agenda = .memWrite 0x02C#19 4 v :: rest ∧ v.getLsbD k = true := by
  cases h with
  | kept hbit => simp [hbit, hs] at ht
  | reset hagenda hbit => exact .inl ⟨_, hagenda⟩
  | cleared hagenda hv hbit => exact .inr ⟨_, _, hagenda, hv⟩
  | dropped _ _ _ hbit => simp [hbit] at ht
  | completed _ _ _ _ _ hbit => simp [hbit] at ht

theorem EventEffect.of_risen {s t : State} {k : Nat} (h : EventEffect s t k) (hs : s.irqStatus.getLsbD k = false)
    (ht : t.irqStatus.getLsbD k = true) :
    s.status.busy = true ∧
      (k = 2 ∧ (∃ a v rest, s.agenda = .memWrite a 4 v :: rest) ∨
        k ≠ 2 ∧ t.status.busy = false ∧ t.status.done = true ∧ (k = 1 → t.status.err = true)) := by
  cases h with
  | kept hbit => simp [hbit, hs] at ht
  | reset _ hbit => simp [hbit] at ht
  | cleared _ _ hbit => simp [hbit] at ht
  | dropped hagenda hbusy hk _ => exact ⟨hbusy, .inl ⟨hk, _, _, _, hagenda⟩⟩
  | completed hbusy hk hidle hdone herr _ => exact ⟨hbusy, .inr ⟨hk, hidle, hdone, herr⟩⟩

/-- Settles O15: a turn keeps an event bit or changes it in one of the ways of `EventEffect`. -/
theorem eventsChangeOnlyAsListed : Obligations.EventsChangeOnlyAsListed :=
  fun _ _ _ hk h => ⟨(step_eventEffect hk h).of_fallen, (step_eventEffect hk h).of_risen⟩

end Sys2Proof.Machine
end

section
/-! SUPPORT. Reset and progress (70_reset_and_hazards.md R162 to R164, R172): the state a reset leaves, the idle
block, and the turn in which BUSY falls. -/

namespace Sys2Proof.Machine

/-! ### The state a reset leaves -/

/-- A reset numbers the buffers' draws one after the other from the draw after NOISE_SEED's (R45, R58). -/
theorem State.atReset_drawsFresh (p : Params) (d : Nat) : (State.atReset p d).DrawsFresh := by
  have hl : (State.atReset p d).bufs.drawList = List.range' (d + 1) 10 := rfl
  refine ⟨hl ▸ List.nodup_range', fun n hmem => ?_⟩
  rw [hl, List.mem_range'_1] at hmem
  exact hmem.2

/-- A block of any legal build is sound after reset. -/
theorem State.atReset_sound {p : Params} (hp : p.legal = true) (d : Nat) : (State.atReset p d).Sound where
  params := hp
  canonical := Buffers.reset_canonical (d + 1)
  inBounds := Buffers.reset_inBounds p (d + 1)
  draws := State.atReset_drawsFresh p d
  status := ⟨rfl, rfl, nofun⟩
  codes := nofun

theorem Status.word_reset : Status.reset.word = 0#32 := by decide

theorem State.irq_of_irqStatus_zero {s : State} (h : s.irqStatus = 0#3) : s.irq = false := by
  simp [State.irq, h]

/-- Settles O17: the registers are the zeros of `State.atReset`, and the default capacities are legal. -/
theorem resetStateIsSound : Obligations.ResetStateIsSound :=
  ⟨Status.word_reset, rfl, rfl, State.irq_of_irqStatus_zero rfl, rfl, rfl, rfl, rfl, rfl, rfl, rfl,
    State.atReset_sound (by decide) 0⟩

/-! ### The reset event -/

theorem step_reset {s : State} {rest : List Event} (h : s.agenda = .reset :: rest) :
    step s = .next (State.takeReset { s with agenda := rest }) := by
  simp only [step, nextTurn, h, takeTurn]

/-- The buffer reset gives draw `d + 1 + n` reads as that draw, which was not taken when `d` was next (R58). -/
theorem Memory.get_drawn_after {α : Type} [Inhabited α] (d n : Nat) :
    ∃ d', d < d' ∧ ∀ k, (Memory.drawn (d + 1 + n) : Memory α).get k = Config.free d' k :=
  ⟨d + 1 + n, by omega, Memory.get_drawn _⟩

/-- Settles O16: the state is `State.atReset` with draws from `s.draws` on, NOISE_SEED's first, then each buffer's. -/
theorem resetEventRestoresEverything : Obligations.ResetEventRestoresEverything := by
  intro s rest hagenda
  have hbuf {α : Type} [Inhabited α] (n : Nat) := Memory.get_drawn_after (α := α) s.draws n
  exact ⟨_, step_reset hagenda, rfl, rfl, rfl, Status.word_reset, rfl, rfl,
    State.irq_of_irqStatus_zero rfl, rfl, rfl, rfl, rfl, rfl, rfl, rfl, rfl, rfl, rfl,
    hbuf 0, hbuf 1, hbuf 2, hbuf 3, hbuf 4, hbuf 5, hbuf 6, hbuf 7, hbuf 8, hbuf 9,
    State.atReset_drawsFresh s.params s.draws, Nat.lt_add_of_pos_right (by decide)⟩

/-! ### The idle block -/

theorem step_of_agenda_nil {s : State} (h : s.agenda = []) : step s = engineTurn s := by
  simp only [step, nextTurn, h]

/-- Settles O14: with nothing listed the turn is the engine's, which is enabled only while BUSY = 1. -/
theorem idleBlockStays : Obligations.IdleBlockStays :=
  fun _ hidle hagenda => (step_of_agenda_nil hagenda).trans (engineTurn_of_idle hidle)

/-! ### The turn in which BUSY falls -/

/-- While a command runs the engine's turn is its completion (R102). -/
theorem engineTurn_completed {s : State} (hbusy : s.status.busy = true) :
    ∃ t e, engineTurn s = .next t ∧ Completed s t e := by
  rcases engineTurn_cases s with ⟨hidle, -⟩ | ⟨-, i, -, h⟩ | ⟨-, -, h⟩
  · exact absurd (hbusy.symm.trans hidle) (by decide)
  · obtain ⟨e, hcompleted⟩ := (CommandEffect.resultOf i s).completed
    exact ⟨_, e, h.trans (exec_eq i s), hcompleted⟩
  · exact ⟨_, _, h, (completedUnchanged_complete s _).completed⟩

/-- A step of a running block either ends the command, by its completion or by a reset, or it is a host transaction and
the command runs on with the turns listed after it (R103, R104, R164). -/
theorem step_of_busy {s : State} (hbusy : s.status.busy = true) :
    ∃ t, step s = .next t ∧
      (t.status.busy = false ∧ (Event.reset ∉ s.agenda → t.status.done = true) ∨
        t.status.busy = true ∧ ∃ e, s.agenda = e :: t.agenda) := by
  have hengine {rest : List Event} (hnext : EngineNext s rest) :
      ∃ t, step s = .next t ∧ t.status.busy = false ∧ t.status.done = true := by
    obtain ⟨t, e, h, hcompleted⟩ := engineTurn_completed (s := { s with agenda := rest }) hbusy
    exact ⟨t, (step_engineNext hnext).trans h, hcompleted.busy, hcompleted.done⟩
  cases hagenda : s.agenda with
  | nil =>
    obtain ⟨t, h, hidle, hdone⟩ := hengine (.inr ⟨hagenda, rfl⟩)
    exact ⟨t, h, .inl ⟨hidle, fun _ => hdone⟩⟩
  | cons e rest =>
    cases e with
    | memRead a n =>
      refine ⟨_, step_memRead hagenda, .inr ?_⟩
      rw [hostRead_frame]
      exact ⟨hbusy, _, rfl⟩
    | memWrite a n v =>
      refine ⟨_, step_memWrite hagenda, .inr ?_⟩
      rw [hostWrite_busy_frame a n v (s := { s with agenda := rest }) hbusy]
      exact ⟨hbusy, _, rfl⟩
    | complete =>
      obtain ⟨t, h, hidle, hdone⟩ := hengine (.inl hagenda)
      exact ⟨t, h, .inl ⟨hidle, fun _ => hdone⟩⟩
    | reset => exact ⟨_, step_reset hagenda, .inl ⟨rfl, fun hno => absurd List.mem_cons_self hno⟩⟩

theorem run_succ_of_step {s t : State} (k : Nat) (h : step s = .next t) : core.run (k + 1) s = core.run k t := by
  simp only [Host.Core.run, core, h]

/-- Settles O13, by induction on the turns listed: each step ends the command or takes one turn off the list. -/
theorem everyCommandCompletes : Obligations.EveryCommandCompletes := by
  intro s hbusy
  induction hlist : s.agenda generalizing s with
  | nil =>
    obtain ⟨t, hstep, ⟨hidle, hdone⟩ | ⟨-, e, hagenda⟩⟩ := step_of_busy hbusy
    · exact ⟨1, le_rfl, t, run_succ_of_step 0 hstep, hidle, hlist ▸ hdone⟩
    · cases hlist.symm.trans hagenda
  | cons e rest ih =>
    obtain ⟨t, hstep, ⟨hidle, hdone⟩ | ⟨hstill, e', hagenda⟩⟩ := step_of_busy hbusy
    · exact ⟨1, by omega, t, run_succ_of_step 0 hstep, hidle, hlist ▸ hdone⟩
    · obtain ⟨rfl, rfl⟩ := List.cons.inj (hlist.symm.trans hagenda)
      obtain ⟨k, hk, u, hrun, hidle, hdone⟩ := ih t hstill rfl
      exact ⟨k + 1, Nat.succ_le_succ hk, u, (run_succ_of_step k hstep).trans hrun, hidle,
        fun hno => hdone fun hmem => hno (List.mem_cons_of_mem e hmem)⟩

end Sys2Proof.Machine
end
